-- ==== Sys2Proof/Word.lean ====
section
/-! DEFINITION. The words of the block: bytes of memory, general-register cells and vector-register cells. -/

namespace Sys2Proof

/-- One byte of memory (20_memory.md R70). -/
abbrev Byte := BitVec 8

/-- The cell of one general register: `XLEN` is 64 or 32 (00_scope.md R8), so 64 bits hold either. -/
abbrev GprCell := BitVec 64

/-- The cell of one vector register: `VLEN` is 64, 128 or 256 (00_scope.md R8), so 256 bits hold any. -/
abbrev VecCell := BitVec 256

/-- The 16-bit control word that selects an operation (30_encoding.md R100). -/
abbrev ControlWord := BitVec 16

end Sys2Proof
end

