-- ==== Sys2Proof/Config.lean ====
section
/-! DEFINITION. The parameters of 00_scope.md R8 as plain data (`Context`), and the one free value the model must supply itself. -/

namespace Sys2Proof

/-- The vector width `VLEN`, an open parameter: one of 64, 128 and 256 (00_scope.md R8, 92_eei_decisions.md D5). -/
inductive VLen where
  | v64
  | v128
  | v256
deriving DecidableEq, Repr

/-- `VLEN` in bits. -/
abbrev VLen.bits : VLen → Nat
  | .v64 => 64
  | .v128 => 128
  | .v256 => 256

/-- `VLEN`/8, the bytes of a packed memory operand (20_memory.md R76). -/
abbrev VLen.bytes : VLen → Nat
  | .v64 => 8
  | .v128 => 16
  | .v256 => 32

/-- The `kind` argument of `MemAdmit` (20_memory.md R75). -/
inductive AccessKind where
  | read
  | write
deriving DecidableEq, Repr

/-- One thing the environment does not admit. `MemAdmit(addr, n, kind)` of 20_memory.md R75 is an open predicate of the
environment; a list of these is that predicate as plain data (DESIGN CHOICE, safe: log 5). -/
inductive Denial where
  /-- No access of this kind may touch a byte of addresses `first` to `last` (an unmapped or a read-only region). -/
  | region (kind : AccessKind) (first last : Nat)
  /-- Accesses of this kind and size must start at a multiple of `align`. -/
  | misaligned (kind : AccessKind) (bytes align : Nat)
  /-- This one access is not admitted. Any predicate at all is a list of these. -/
  | single (kind : AccessKind) (bytes addr : Nat)
deriving DecidableEq, Repr

/-- What is fixed for one execution context (00_scope.md R8, 10_state.md R43): `MODE64`, `VLEN` and the environment's
`MemAdmit`. It is plain data in State, so that a statement about every state holds for every value of the open parameters. -/
structure Context where
  mode64  : Bool
  vlen    : VLen
  denials : List Denial
deriving DecidableEq, Repr

/-- `XLEN`: 64 if `MODE64`, else 32 (00_scope.md R8). -/
def Context.xlen (c : Context) : Nat := if c.mode64 then 64 else 32

/-- `NGPR`: 16 if `MODE64`, else 8 (00_scope.md R8, 10_state.md R32). -/
def Context.ngpr (c : Context) : Nat := if c.mode64 then 16 else 8

/-- `NVREG`: 16 if `MODE64`, else 8 (00_scope.md R8, 10_state.md R42). -/
def Context.nvreg (c : Context) : Nat := if c.mode64 then 16 else 8

/-- A draw the model must supply itself, because no driver gave one (log 3): 0 or 1 under no law (00_scope.md R15).
The draw of a call that the driver makes is an input of that call, not this constant. -/
opaque Config.freeDraw : Nat → Bool

end Sys2Proof
end

