-- ==== Sys2Proof/Syntax.lean ====
section
/-! DEFINITION. Instructions, one constructor for each operation of the selection table whose arguments are the control word's SH and WC
fields restricted to the rows of 30_encoding.md R105 (so that the terms of `Instr` are exactly the 318 rows), and the operand handles a call brings. -/

namespace Sys2Proof

/-- The scalar widths, `WC` 0 to 3 (30_encoding.md R101). -/
inductive Width where
  | w8
  | w16
  | w32
  | w64
deriving DecidableEq, Repr

/-- W in bits (30_encoding.md R101). -/
abbrev Width.bits : Width → Nat
  | .w8 => 8
  | .w16 => 16
  | .w32 => 32
  | .w64 => 64

/-- W/8, the bytes of a scalar memory operand (20_memory.md R76). -/
abbrev Width.bytes : Width → Nat
  | .w8 => 1
  | .w16 => 2
  | .w32 => 4
  | .w64 => 8

/-- The widths that IMUL's 2- and 3-operand rows have: no 8-bit row exists (30_encoding.md R105). -/
inductive WideWidth where
  | w16
  | w32
  | w64
deriving DecidableEq, Repr

/-- A wide width as a width. -/
abbrev WideWidth.width : WideWidth → Width
  | .w16 => .w16
  | .w32 => .w32
  | .w64 => .w64

/-- The operand-shape patterns of 30_encoding.md R102. -/
inductive Shape where
  | r
  | m
  | rr
  | rm
  | mr
  | ri
  | mi
  | rri
  | rmi
  | vv
  | vm
deriving DecidableEq, Repr

/-- The shapes of the one-operand rows (30_encoding.md R105). -/
inductive UnaryShape where
  | r
  | m
deriving DecidableEq, Repr

/-- The shapes of the two-operand arithmetic and logical rows (30_encoding.md R105). -/
inductive BinaryShape where
  | rr
  | rm
  | mr
  | ri
  | mi
deriving DecidableEq, Repr

/-- The shapes of TEST and of the shifts, which have no RM row (30_encoding.md R105). -/
inductive NoRmShape where
  | rr
  | mr
  | ri
  | mi
deriving DecidableEq, Repr

/-- The shapes of the packed rows (30_encoding.md R105). -/
inductive PackedShape where
  | vv
  | vm
deriving DecidableEq, Repr

/-- The shapes of IMUL's 2-operand rows (30_encoding.md R105). -/
inductive RegSrcShape where
  | rr
  | rm
deriving DecidableEq, Repr

/-- The shapes of IMUL's 3-operand rows (30_encoding.md R105). -/
inductive ImmSrcShape where
  | rri
  | rmi
deriving DecidableEq, Repr

/-- The shapes of XADD's rows (30_encoding.md R105). -/
inductive ExchangeShape where
  | rr
  | mr
deriving DecidableEq, Repr

def UnaryShape.shape : UnaryShape → Shape
  | .r => .r
  | .m => .m

def BinaryShape.shape : BinaryShape → Shape
  | .rr => .rr
  | .rm => .rm
  | .mr => .mr
  | .ri => .ri
  | .mi => .mi

def NoRmShape.shape : NoRmShape → Shape
  | .rr => .rr
  | .mr => .mr
  | .ri => .ri
  | .mi => .mi

def PackedShape.shape : PackedShape → Shape
  | .vv => .vv
  | .vm => .vm

def RegSrcShape.shape : RegSrcShape → Shape
  | .rr => .rr
  | .rm => .rm

def ImmSrcShape.shape : ImmSrcShape → Shape
  | .rri => .rri
  | .rmi => .rmi

def ExchangeShape.shape : ExchangeShape → Shape
  | .rr => .rr
  | .mr => .mr

/-- The rows of the selection table (30_encoding.md R103, R105). A term is one row: the constructor is its OP, the arguments its SH
and WC. The packed rows have one width code only, so they take no width. -/
inductive Instr where
  | add (sh : BinaryShape) (w : Width)
  | adc (sh : BinaryShape) (w : Width)
  | sub (sh : BinaryShape) (w : Width)
  | sbb (sh : BinaryShape) (w : Width)
  | cmp (sh : BinaryShape) (w : Width)
  | inc (sh : UnaryShape) (w : Width)
  | dec (sh : UnaryShape) (w : Width)
  | neg (sh : UnaryShape) (w : Width)
  | and (sh : BinaryShape) (w : Width)
  | or (sh : BinaryShape) (w : Width)
  | xor (sh : BinaryShape) (w : Width)
  | test (sh : NoRmShape) (w : Width)
  | not (sh : UnaryShape) (w : Width)
  | pand (sh : PackedShape)
  | por (sh : PackedShape)
  | pxor (sh : PackedShape)
  | pandn (sh : PackedShape)
  | ptest (sh : PackedShape)
  | mul (sh : UnaryShape) (w : Width)
  | imul1 (sh : UnaryShape) (w : Width)
  | imul2 (sh : RegSrcShape) (w : WideWidth)
  | imul3 (sh : ImmSrcShape) (w : WideWidth)
  | div (sh : UnaryShape) (w : Width)
  | idiv (sh : UnaryShape) (w : Width)
  | shl (sh : NoRmShape) (w : Width)
  | shr (sh : NoRmShape) (w : Width)
  | sar (sh : NoRmShape) (w : Width)
  | xadd (sh : ExchangeShape) (w : Width)
deriving DecidableEq, Repr

/-- The views of a general register (10_state.md R32). -/
inductive View where
  | l8
  | h8
  | x16
  | x32
  | x64
deriving DecidableEq, Repr

/-- An operand handle (00_scope.md R14, 30_encoding.md R110): a view of a general register, a vector register, a memory location of
`n` bytes whose address another unit computed, or an immediate of a fixed bit width. -/
inductive Handle where
  | reg (i : Fin 16) (k : View)
  | vec (j : Fin 16)
  | mem (addr : BitVec 64) (n : Nat)
  | imm (bits : Nat) (v : BitVec bits)
deriving DecidableEq, Repr

/-- How an operation uses an explicit operand (30_encoding.md R104). -/
inductive Access where
  | r
  | w
  | rw
deriving DecidableEq, Repr

/-- What a slot of a shape takes (30_encoding.md R102, R110). -/
inductive Slot where
  | reg (bits : Nat)
  | mem (bytes : Nat)
  | imm (bits : Nat)
  | vec
deriving DecidableEq, Repr

end Sys2Proof
end

