-- ==== Sys2Proof/Machine/Operands.lean ====
section
/-! DEFINITION. Operands without the state: the views of a register, the roles and slots of every row (30_encoding.md R102, R104), when a row exists (R112),
when a handle fits its slot (R110), and the implicit operands (10_state.md R35). -/

namespace Sys2Proof

/-- The width of a view (10_state.md R32). -/
abbrev View.bits : View → Nat
  | .l8 => 8
  | .h8 => 8
  | .x16 => 16
  | .x32 => 32
  | .x64 => 64

/-- The lowest bit of the register that a view shows (10_state.md R32). -/
abbrev View.low : View → Nat
  | .h8 => 8
  | .l8 | .x16 | .x32 | .x64 => 0

/-- The view of width W that starts at bit 0. -/
abbrev Width.view : Width → View
  | .w8 => .l8
  | .w16 => .x16
  | .w32 => .x32
  | .w64 => .x64

/-- Whether the operand is read. -/
def Access.reads : Access → Bool
  | .r => true
  | .w => false
  | .rw => true

/-- Whether the operand is written. -/
def Access.writes : Access → Bool
  | .r => false
  | .w => true
  | .rw => true

/-- The shape of a row (30_encoding.md R105). -/
def Instr.shape : Instr → Shape
  | .add sh _ => sh.shape
  | .adc sh _ => sh.shape
  | .sub sh _ => sh.shape
  | .sbb sh _ => sh.shape
  | .cmp sh _ => sh.shape
  | .inc sh _ => sh.shape
  | .dec sh _ => sh.shape
  | .neg sh _ => sh.shape
  | .and sh _ => sh.shape
  | .or sh _ => sh.shape
  | .xor sh _ => sh.shape
  | .test sh _ => sh.shape
  | .not sh _ => sh.shape
  | .pand sh => sh.shape
  | .por sh => sh.shape
  | .pxor sh => sh.shape
  | .pandn sh => sh.shape
  | .ptest sh => sh.shape
  | .mul sh _ => sh.shape
  | .imul1 sh _ => sh.shape
  | .imul2 sh _ => sh.shape
  | .imul3 sh _ => sh.shape
  | .div sh _ => sh.shape
  | .idiv sh _ => sh.shape
  | .shl sh _ => sh.shape
  | .shr sh _ => sh.shape
  | .sar sh _ => sh.shape
  | .xadd sh _ => sh.shape

/-- The width of a row; `none` is W = `VLEN`, the packed rows (30_encoding.md R101). -/
def Instr.width : Instr → Option Width
  | .add _ w => some w
  | .adc _ w => some w
  | .sub _ w => some w
  | .sbb _ w => some w
  | .cmp _ w => some w
  | .inc _ w => some w
  | .dec _ w => some w
  | .neg _ w => some w
  | .and _ w => some w
  | .or _ w => some w
  | .xor _ w => some w
  | .test _ w => some w
  | .not _ w => some w
  | .pand _ => none
  | .por _ => none
  | .pxor _ => none
  | .pandn _ => none
  | .ptest _ => none
  | .mul _ w => some w
  | .imul1 _ w => some w
  | .imul2 _ w => some w.width
  | .imul3 _ w => some w.width
  | .div _ w => some w
  | .idiv _ w => some w
  | .shl _ w => some w
  | .shr _ w => some w
  | .sar _ w => some w
  | .xadd _ w => some w

/-- The access of each explicit operand, in slot order (30_encoding.md R104). -/
def Instr.accesses : Instr → List Access
  | .add _ _ => [.rw, .r]
  | .adc _ _ => [.rw, .r]
  | .sub _ _ => [.rw, .r]
  | .sbb _ _ => [.rw, .r]
  | .cmp _ _ => [.r, .r]
  | .inc _ _ => [.rw]
  | .dec _ _ => [.rw]
  | .neg _ _ => [.rw]
  | .and _ _ => [.rw, .r]
  | .or _ _ => [.rw, .r]
  | .xor _ _ => [.rw, .r]
  | .test _ _ => [.r, .r]
  | .not _ _ => [.rw]
  | .pand _ => [.rw, .r]
  | .por _ => [.rw, .r]
  | .pxor _ => [.rw, .r]
  | .pandn _ => [.rw, .r]
  | .ptest _ => [.r, .r]
  | .mul _ _ => [.r]
  | .imul1 _ _ => [.r]
  | .imul2 _ _ => [.rw, .r]
  | .imul3 _ _ => [.w, .r, .r]
  | .div _ _ => [.r]
  | .idiv _ _ => [.r]
  | .shl _ _ => [.rw, .r]
  | .shr _ _ => [.rw, .r]
  | .sar _ _ => [.rw, .r]
  | .xadd _ _ => [.rw, .rw]

/-- The width of the second operand where it differs from W: a shift count is 8 bits (30_encoding.md R104). -/
def Instr.countBits : Instr → Option Nat
  | .shl _ _ => some 8
  | .shr _ _ => some 8
  | .sar _ _ => some 8
  | .add _ _ | .adc _ _ | .sub _ _ | .sbb _ _ | .cmp _ _ | .inc _ _ | .dec _ _ | .neg _ _ => none
  | .and _ _ | .or _ _ | .xor _ _ | .test _ _ | .not _ _ => none
  | .pand _ | .por _ | .pxor _ | .pandn _ | .ptest _ => none
  | .mul _ _ | .imul1 _ _ | .imul2 _ _ | .imul3 _ _ | .div _ _ | .idiv _ _ | .xadd _ _ => none

/-- The slots of a shape whose operands are W bits wide but for a second operand of `bits2` bits (30_encoding.md R102, R104). -/
def Shape.slots (sh : Shape) (bits bytes bits2 : Nat) : List Slot :=
  match sh with
  | .r => [.reg bits]
  | .m => [.mem bytes]
  | .rr => [.reg bits, .reg bits2]
  | .rm => [.reg bits, .mem bytes]
  | .mr => [.mem bytes, .reg bits2]
  | .ri => [.reg bits, .imm bits2]
  | .mi => [.mem bytes, .imm bits2]
  | .rri => [.reg bits, .reg bits, .imm bits]
  | .rmi => [.reg bits, .mem bytes, .imm bits]
  | .vv => [.vec, .vec]
  | .vm => [.vec, .mem bytes]

/-- The slots of a row (30_encoding.md R102, R104, R110). -/
def Instr.slots (vlen : VLen) (i : Instr) : List Slot :=
  match i.width with
  | some w => i.shape.slots w.bits w.bytes (i.countBits.getD w.bits)
  | none => i.shape.slots vlen.bits vlen.bytes vlen.bits

/-- A row with W = 64 exists only when `MODE64` (30_encoding.md R112). -/
def Instr.available (c : Context) (i : Instr) : Bool :=
  match i.width with
  | some .w64 => c.mode64
  | some .w8 | some .w16 | some .w32 | none => true

/-- Whether register i exists and has view k in this mode (10_state.md R32). -/
def View.present (c : Context) (i : Fin 16) : View → Bool
  | .l8 => if c.mode64 then true else i.val < 4
  | .h8 => i.val < 4
  | .x16 => i.val < c.ngpr
  | .x32 => i.val < c.ngpr
  | .x64 => c.mode64

/-- Whether a handle matches a slot (30_encoding.md R110). DEDUCED, safe (log 18): a handle that names a register, a view or an address
that the mode does not have matches no slot. -/
def Handle.fits (c : Context) : Slot → Handle → Bool
  | .reg bits, .reg i k => k.present c i && k.bits == bits
  | .mem bytes, .mem addr n => n == bytes && addr.toNat < 2 ^ c.xlen
  | .imm bits, .imm b _ => b == bits
  | .vec, .vec j => j.val < c.nvreg
  | .reg _, .vec _ | .reg _, .mem _ _ | .reg _, .imm _ _ => false
  | .mem _, .reg _ _ | .mem _, .vec _ | .mem _, .imm _ _ => false
  | .imm _, .reg _ _ | .imm _, .vec _ | .imm _, .mem _ _ => false
  | .vec, .reg _ _ | .vec, .mem _ _ | .vec, .imm _ _ => false

/-- Whether a list of handles fits a list of slots, one for one. -/
def handlesFit (c : Context) : List Slot → List Handle → Bool
  | [], [] => true
  | s :: ss, h :: hs => h.fits c s && handlesFit c ss hs
  | [], _ :: _ => false
  | _ :: _, [] => false

/-- Step 3 of 30_encoding.md R120: the handles match the row's shape, roles and widths. -/
def Instr.operandsFit (c : Context) (i : Instr) (hs : List Handle) : Bool :=
  handlesFit c (i.slots c.vlen) hs

/-- `RdView(i, k)` on a register cell x (10_state.md R32). -/
def rdView (x : GprCell) (k : View) : BitVec k.bits := x.extractLsb' k.low k.bits

/-- `WrView(i, k, v)` on a register cell x (10_state.md R33): narrow writes keep the other bits, an `X32` write clears bits 63:32. With
`XLEN` = 32 the cell's bits 63:32 are zero and stay zero. -/
def wrView (x : GprCell) (k : View) (v : BitVec k.bits) : GprCell :=
  match k with
  | .l8 => x.extractLsb' 8 56 ++ v
  | .h8 => x.extractLsb' 16 48 ++ v ++ x.extractLsb' 0 8
  | .x16 => x.extractLsb' 16 48 ++ v
  | .x32 => v.setWidth 64
  | .x64 => v

/-- `ACC_W`, the accumulator (10_state.md R35). -/
def accHandle (w : Width) : Handle := .reg 0 w.view

/-- `HI_W`, the high partner, for W = 16, 32 and 64 (10_state.md R35). -/
def hiHandle (w : WideWidth) : Handle := .reg 2 w.width.view

/-- `AX`, the 16-bit accumulator of the 8-bit forms (10_state.md R35). -/
def axHandle : Handle := .reg 0 .x16

/-- `AL` (10_state.md R35). -/
def alHandle : Handle := .reg 0 .l8

/-- `AH` (10_state.md R35). -/
def ahHandle : Handle := .reg 0 .h8

end Sys2Proof
end

