-- ==== Sys2Proof/WellFormed.lean ====
section
/-! DEFINITION. Well-formed instructions: every term of `Instr` is a row of the table by its type (30_encoding.md R105), so what can be ill-formed is a
row in the wrong mode (R112) and a row with operand handles that do not fit its slots (R110). -/

namespace Sys2Proof

/-- Row i may run in context c with the handles hs: steps 2 and 3 of 30_encoding.md R120. -/
def Instr.wellFormed (c : Context) (i : Instr) (hs : List Handle) : Bool :=
  i.available c && i.operandsFit c hs

end Sys2Proof
end

