-- ==== Sys2Proof/Decode.lean ====
section
/-! DEFINITION. The decoder, total on every control word and rejecting by name, from 30_encoding.md R100 to R105; then the encoder, from the same tables;
then the 318 words of spec/opcode_table.json as they are listed there. -/

namespace Sys2Proof

/-- Why a control word selects no row. The block answers `Refuse(Unlisted)` to each (30_encoding.md R113). -/
inductive Reject where
  /-- The OP value is reserved (30_encoding.md R103). -/
  | reservedOp
  /-- The SH value is reserved (30_encoding.md R102). -/
  | reservedShape
  /-- The WC value is reserved (30_encoding.md R101). -/
  | reservedWidth
  /-- OP, SH and WC are all assigned, but the table has no such row (30_encoding.md R105). -/
  | unlistedForm
deriving DecidableEq, Repr

/-- ctl[15:8] (30_encoding.md R100). -/
def opField (c : ControlWord) : Nat := (c.extractLsb' 8 8).toNat

/-- ctl[7:4] (30_encoding.md R100). -/
def shField (c : ControlWord) : Nat := (c.extractLsb' 4 4).toNat

/-- ctl[3:0] (30_encoding.md R100). -/
def wcField (c : ControlWord) : Nat := (c.extractLsb' 0 4).toNat

/-- WC 0 to 3 (30_encoding.md R101). -/
def decodeWidth : Nat → Option Width
  | 0 => some .w8
  | 1 => some .w16
  | 2 => some .w32
  | 3 => some .w64
  | _ => none

/-- WC 1 to 3, the widths of IMUL's 2- and 3-operand rows (30_encoding.md R105). -/
def decodeWideWidth : Nat → Option WideWidth
  | 1 => some .w16
  | 2 => some .w32
  | 3 => some .w64
  | _ => none

/-- SH of the rows with shapes R and M (30_encoding.md R102, R105). -/
def decodeUnary : Nat → Option UnaryShape
  | 0x0 => some .r
  | 0x1 => some .m
  | _ => none

/-- SH of the rows with shapes RR, RM, MR, RI and MI. -/
def decodeBinary : Nat → Option BinaryShape
  | 0x2 => some .rr
  | 0x3 => some .rm
  | 0x4 => some .mr
  | 0x5 => some .ri
  | 0x6 => some .mi
  | _ => none

/-- SH of the rows with shapes RR, MR, RI and MI. -/
def decodeNoRm : Nat → Option NoRmShape
  | 0x2 => some .rr
  | 0x4 => some .mr
  | 0x5 => some .ri
  | 0x6 => some .mi
  | _ => none

/-- SH of the rows with shapes VV and VM. -/
def decodePacked : Nat → Option PackedShape
  | 0x9 => some .vv
  | 0xA => some .vm
  | _ => none

/-- SH of the rows with shapes RR and RM. -/
def decodeRegSrc : Nat → Option RegSrcShape
  | 0x2 => some .rr
  | 0x3 => some .rm
  | _ => none

/-- SH of the rows with shapes RRI and RMI. -/
def decodeImmSrc : Nat → Option ImmSrcShape
  | 0x7 => some .rri
  | 0x8 => some .rmi
  | _ => none

/-- SH of the rows with shapes RR and MR. -/
def decodeExchange : Nat → Option ExchangeShape
  | 0x2 => some .rr
  | 0x4 => some .mr
  | _ => none

/-- A row from its shape and width, where the table has both. -/
def selectRow {α β : Type} (sh : Option α) (w : Option β) (f : α → β → Instr) : Option Instr :=
  match sh, w with
  | some sh, some w => some (f sh w)
  | some _, none => none
  | none, _ => none

/-- A packed row: its WC is 4 (30_encoding.md R101, R105). -/
def selectPacked (sh wc : Nat) (f : PackedShape → Instr) : Option Instr :=
  if wc = 4 then (decodePacked sh).map f else none

/-- The selection table as a function of OP, SH and WC (30_encoding.md R103, R105). -/
def selectInstr (op sh wc : Nat) : Option Instr :=
  match op with
  | 0x01 => selectRow (decodeBinary sh) (decodeWidth wc) .add
  | 0x02 => selectRow (decodeBinary sh) (decodeWidth wc) .adc
  | 0x03 => selectRow (decodeBinary sh) (decodeWidth wc) .sub
  | 0x04 => selectRow (decodeBinary sh) (decodeWidth wc) .sbb
  | 0x05 => selectRow (decodeBinary sh) (decodeWidth wc) .cmp
  | 0x06 => selectRow (decodeUnary sh) (decodeWidth wc) .inc
  | 0x07 => selectRow (decodeUnary sh) (decodeWidth wc) .dec
  | 0x08 => selectRow (decodeUnary sh) (decodeWidth wc) .neg
  | 0x10 => selectRow (decodeBinary sh) (decodeWidth wc) .and
  | 0x11 => selectRow (decodeBinary sh) (decodeWidth wc) .or
  | 0x12 => selectRow (decodeBinary sh) (decodeWidth wc) .xor
  | 0x13 => selectRow (decodeNoRm sh) (decodeWidth wc) .test
  | 0x14 => selectRow (decodeUnary sh) (decodeWidth wc) .not
  | 0x18 => selectPacked sh wc .pand
  | 0x19 => selectPacked sh wc .por
  | 0x1A => selectPacked sh wc .pxor
  | 0x1B => selectPacked sh wc .pandn
  | 0x1C => selectPacked sh wc .ptest
  | 0x20 => selectRow (decodeUnary sh) (decodeWidth wc) .mul
  | 0x21 => selectRow (decodeUnary sh) (decodeWidth wc) .imul1
  | 0x22 => selectRow (decodeRegSrc sh) (decodeWideWidth wc) .imul2
  | 0x23 => selectRow (decodeImmSrc sh) (decodeWideWidth wc) .imul3
  | 0x24 => selectRow (decodeUnary sh) (decodeWidth wc) .div
  | 0x25 => selectRow (decodeUnary sh) (decodeWidth wc) .idiv
  | 0x30 => selectRow (decodeNoRm sh) (decodeWidth wc) .shl
  | 0x31 => selectRow (decodeNoRm sh) (decodeWidth wc) .shr
  | 0x32 => selectRow (decodeNoRm sh) (decodeWidth wc) .sar
  | 0x40 => selectRow (decodeExchange sh) (decodeWidth wc) .xadd
  | _ => none

/-- The assigned OP values (30_encoding.md R103). -/
def assignedOps : List Nat :=
  [0x01, 0x02, 0x03, 0x04, 0x05, 0x06, 0x07, 0x08, 0x10, 0x11, 0x12, 0x13, 0x14,
   0x18, 0x19, 0x1A, 0x1B, 0x1C, 0x20, 0x21, 0x22, 0x23, 0x24, 0x25, 0x30, 0x31, 0x32, 0x40]

/-- The name of the rejection of a word that selects no row (DESIGN CHOICE, safe: log 20). -/
def rejectReason (op sh wc : Nat) : Reject :=
  if op ∉ assignedOps then .reservedOp
  else if 0xB ≤ sh then .reservedShape
  else if 5 ≤ wc then .reservedWidth
  else .unlistedForm

/-- The decoder: the row a control word selects, or why it selects none (30_encoding.md R105, R113). -/
def decode (c : ControlWord) : Except Reject Instr :=
  match selectInstr (opField c) (shField c) (wcField c) with
  | some i => .ok i
  | none => .error (rejectReason (opField c) (shField c) (wcField c))

/-- The row that the table's bits w select. Every row has 16 bits and no operand word (30_encoding.md R115), so a value with a bit above
bit 15 is the word of no row. -/
def decodeTableWord (nbits w : Nat) : Option Instr :=
  if w % 2 ^ nbits < 2 ^ 16 then
    match decode (BitVec.ofNat 16 (w % 2 ^ nbits)) with
    | .ok i => some i
    | .error _ => none
  else none

/-- OP of a row (30_encoding.md R103). -/
def opCode : Instr → BitVec 8
  | .add _ _ => 0x01
  | .adc _ _ => 0x02
  | .sub _ _ => 0x03
  | .sbb _ _ => 0x04
  | .cmp _ _ => 0x05
  | .inc _ _ => 0x06
  | .dec _ _ => 0x07
  | .neg _ _ => 0x08
  | .and _ _ => 0x10
  | .or _ _ => 0x11
  | .xor _ _ => 0x12
  | .test _ _ => 0x13
  | .not _ _ => 0x14
  | .pand _ => 0x18
  | .por _ => 0x19
  | .pxor _ => 0x1A
  | .pandn _ => 0x1B
  | .ptest _ => 0x1C
  | .mul _ _ => 0x20
  | .imul1 _ _ => 0x21
  | .imul2 _ _ => 0x22
  | .imul3 _ _ => 0x23
  | .div _ _ => 0x24
  | .idiv _ _ => 0x25
  | .shl _ _ => 0x30
  | .shr _ _ => 0x31
  | .sar _ _ => 0x32
  | .xadd _ _ => 0x40

/-- SH of a shape (30_encoding.md R102). -/
def shapeCode : Shape → BitVec 4
  | .r => 0x0
  | .m => 0x1
  | .rr => 0x2
  | .rm => 0x3
  | .mr => 0x4
  | .ri => 0x5
  | .mi => 0x6
  | .rri => 0x7
  | .rmi => 0x8
  | .vv => 0x9
  | .vm => 0xA

/-- WC of a width; the packed rows have WC = 4 (30_encoding.md R101). -/
def widthCode : Option Width → BitVec 4
  | some .w8 => 0
  | some .w16 => 1
  | some .w32 => 2
  | some .w64 => 3
  | none => 4

/-- The encoder: `OP << 8 | SH << 4 | WC` (30_encoding.md R105). -/
def encode (i : Instr) : ControlWord :=
  opCode i ++ shapeCode i.shape ++ widthCode i.width

/-- The control words of ADD, OP 0x01 (spec/opcode_table.json). -/
def rowsAdd : List Nat :=
  [0x0120, 0x0121, 0x0122, 0x0123, 0x0130, 0x0131, 0x0132, 0x0133, 0x0140, 0x0141, 0x0142, 0x0143,
   0x0150, 0x0151, 0x0152, 0x0153, 0x0160, 0x0161, 0x0162, 0x0163]

/-- The control words of ADC, OP 0x02 (spec/opcode_table.json). -/
def rowsAdc : List Nat :=
  [0x0220, 0x0221, 0x0222, 0x0223, 0x0230, 0x0231, 0x0232, 0x0233, 0x0240, 0x0241, 0x0242, 0x0243,
   0x0250, 0x0251, 0x0252, 0x0253, 0x0260, 0x0261, 0x0262, 0x0263]

/-- The control words of SUB, OP 0x03 (spec/opcode_table.json). -/
def rowsSub : List Nat :=
  [0x0320, 0x0321, 0x0322, 0x0323, 0x0330, 0x0331, 0x0332, 0x0333, 0x0340, 0x0341, 0x0342, 0x0343,
   0x0350, 0x0351, 0x0352, 0x0353, 0x0360, 0x0361, 0x0362, 0x0363]

/-- The control words of SBB, OP 0x04 (spec/opcode_table.json). -/
def rowsSbb : List Nat :=
  [0x0420, 0x0421, 0x0422, 0x0423, 0x0430, 0x0431, 0x0432, 0x0433, 0x0440, 0x0441, 0x0442, 0x0443,
   0x0450, 0x0451, 0x0452, 0x0453, 0x0460, 0x0461, 0x0462, 0x0463]

/-- The control words of CMP, OP 0x05 (spec/opcode_table.json). -/
def rowsCmp : List Nat :=
  [0x0520, 0x0521, 0x0522, 0x0523, 0x0530, 0x0531, 0x0532, 0x0533, 0x0540, 0x0541, 0x0542, 0x0543,
   0x0550, 0x0551, 0x0552, 0x0553, 0x0560, 0x0561, 0x0562, 0x0563]

/-- The control words of INC, OP 0x06 (spec/opcode_table.json). -/
def rowsInc : List Nat :=
  [0x0600, 0x0601, 0x0602, 0x0603, 0x0610, 0x0611, 0x0612, 0x0613]

/-- The control words of DEC, OP 0x07 (spec/opcode_table.json). -/
def rowsDec : List Nat :=
  [0x0700, 0x0701, 0x0702, 0x0703, 0x0710, 0x0711, 0x0712, 0x0713]

/-- The control words of NEG, OP 0x08 (spec/opcode_table.json). -/
def rowsNeg : List Nat :=
  [0x0800, 0x0801, 0x0802, 0x0803, 0x0810, 0x0811, 0x0812, 0x0813]

/-- The control words of AND, OP 0x10 (spec/opcode_table.json). -/
def rowsAnd : List Nat :=
  [0x1020, 0x1021, 0x1022, 0x1023, 0x1030, 0x1031, 0x1032, 0x1033, 0x1040, 0x1041, 0x1042, 0x1043,
   0x1050, 0x1051, 0x1052, 0x1053, 0x1060, 0x1061, 0x1062, 0x1063]

/-- The control words of OR, OP 0x11 (spec/opcode_table.json). -/
def rowsOr : List Nat :=
  [0x1120, 0x1121, 0x1122, 0x1123, 0x1130, 0x1131, 0x1132, 0x1133, 0x1140, 0x1141, 0x1142, 0x1143,
   0x1150, 0x1151, 0x1152, 0x1153, 0x1160, 0x1161, 0x1162, 0x1163]

/-- The control words of XOR, OP 0x12 (spec/opcode_table.json). -/
def rowsXor : List Nat :=
  [0x1220, 0x1221, 0x1222, 0x1223, 0x1230, 0x1231, 0x1232, 0x1233, 0x1240, 0x1241, 0x1242, 0x1243,
   0x1250, 0x1251, 0x1252, 0x1253, 0x1260, 0x1261, 0x1262, 0x1263]

/-- The control words of TEST, OP 0x13 (spec/opcode_table.json). -/
def rowsTest : List Nat :=
  [0x1320, 0x1321, 0x1322, 0x1323, 0x1340, 0x1341, 0x1342, 0x1343, 0x1350, 0x1351, 0x1352, 0x1353,
   0x1360, 0x1361, 0x1362, 0x1363]

/-- The control words of NOT, OP 0x14 (spec/opcode_table.json). -/
def rowsNot : List Nat :=
  [0x1400, 0x1401, 0x1402, 0x1403, 0x1410, 0x1411, 0x1412, 0x1413]

/-- The control words of PAND, OP 0x18 (spec/opcode_table.json). -/
def rowsPand : List Nat :=
  [0x1894, 0x18A4]

/-- The control words of POR, OP 0x19 (spec/opcode_table.json). -/
def rowsPor : List Nat :=
  [0x1994, 0x19A4]

/-- The control words of PXOR, OP 0x1A (spec/opcode_table.json). -/
def rowsPxor : List Nat :=
  [0x1A94, 0x1AA4]

/-- The control words of PANDN, OP 0x1B (spec/opcode_table.json). -/
def rowsPandn : List Nat :=
  [0x1B94, 0x1BA4]

/-- The control words of PTEST, OP 0x1C (spec/opcode_table.json). -/
def rowsPtest : List Nat :=
  [0x1C94, 0x1CA4]

/-- The control words of MUL, OP 0x20 (spec/opcode_table.json). -/
def rowsMul : List Nat :=
  [0x2000, 0x2001, 0x2002, 0x2003, 0x2010, 0x2011, 0x2012, 0x2013]

/-- The control words of IMUL, OP 0x21 (spec/opcode_table.json). -/
def rowsImul21 : List Nat :=
  [0x2100, 0x2101, 0x2102, 0x2103, 0x2110, 0x2111, 0x2112, 0x2113]

/-- The control words of IMUL, OP 0x22 (spec/opcode_table.json). -/
def rowsImul22 : List Nat :=
  [0x2221, 0x2222, 0x2223, 0x2231, 0x2232, 0x2233]

/-- The control words of IMUL, OP 0x23 (spec/opcode_table.json). -/
def rowsImul23 : List Nat :=
  [0x2371, 0x2372, 0x2373, 0x2381, 0x2382, 0x2383]

/-- The control words of DIV, OP 0x24 (spec/opcode_table.json). -/
def rowsDiv : List Nat :=
  [0x2400, 0x2401, 0x2402, 0x2403, 0x2410, 0x2411, 0x2412, 0x2413]

/-- The control words of IDIV, OP 0x25 (spec/opcode_table.json). -/
def rowsIdiv : List Nat :=
  [0x2500, 0x2501, 0x2502, 0x2503, 0x2510, 0x2511, 0x2512, 0x2513]

/-- The control words of SHL, OP 0x30 (spec/opcode_table.json). -/
def rowsShl : List Nat :=
  [0x3050, 0x3051, 0x3052, 0x3053, 0x3060, 0x3061, 0x3062, 0x3063, 0x3020, 0x3021, 0x3022, 0x3023,
   0x3040, 0x3041, 0x3042, 0x3043]

/-- The control words of SHR, OP 0x31 (spec/opcode_table.json). -/
def rowsShr : List Nat :=
  [0x3150, 0x3151, 0x3152, 0x3153, 0x3160, 0x3161, 0x3162, 0x3163, 0x3120, 0x3121, 0x3122, 0x3123,
   0x3140, 0x3141, 0x3142, 0x3143]

/-- The control words of SAR, OP 0x32 (spec/opcode_table.json). -/
def rowsSar : List Nat :=
  [0x3250, 0x3251, 0x3252, 0x3253, 0x3260, 0x3261, 0x3262, 0x3263, 0x3220, 0x3221, 0x3222, 0x3223,
   0x3240, 0x3241, 0x3242, 0x3243]

/-- The control words of XADD, OP 0x40 (spec/opcode_table.json). -/
def rowsXadd : List Nat :=
  [0x4020, 0x4021, 0x4022, 0x4023, 0x4040, 0x4041, 0x4042, 0x4043]

/-- The 318 control words of the selection table, as spec/opcode_table.json lists them (30_encoding.md R105). -/
def tableWords : List Nat :=
  rowsAdd ++ rowsAdc ++ rowsSub ++ rowsSbb ++ rowsCmp ++ rowsInc
    ++ rowsDec ++ rowsNeg ++ rowsAnd ++ rowsOr ++ rowsXor ++ rowsTest
    ++ rowsNot ++ rowsPand ++ rowsPor ++ rowsPxor ++ rowsPandn ++ rowsPtest
    ++ rowsMul ++ rowsImul21 ++ rowsImul22 ++ rowsImul23 ++ rowsDiv ++ rowsIdiv
    ++ rowsShl ++ rowsShr ++ rowsSar ++ rowsXadd

end Sys2Proof
end

