-- ==== Sys2Proof/Machine/Memory.lean ====
section
/-! DEFINITION. Byte memory as a sorted list of cells, its little-endian accesses (20_memory.md R70 to R73), and the environment's `MemAdmit` (R74, R75). -/

namespace Sys2Proof.Machine

/-- Memory: the bytes that have a value. A byte that is not listed has no value (20_memory.md R74, log 10). -/
abbrev Memory := List Host.Cell

/-- The canonical form: addresses strictly rising. An unlisted byte has no value, so no entry can repeat what it reads as. -/
abbrev Memory.wf (m : Memory) : Prop := m.Pairwise fun a b => a.1 < b.1

/-- What an address that is not listed reads as: no value (20_memory.md R74). -/
def Memory.unlisted : Option Byte := none

/-- M[a], where the byte has a value. -/
def Memory.byteAt (m : Memory) (a : Nat) : Option Byte :=
  match m with
  | [] => Memory.unlisted
  | (x, b) :: t => if a = x then some b else Memory.byteAt t a

/-- M[a] <- b, keeping the canonical form. -/
def Memory.setByte (m : Memory) (a : Nat) (b : Byte) : Memory :=
  match m with
  | [] => [(a, b)]
  | (x, y) :: t =>
    if a < x then (a, b) :: (x, y) :: t
    else if a = x then (a, b) :: t
    else (x, y) :: Memory.setByte t a b

/-- `addr + k` modulo 2^XLEN (20_memory.md R71). -/
def byteAddr (xlen addr k : Nat) : Nat := (addr + k) % 2 ^ xlen

/-- `MemRead(addr, n)` as a number: byte k is bits 8k+7 to 8k (20_memory.md R71). It is applied to admitted accesses only, and every byte
of one has a value (R74). -/
def Memory.read (xlen : Nat) (m : Memory) (addr : Nat) : Nat → Nat
  | 0 => 0
  | k + 1 => Memory.read xlen m addr k + ((m.byteAt (byteAddr xlen addr k)).getD 0).toNat * 2 ^ (8 * k)

/-- `MemWrite(addr, n, v)`: bits 8k+7 to 8k of v go to `addr + k` (20_memory.md R72). -/
def Memory.write {w : Nat} (xlen : Nat) (m : Memory) (addr : Nat) (v : BitVec w) : Nat → Memory
  | 0 => m
  | k + 1 => (Memory.write xlen m addr v k).setByte (byteAddr xlen addr k) (v.extractLsb' (8 * k) 8)

/-- Whether the access of n bytes at addr touches a byte of addresses first to last. -/
def touches (xlen addr first last : Nat) : Nat → Bool
  | 0 => false
  | k + 1 => touches xlen addr first last k
      || (decide (first ≤ byteAddr xlen addr k) && decide (byteAddr xlen addr k ≤ last))

/-- Whether one denial rule of the environment forbids an access. -/
def deniesAccess (xlen : Nat) (d : Denial) (kind : AccessKind) (addr n : Nat) : Bool :=
  match d with
  | .region k first last => decide (k = kind) && touches xlen addr first last n
  | .misaligned k bytes align => decide (k = kind) && decide (bytes = n) && decide (addr % align ≠ 0)
  | .single k bytes a => decide (k = kind) && decide (bytes = n) && decide (a = addr)

/-- Whether every byte of the access has a value (20_memory.md R74). -/
def Memory.valued (xlen : Nat) (m : Memory) (addr : Nat) : Nat → Bool
  | 0 => true
  | k + 1 => Memory.valued xlen m addr k && (m.byteAt (byteAddr xlen addr k)).isSome

/-- `MemAdmit(addr, n, kind)` (20_memory.md R74, R75): no rule of the environment denies the access, and every byte of it has a value. -/
def memAdmit (c : Context) (m : Memory) (addr n : Nat) (kind : AccessKind) : Bool :=
  m.valued c.xlen addr n && c.denials.all fun d => !deniesAccess c.xlen d kind addr n

end Sys2Proof.Machine
end

