-- ==== Sys2Proof/Machine/State.lean ====
section
/-! DEFINITION. The state of the block (10_state.md R30) with the calls the driver has still to make and the access trace, the reasons a step can stop, and the
state right after reset (70_reset_and_hazards.md R360). All of it is plain data. -/

namespace Sys2Proof.Machine

/-- The value of a flag: 0, 1 or `U`, a stored value of its own (00_scope.md R11, 10_state.md R37). -/
inductive FlagVal where
  | zero
  | one
  | u
deriving DecidableEq, Repr

/-- The flag set: six separate three-valued cells (10_state.md R37, R41). -/
structure Flags where
  CF : FlagVal
  PF : FlagVal
  AF : FlagVal
  ZF : FlagVal
  SF : FlagVal
  OF : FlagVal
deriving DecidableEq, Repr

/-- What an operation writes into each flag; `none` is `unchanged` (00_scope.md R11, 10_state.md R38). -/
structure FlagWrite where
  CF : Option FlagVal
  PF : Option FlagVal
  AF : Option FlagVal
  ZF : Option FlagVal
  SF : Option FlagVal
  OF : Option FlagVal
deriving DecidableEq, Repr

/-- The block's `MachineState` (10_state.md R30): general registers (R32), flags (R37), vector registers (R42) and memory (20_memory.md R70).
Without `MODE64` only registers 0 to 7 and bits 31:0 of a general register exist; only the low `VLEN` bits of a vector register exist (logs 8, 9). -/
structure MachineState where
  gpr   : Vector GprCell 16
  flags : Flags
  vreg  : Vector VecCell 16
  mem   : Memory
deriving DecidableEq, Repr

/-- One call of the block, as the driver makes it (10_state.md R46): the control word, the operand handles, and the draw that ADC and SBB need
when CF is `U` (R40). -/
structure Call where
  ctl  : ControlWord
  ops  : List Handle
  draw : Bool
deriving DecidableEq, Repr

/-- An event of the access trace (20_memory.md R80). Values are recorded as numbers (log 16). -/
inductive Event where
  | rdReg (i : Fin 16) (k : View)
  | rdVec (j : Fin 16)
  | rdMem (addr n : Nat)
  | wrReg (i : Fin 16) (k : View) (v : Nat)
  | wrVec (j : Fin 16) (v : Nat)
  | wrMem (addr n v : Nat)
  | wrFlags (f : FlagWrite)
  | fenceSL
  | noReorder
deriving DecidableEq, Repr

/-- The state of the machine: what is fixed for the context (00_scope.md R8), the block's `MachineState`, the calls the driver has still to make,
in order (70_reset_and_hazards.md R363), and the trace of the run so far, oldest event first (20_memory.md R80, R81). -/
structure State where
  ctx   : Context
  mach  : MachineState
  calls : List Call
  trace : List Event
deriving DecidableEq, Repr

/-- The causes of the error hook (60_exceptions.md R330). -/
inductive DivideCause where
  | byZero
  | overflow
deriving DecidableEq, Repr

/-- The code of a cause (60_exceptions.md R330). -/
def DivideCause.code : DivideCause → Nat
  | .byZero => 1
  | .overflow => 2

/-- Why a step stops without a next state, other than by a refusal. -/
inductive Fault where
  /-- The block's runtime fault (60_exceptions.md R330 to R335), raised by DIV and IDIV only: what the error hook receives, the cause and the
  `MachineState` as it was before the call. The host's handling is not the block's, so the run has no next state (safe). -/
  | divideError (cause : DivideCause) (hook : MachineState)
  /-- `Stuck(MemNotAdmitted)` (20_memory.md R75), by any row with a memory operand whose access the environment does not admit. It is no fault of the
  block and no hook is invoked (60_exceptions.md R331, R337); the machine has no step from there, and this is that stuck state's name (safe). -/
  | memNotAdmitted
deriving DecidableEq, Repr

/-- Why a call has no meaning. A refusal changes no state and raises no fault (60_exceptions.md R337). -/
inductive Refusal where
  /-- An instruction that has no meaning in this model yet, rejected by name in `exec` (safe). No arm uses it. -/
  | notModelled (mnemonic : String)
  /-- `Refuse(Unlisted)`: the control word selects no row (30_encoding.md R113), by `step` (safe). -/
  | unlisted
  /-- `Refuse(ModeInapplicable)`: a 64-bit row without `MODE64` (30_encoding.md R112), by every such row (safe). -/
  | modeInapplicable
  /-- `Refuse(OperandMismatch)`: an operand handle does not fit its slot (30_encoding.md R110), by every row (safe). -/
  | operandMismatch
  /-- No call is left: the run has completed and its final state is this one (70_reset_and_hazards.md R363), by `step` (safe: log 13). -/
  | runEnded
deriving DecidableEq, Repr

/-- The outcome of one operation (10_state.md R46). -/
abbrev Result := Host.Outcome State Fault Refusal

/-- Every flag at instantiation: an `InitState` that gives no flag leaves each of them `U` (10_state.md R48). -/
def Flags.unset : Flags := ⟨.u, .u, .u, .u, .u, .u⟩

/-- The machine right after reset (70_reset_and_hazards.md R360, 10_state.md R48): flags `U`, memory with no byte given, no call and no event.
DESIGN CHOICE, unsafe: registers 0 (log 7), `MODE64` true and `VLEN` 128 (log 4), nothing denied (log 6); the spec leaves them open. -/
def State.reset : State where
  ctx := ⟨true, .v128, []⟩
  mach := ⟨Vector.replicate 16 0, Flags.unset, Vector.replicate 16 0, []⟩
  calls := []
  trace := []

end Sys2Proof.Machine
end

