-- ==== Sys2Proof/Machine/Flags.lean ====
section
/-! DEFINITION. The flag algebra of 40_flag_algebra.md: every flag function once, and the recipes of R153. -/

namespace Sys2Proof.Machine

/-- A computed flag as a flag value. -/
def FlagVal.ofBool (b : Bool) : FlagVal := if b then .one else .zero

/-- A flag write applied to one flag: `none` leaves it as it is, a `U` included (00_scope.md R11). -/
def FlagVal.write (old : FlagVal) : Option FlagVal → FlagVal
  | some v => v
  | none => old

/-- The flag writes of an operation applied to the flag set (10_state.md R38). -/
def FlagWrite.apply (f : FlagWrite) (old : Flags) : Flags where
  CF := old.CF.write f.CF
  PF := old.PF.write f.PF
  AF := old.AF.write f.AF
  ZF := old.ZF.write f.ZF
  SF := old.SF.write f.SF
  OF := old.OF.write f.OF

/-- No flag is written. -/
def FlagWrite.nothing : FlagWrite := ⟨none, none, none, none, none, none⟩

/-- Whether at least one flag is written (30_encoding.md R120 step 8). -/
def FlagWrite.writesAny (f : FlagWrite) : Bool := decide (f ≠ FlagWrite.nothing)

/-- `ZF_W(r)` (40_flag_algebra.md R141). -/
def zeroFlag {n : Nat} (r : BitVec n) : Bool := decide (r.toNat = 0)

/-- `SF_W(r)` (40_flag_algebra.md R142). -/
def signFlag {n : Nat} (r : BitVec n) : Bool := r.msb

/-- The number of 1 bits in r[7:0]. -/
def lowOnes {n : Nat} (r : BitVec n) : Nat := (List.range 8).countP fun k => r.getLsbD k

/-- `PF(r)` (40_flag_algebra.md R143). -/
def parityFlag {n : Nat} (r : BitVec n) : Bool := decide (lowOnes r % 2 = 0)

/-- `AF(a, b, r)` (40_flag_algebra.md R144). -/
def auxFlag {n : Nat} (a b r : BitVec n) : Bool := (a ^^^ b ^^^ r).getLsbD 4

/-- `CF_add_W(a, b)` (40_flag_algebra.md R145). -/
def addCarry {n : Nat} (a b : BitVec n) : Bool := decide (2 ^ n ≤ a.toNat + b.toNat)

/-- `CF_sub_W(a, b)` (40_flag_algebra.md R146). -/
def subBorrow {n : Nat} (a b : BitVec n) : Bool := decide (a.toNat < b.toNat)

/-- Whether an integer is outside the range of `sint_n` (00_scope.md R10). -/
def outsideSigned (n : Nat) (x : Int) : Bool := decide (x < -(2 ^ (n - 1)) ∨ 2 ^ (n - 1) ≤ x)

/-- `OF_add_W` by its definition, with carry-in c (40_flag_algebra.md R147). -/
def addOverflow {n : Nat} (a b : BitVec n) (c : Bool) : Bool := outsideSigned n (a.toInt + b.toInt + c.toNat)

/-- `OF_sub_W` by its definition, with borrow-in c (40_flag_algebra.md R148). -/
def subOverflow {n : Nat} (a b : BitVec n) (c : Bool) : Bool := outsideSigned n (a.toInt - b.toInt - c.toNat)

/-- A carry-in as a W-bit value. -/
def carryBits (n : Nat) (c : Bool) : BitVec n := BitVec.ofNat n c.toNat

/-- `CF_adc_W(a, b, cin)`, in two stages (40_flag_algebra.md R149). -/
def adcCarry {n : Nat} (a b : BitVec n) (c : Bool) : Bool := addCarry a b || addCarry (a + b) (carryBits n c)

/-- `CF_sbb_W(a, b, cin)`, in two stages (40_flag_algebra.md R150). -/
def sbbBorrow {n : Nat} (a b : BitVec n) (c : Bool) : Bool := subBorrow a b || subBorrow (a - b) (carryBits n c)

/-- `LOST_u_W(p)` of an exact unsigned product (40_flag_algebra.md R151). -/
def lostUnsigned (n : Nat) (p : Nat) : Bool := decide (2 ^ n ≤ p)

/-- `LOST_s_W(p)` of an exact signed product (40_flag_algebra.md R151). -/
def lostSigned (n : Nat) (p : Int) : Bool := decide ((BitVec.ofInt n p).toInt ≠ p)

/-- The recipe shared by the arithmetic rows of 40_flag_algebra.md R153: PF, ZF and SF from r; CF, AF and OF as given. -/
def arithRecipe {n : Nat} (cf : Option Bool) (af : Bool) (of : Bool) (r : BitVec n) : FlagWrite where
  CF := cf.map FlagVal.ofBool
  PF := some (.ofBool (parityFlag r))
  AF := some (.ofBool af)
  ZF := some (.ofBool (zeroFlag r))
  SF := some (.ofBool (signFlag r))
  OF := some (.ofBool of)

/-- ADD, XADD (40_flag_algebra.md R153). -/
def addRecipe {n : Nat} (a b r : BitVec n) : FlagWrite :=
  arithRecipe (some (addCarry a b)) (auxFlag a b r) (addOverflow a b false) r

/-- ADC (40_flag_algebra.md R153). -/
def adcRecipe {n : Nat} (a b : BitVec n) (c : Bool) (r : BitVec n) : FlagWrite :=
  arithRecipe (some (adcCarry a b c)) (auxFlag a b r) (addOverflow a b c) r

/-- SUB, CMP (40_flag_algebra.md R153). -/
def subRecipe {n : Nat} (a b r : BitVec n) : FlagWrite :=
  arithRecipe (some (subBorrow a b)) (auxFlag a b r) (subOverflow a b false) r

/-- SBB (40_flag_algebra.md R153). -/
def sbbRecipe {n : Nat} (a b : BitVec n) (c : Bool) (r : BitVec n) : FlagWrite :=
  arithRecipe (some (sbbBorrow a b c)) (auxFlag a b r) (subOverflow a b c) r

/-- INC: CF unchanged (40_flag_algebra.md R153). -/
def incRecipe {n : Nat} (a r : BitVec n) : FlagWrite :=
  arithRecipe none (auxFlag a 1 r) (addOverflow a 1 false) r

/-- DEC: CF unchanged (40_flag_algebra.md R153). -/
def decRecipe {n : Nat} (a r : BitVec n) : FlagWrite :=
  arithRecipe none (auxFlag a 1 r) (subOverflow a 1 false) r

/-- NEG: CF is `a ≠ 0` (40_flag_algebra.md R152, R153). -/
def negRecipe {n : Nat} (a r : BitVec n) : FlagWrite :=
  arithRecipe (some (decide (a.toNat ≠ 0))) (auxFlag 0 a r) (subOverflow 0 a false) r

/-- MUL (40_flag_algebra.md R153). -/
def mulRecipe (n : Nat) (p : Nat) : FlagWrite where
  CF := some (.ofBool (lostUnsigned n p))
  PF := some .u
  AF := some .u
  ZF := some .u
  SF := some .u
  OF := some (.ofBool (lostUnsigned n p))

/-- IMUL, all forms (40_flag_algebra.md R153). -/
def imulRecipe (n : Nat) (p : Int) : FlagWrite where
  CF := some (.ofBool (lostSigned n p))
  PF := some .u
  AF := some .u
  ZF := some .u
  SF := some (.ofBool (signFlag (BitVec.ofInt n p)))
  OF := some (.ofBool (lostSigned n p))

/-- DIV, IDIV on success: all six `U` (40_flag_algebra.md R153). -/
def divRecipe : FlagWrite := ⟨some .u, some .u, some .u, some .u, some .u, some .u⟩

/-- AND, OR, XOR, TEST (40_flag_algebra.md R153). -/
def logicRecipe {n : Nat} (r : BitVec n) : FlagWrite where
  CF := some .zero
  PF := some (.ofBool (parityFlag r))
  AF := some .u
  ZF := some (.ofBool (zeroFlag r))
  SF := some (.ofBool (signFlag r))
  OF := some .zero

/-- PAND, POR, PXOR, PANDN: all six 0, whatever the result (40_flag_algebra.md R153). -/
def packedRecipe : FlagWrite := ⟨some .zero, some .zero, some .zero, some .zero, some .zero, some .zero⟩

/-- PTEST (40_flag_algebra.md R153, 44_logical.md R281). -/
def ptestRecipe {n : Nat} (a b : BitVec n) : FlagWrite where
  CF := some (.ofBool (decide (~~~a &&& b = 0)))
  PF := some .zero
  AF := some .zero
  ZF := some (.ofBool (decide (a &&& b = 0)))
  SF := some .zero
  OF := some .zero

/-- SHL, SHR, SAR by count class (45_shift.md R301), for masked count c: class A writes nothing; B writes CF and OF as given; C writes CF as
given and OF `U`; D writes both `U`. ZF, SF and PF follow r and AF is `U` in classes B to D. -/
def shiftRecipe {n : Nat} (c : Nat) (cf of : Bool) (r : BitVec n) : FlagWrite :=
  if c = 0 then FlagWrite.nothing
  else
    { CF := some (if c < n then .ofBool cf else .u)
      PF := some (.ofBool (parityFlag r))
      AF := some .u
      ZF := some (.ofBool (zeroFlag r))
      SF := some (.ofBool (signFlag r))
      OF := some (if c = 1 then .ofBool of else .u) }

end Sys2Proof.Machine
end

