-- ==== Sys2Proof/Machine/Ops.lean ====
section
/-! DEFINITION. The operations every meaning is written with: reading and writing operands (00_scope.md R14), the checks before an operation (30_encoding.md R120
steps 2 to 4), carrying its writes, flags and events out (steps 5 to 9), and raising the block's fault (60_exceptions.md R334, R335). -/

namespace Sys2Proof.Machine

/-- The operand handles of the call the driver makes now. -/
def State.handles (s : State) : List Handle :=
  match s.calls with
  | c :: _ => c.ops
  | [] => []

/-- Explicit operand slot k of the present call, counted from 0. The filler where there is no such handle is never reached: a row that
runs has handles that fit its slots. -/
def State.operand (s : State) (k : Nat) : Handle := s.handles.getD k (.imm 0 0)

/-- The first explicit operand. -/
def State.op1 (s : State) : Handle := s.operand 0

/-- The second explicit operand. -/
def State.op2 (s : State) : Handle := s.operand 1

/-- The third explicit operand. -/
def State.op3 (s : State) : Handle := s.operand 2

/-- The draw of the present call: the free input `Draw()` (00_scope.md R15, 10_state.md R46). -/
def State.draw (s : State) : Bool :=
  match s.calls with
  | c :: _ => c.draw
  | [] => Config.freeDraw s.trace.length

/-- `ReadOp(o)` as an n-bit value (00_scope.md R14). A handle that fits its slot has exactly the slot's width. -/
def readOp (c : Context) (m : MachineState) (n : Nat) : Handle → BitVec n
  | .reg i k => (rdView m.gpr[i] k).setWidth n
  | .vec j => (m.vreg[j]).setWidth n
  | .mem addr bytes => BitVec.ofNat n (m.mem.read c.xlen addr.toNat bytes)
  | .imm _ v => v.setWidth n

/-- `ReadOp(o)` in a state. -/
def State.read (s : State) (n : Nat) (h : Handle) : BitVec n := readOp s.ctx s.mach n h

/-- One destination write: the destination and the value. -/
structure Put where
  dst  : Handle
  bits : Nat
  val  : BitVec bits
deriving DecidableEq, Repr

/-- `WriteOp(o, v)` (00_scope.md R14). An immediate is never written. -/
def writeOp (c : Context) (m : MachineState) (p : Put) : MachineState :=
  match p.dst with
  | .reg i k => { m with gpr := m.gpr.set i (wrView m.gpr[i] k (p.val.setWidth k.bits)) }
  | .vec j => { m with vreg := m.vreg.set j (p.val.setWidth 256) }
  | .mem addr bytes => { m with mem := m.mem.write c.xlen addr.toNat p.val bytes }
  | .imm _ _ => m

/-- Destination writes in the rule's order: the later one wins (30_encoding.md R111). -/
def writeOps (c : Context) (m : MachineState) (ps : List Put) : MachineState := ps.foldl (writeOp c) m

/-- The trace event of reading an operand; an immediate makes none (20_memory.md R80). -/
def readEvent : Handle → List Event
  | .reg i k => [.rdReg i k]
  | .vec j => [.rdVec j]
  | .mem addr n => [.rdMem addr.toNat n]
  | .imm _ _ => []

/-- The trace event of writing a destination (20_memory.md R80). -/
def writeEvent (p : Put) : List Event :=
  match p.dst with
  | .reg i k => [.wrReg i k p.val.toNat]
  | .vec j => [.wrVec j p.val.toNat]
  | .mem addr n => [.wrMem addr.toNat n p.val.toNat]
  | .imm _ _ => []

/-- Whether the environment admits every memory access that an operand's handle and access ask for (20_memory.md R75). -/
def admitsOperand (c : Context) (m : Memory) (h : Handle) (a : Access) : Bool :=
  match h with
  | .mem addr n =>
    (!a.reads || memAdmit c m addr.toNat n .read) && (!a.writes || memAdmit c m addr.toNat n .write)
  | .reg _ _ | .vec _ | .imm _ _ => true

/-- The same for a row's operands, slot by slot. -/
def admitsOperands (c : Context) (m : Memory) : List Handle → List Access → Bool
  | h :: hs, a :: as => admitsOperand c m h a && admitsOperands c m hs as
  | [], _ => true
  | _ :: _, [] => true

/-- Step 4 of 30_encoding.md R120 for row i. -/
def State.admits (s : State) (i : Instr) : Bool := admitsOperands s.ctx s.mach.mem s.handles i.accesses

/-- Row i passes steps 2 to 4 of 30_encoding.md R120: it exists in this mode, the present call's handles fit, and every memory access is admitted. -/
def State.ready (s : State) (i : Instr) : Bool :=
  i.available s.ctx && i.operandsFit s.ctx s.handles && s.admits i

/-- Steps 2 to 4 of 30_encoding.md R120 in their order (60_exceptions.md R332), then the body. -/
def perform (i : Instr) (s : State) (body : Result) : Result :=
  if i.available s.ctx = false then .refused .modeInapplicable
  else if i.operandsFit s.ctx s.handles = false then .refused .operandMismatch
  else if s.admits i = false then .fault .memNotAdmitted
  else body

/-- The marker and the flag events of an operation with these writes (30_encoding.md R120 steps 8 and 9, 20_memory.md R83). -/
def flagEvents (ps : List Put) (f : FlagWrite) : List Event :=
  (if ps ≠ [] ∧ f.writesAny = true then [.noReorder] else [])
    ++ (if f.writesAny = true then [.wrFlags f] else [])

/-- The machine after destination writes and then flag writes (30_encoding.md R120 steps 7 and 9). -/
def settle (c : Context) (m : MachineState) (ps : List Put) (f : FlagWrite) : MachineState :=
  { writeOps c m ps with flags := f.apply m.flags }

/-- Steps 5 and 7 to 10 of 30_encoding.md R120: the operands read, in order, the destination writes, in order, then the flag writes. -/
def State.commit (s : State) (reads : List Handle) (ps : List Put) (f : FlagWrite) : State :=
  { s with
    mach := settle s.ctx s.mach ps f
    trace := s.trace ++ (reads.flatMap readEvent ++ ps.flatMap writeEvent ++ flagEvents ps f) }

/-- `raise DivideError(cause)` (00_scope.md R15): the hook receives the cause and the unmodified `MachineState` (60_exceptions.md R334), no
handler is entered, and the step has no next state (R335). The block has no return from it (R336). -/
def raiseDivideError (cause : DivideCause) (s : State) : Result := .fault (.divideError cause s.mach)

/-- A row that writes op1 with a function of op1 and op2, both n bits wide. -/
def binaryOp (i : Instr) (n : Nat) (f : BitVec n → BitVec n → BitVec n × FlagWrite) (s : State) : Result :=
  let r := f (s.read n s.op1) (s.read n s.op2)
  perform i s (.next (s.commit [s.op1, s.op2] [⟨s.op1, n, r.1⟩] r.2))

/-- A row that writes op1 with a function of op1. -/
def unaryOp (i : Instr) (n : Nat) (f : BitVec n → BitVec n × FlagWrite) (s : State) : Result :=
  let r := f (s.read n s.op1)
  perform i s (.next (s.commit [s.op1] [⟨s.op1, n, r.1⟩] r.2))

/-- A row that writes flags only, from op1 and op2. -/
def compareOp (i : Instr) (n : Nat) (f : BitVec n → BitVec n → FlagWrite) (s : State) : Result :=
  perform i s (.next (s.commit [s.op1, s.op2] [] (f (s.read n s.op1) (s.read n s.op2))))

/-- The carry-in of ADC and SBB: CF, or `Draw()` where CF is `U` (10_state.md R40). -/
def State.carryIn (s : State) : Bool :=
  match s.mach.flags.CF with
  | .zero => false
  | .one => true
  | .u => s.draw

end Sys2Proof.Machine
end

