-- ==== Sys2Proof/Machine/Arithmetic.lean ====
section
/-! DEFINITION. ADD, ADC, SUB, SBB, CMP, INC, DEC and NEG (41_arithmetic.md). -/

namespace Sys2Proof.Machine

/-- ADD (41_arithmetic.md R171). -/
def execAdd (sh : BinaryShape) (w : Width) (s : State) : Result :=
  binaryOp (.add sh w) w.bits (fun a b => (a + b, addRecipe a b (a + b))) s

/-- ADC (41_arithmetic.md R172), in two stages. -/
def execAdc (sh : BinaryShape) (w : Width) (s : State) : Result :=
  let cin := s.carryIn
  binaryOp (.adc sh w) w.bits
    (fun a b => (a + b + carryBits w.bits cin, adcRecipe a b cin (a + b + carryBits w.bits cin))) s

/-- SUB (41_arithmetic.md R173). -/
def execSub (sh : BinaryShape) (w : Width) (s : State) : Result :=
  binaryOp (.sub sh w) w.bits (fun a b => (a - b, subRecipe a b (a - b))) s

/-- SBB (41_arithmetic.md R174), in two stages. -/
def execSbb (sh : BinaryShape) (w : Width) (s : State) : Result :=
  let cin := s.carryIn
  binaryOp (.sbb sh w) w.bits
    (fun a b => (a - b - carryBits w.bits cin, sbbRecipe a b cin (a - b - carryBits w.bits cin))) s

/-- CMP: SUB's flags, nothing written (41_arithmetic.md R175). -/
def execCmp (sh : BinaryShape) (w : Width) (s : State) : Result :=
  compareOp (.cmp sh w) w.bits (fun a b => subRecipe a b (a - b)) s

/-- INC (41_arithmetic.md R176). -/
def execInc (sh : UnaryShape) (w : Width) (s : State) : Result :=
  unaryOp (.inc sh w) w.bits (fun a => (a + 1, incRecipe a (a + 1))) s

/-- DEC (41_arithmetic.md R177). -/
def execDec (sh : UnaryShape) (w : Width) (s : State) : Result :=
  unaryOp (.dec sh w) w.bits (fun a => (a - 1, decRecipe a (a - 1))) s

/-- NEG: `0 - src` (41_arithmetic.md R178). -/
def execNeg (sh : UnaryShape) (w : Width) (s : State) : Result :=
  unaryOp (.neg sh w) w.bits (fun a => (0 - a, negRecipe a (0 - a))) s

end Sys2Proof.Machine
end

