-- ==== Sys2Proof/Machine/Exchange.lean ====
section
/-! DEFINITION. XADD, the atomic exchange-add (42_atomic_xadd.md). -/

namespace Sys2Proof.Machine

/-- The events of XADD in the order of 42_atomic_xadd.md R213: a full barrier, the reads, the sum's write, a barrier, the exchanged value's write, a
barrier, then the marker and the flags. -/
def xaddEvents (op1 op2 : Handle) (n : Nat) (sum old : BitVec n) (f : FlagWrite) : List Event :=
  [.fenceSL] ++ readEvent op1 ++ readEvent op2 ++ writeEvent ⟨op1, n, sum⟩ ++ [.fenceSL]
    ++ writeEvent ⟨op2, n, old⟩ ++ [.fenceSL, .noReorder, .wrFlags f]

/-- XADD (42_atomic_xadd.md R211): the sum goes to op1, then op1's old value to op2, so a register named twice keeps its value (R214). Its read and its
write of memory are one step of the machine, so nothing falls between them (R212). -/
def execXadd (sh : ExchangeShape) (w : Width) (s : State) : Result :=
  let n := w.bits
  let a := s.read n s.op1
  let b := s.read n s.op2
  let f := addRecipe a b (a + b)
  perform (.xadd sh w) s
    (.next { s with
      mach := settle s.ctx s.mach [⟨s.op1, n, a + b⟩, ⟨s.op2, n, a⟩] f
      trace := s.trace ++ xaddEvents s.op1 s.op2 n (a + b) a f })

end Sys2Proof.Machine
end

