-- ==== Sys2Proof/Machine/Logical.lean ====
section
/-! DEFINITION. AND, OR, XOR, TEST, NOT and the packed PAND, POR, PXOR, PANDN, PTEST (44_logical.md). -/

namespace Sys2Proof.Machine

/-- AND (44_logical.md R271). -/
def execAnd (sh : BinaryShape) (w : Width) (s : State) : Result :=
  binaryOp (.and sh w) w.bits (fun a b => (a &&& b, logicRecipe (a &&& b))) s

/-- OR (44_logical.md R272). -/
def execOr (sh : BinaryShape) (w : Width) (s : State) : Result :=
  binaryOp (.or sh w) w.bits (fun a b => (a ||| b, logicRecipe (a ||| b))) s

/-- XOR (44_logical.md R273). -/
def execXor (sh : BinaryShape) (w : Width) (s : State) : Result :=
  binaryOp (.xor sh w) w.bits (fun a b => (a ^^^ b, logicRecipe (a ^^^ b))) s

/-- TEST: AND's flags, nothing written (44_logical.md R274). -/
def execTest (sh : NoRmShape) (w : Width) (s : State) : Result :=
  compareOp (.test sh w) w.bits (fun a b => logicRecipe (a &&& b)) s

/-- NOT: no flag written (44_logical.md R275). -/
def execNot (sh : UnaryShape) (w : Width) (s : State) : Result :=
  unaryOp (.not sh w) w.bits (fun a => (~~~a, FlagWrite.nothing)) s

/-- PAND (44_logical.md R277). -/
def execPand (sh : PackedShape) (s : State) : Result :=
  binaryOp (.pand sh) s.ctx.vlen.bits (fun a b => (a &&& b, packedRecipe)) s

/-- POR (44_logical.md R278). -/
def execPor (sh : PackedShape) (s : State) : Result :=
  binaryOp (.por sh) s.ctx.vlen.bits (fun a b => (a ||| b, packedRecipe)) s

/-- PXOR (44_logical.md R279). -/
def execPxor (sh : PackedShape) (s : State) : Result :=
  binaryOp (.pxor sh) s.ctx.vlen.bits (fun a b => (a ^^^ b, packedRecipe)) s

/-- PANDN: op1 is the complemented operand (44_logical.md R280). -/
def execPandn (sh : PackedShape) (s : State) : Result :=
  binaryOp (.pandn sh) s.ctx.vlen.bits (fun a b => (~~~a &&& b, packedRecipe)) s

/-- PTEST: flags only (44_logical.md R281). -/
def execPtest (sh : PackedShape) (s : State) : Result :=
  compareOp (.ptest sh) s.ctx.vlen.bits (fun a b => ptestRecipe a b) s

end Sys2Proof.Machine
end

