-- ==== Sys2Proof/Machine/MulDiv.lean ====
section
/-! DEFINITION. MUL, IMUL with 1, 2 and 3 operands, DIV and IDIV (43_multiply_divide.md). Products, quotients and remainders are computed on unbounded
integers (R230), and the divide faults are decided before any write (R237). -/

namespace Sys2Proof.Machine

/-- The 8-bit multiply (43_multiply_divide.md R231, R233): the explicit multiplier, then AL, are read; AX receives the 16-bit product. -/
def multiplyAx (i : Instr) (product : BitVec 16) (f : FlagWrite) (s : State) : Result :=
  perform i s (.next (s.commit [s.op1, alHandle] [⟨axHandle, 16, product⟩] f))

/-- The split multiply (43_multiply_divide.md R232, R234): the multiplier, then `ACC_W`, are read; `ACC_W` receives the low half, then `HI_W` the high half. -/
def multiplySplit (i : Instr) (w : WideWidth) (lo hi : BitVec w.width.bits) (f : FlagWrite) (s : State) : Result :=
  perform i s
    (.next (s.commit [s.op1, accHandle w.width]
      [⟨accHandle w.width, w.width.bits, lo⟩, ⟨hiHandle w, w.width.bits, hi⟩] f))

/-- MUL, W = 8 (43_multiply_divide.md R231). -/
def mulAx (i : Instr) (s : State) : Result :=
  let p := (s.read 8 alHandle).toNat * (s.read 8 s.op1).toNat
  multiplyAx i (BitVec.ofNat 16 p) (mulRecipe 8 p) s

/-- MUL, W = 16, 32, 64 (43_multiply_divide.md R232). -/
def mulSplit (i : Instr) (w : WideWidth) (s : State) : Result :=
  let n := w.width.bits
  let p := (s.read n (accHandle w.width)).toNat * (s.read n s.op1).toNat
  multiplySplit i w (BitVec.ofNat n p) (BitVec.ofNat n (p / 2 ^ n)) (mulRecipe n p) s

/-- MUL (43_multiply_divide.md R231, R232; 30_encoding.md R107). -/
def execMul (sh : UnaryShape) (w : Width) (s : State) : Result :=
  match w with
  | .w8 => mulAx (.mul sh .w8) s
  | .w16 => mulSplit (.mul sh .w16) .w16 s
  | .w32 => mulSplit (.mul sh .w32) .w32 s
  | .w64 => mulSplit (.mul sh .w64) .w64 s

/-- IMUL 1-operand, W = 8 (43_multiply_divide.md R233). -/
def imulAx (i : Instr) (s : State) : Result :=
  let p := (s.read 8 alHandle).toInt * (s.read 8 s.op1).toInt
  multiplyAx i (BitVec.ofInt 16 p) (imulRecipe 8 p) s

/-- IMUL 1-operand, W = 16, 32, 64 (43_multiply_divide.md R234): the high half is floor(p / 2^W). -/
def imulSplit (i : Instr) (w : WideWidth) (s : State) : Result :=
  let n := w.width.bits
  let p := (s.read n (accHandle w.width)).toInt * (s.read n s.op1).toInt
  multiplySplit i w (BitVec.ofInt n p) (BitVec.ofInt n (p.fdiv (2 ^ n))) (imulRecipe n p) s

/-- IMUL 1-operand (43_multiply_divide.md R233, R234). -/
def execImul1 (sh : UnaryShape) (w : Width) (s : State) : Result :=
  match w with
  | .w8 => imulAx (.imul1 sh .w8) s
  | .w16 => imulSplit (.imul1 sh .w16) .w16 s
  | .w32 => imulSplit (.imul1 sh .w32) .w32 s
  | .w64 => imulSplit (.imul1 sh .w64) .w64 s

/-- IMUL 2-operand, truncating (43_multiply_divide.md R235). -/
def execImul2 (sh : RegSrcShape) (w : WideWidth) (s : State) : Result :=
  binaryOp (.imul2 sh w) w.width.bits
    (fun a b => (BitVec.ofInt w.width.bits (a.toInt * b.toInt), imulRecipe w.width.bits (a.toInt * b.toInt))) s

/-- IMUL 3-operand, truncating (43_multiply_divide.md R236): op1 is written and not read. -/
def execImul3 (sh : ImmSrcShape) (w : WideWidth) (s : State) : Result :=
  let n := w.width.bits
  let p := (s.read n s.op2).toInt * (s.read n s.op3).toInt
  perform (.imul3 sh w) s (.next (s.commit [s.op2, s.op3] [⟨s.op1, n, BitVec.ofInt n p⟩] (imulRecipe n p)))

/-- The dividend of the 8-bit forms: AX (43_multiply_divide.md R238, R240). -/
def State.dividendAx (s : State) : BitVec 16 := s.read 16 axHandle

/-- The dividend of the split forms: `HI_W : ACC_W` (43_multiply_divide.md R239, R241). -/
def State.dividendSplit (s : State) (w : WideWidth) : BitVec (w.width.bits + w.width.bits) :=
  s.read w.width.bits (hiHandle w) ++ s.read w.width.bits (accHandle w.width)

/-- A successful 8-bit divide: the divisor, then AX, are read; AL receives the quotient, then AH the remainder (43_multiply_divide.md R238, R240). -/
def divideAx (q r : BitVec 8) (s : State) : State :=
  s.commit [s.op1, axHandle] [⟨alHandle, 8, q⟩, ⟨ahHandle, 8, r⟩] divRecipe

/-- A successful split divide: the divisor, then `HI_W` and `ACC_W`, are read; `ACC_W` receives the quotient, then `HI_W` the remainder
(43_multiply_divide.md R239, R241). -/
def divideSplit (w : WideWidth) (q r : BitVec w.width.bits) (s : State) : State :=
  s.commit [s.op1, hiHandle w, accHandle w.width]
    [⟨accHandle w.width, w.width.bits, q⟩, ⟨hiHandle w, w.width.bits, r⟩] divRecipe

/-- DIV of n by d into W bits: the fault, or quotient and remainder (43_multiply_divide.md R237). -/
def divUnsigned (bits n d : Nat) : Except DivideCause (Nat × Nat) :=
  if d = 0 then .error .byZero
  else if 2 ^ bits ≤ n / d then .error .overflow
  else .ok (n / d, n - n / d * d)

/-- IDIV of n by d into W bits, rounding toward zero: the fault, or quotient and remainder (43_multiply_divide.md R237). -/
def divSigned (bits : Nat) (n d : Int) : Except DivideCause (Int × Int) :=
  if d = 0 then .error .byZero
  else if outsideSigned bits (n.tdiv d) = true then .error .overflow
  else .ok (n.tdiv d, n - n.tdiv d * d)

/-- DIV, W = 8 (43_multiply_divide.md R238). -/
def divAx (i : Instr) (s : State) : Result :=
  perform i s <|
    match divUnsigned 8 s.dividendAx.toNat (s.read 8 s.op1).toNat with
    | .error c => raiseDivideError c s
    | .ok (q, r) => .next (divideAx (BitVec.ofNat 8 q) (BitVec.ofNat 8 r) s)

/-- DIV, W = 16, 32, 64 (43_multiply_divide.md R239). -/
def divSplit (i : Instr) (w : WideWidth) (s : State) : Result :=
  perform i s <|
    match divUnsigned w.width.bits (s.dividendSplit w).toNat (s.read w.width.bits s.op1).toNat with
    | .error c => raiseDivideError c s
    | .ok (q, r) => .next (divideSplit w (BitVec.ofNat _ q) (BitVec.ofNat _ r) s)

/-- DIV (43_multiply_divide.md R238, R239). -/
def execDiv (sh : UnaryShape) (w : Width) (s : State) : Result :=
  match w with
  | .w8 => divAx (.div sh .w8) s
  | .w16 => divSplit (.div sh .w16) .w16 s
  | .w32 => divSplit (.div sh .w32) .w32 s
  | .w64 => divSplit (.div sh .w64) .w64 s

/-- IDIV, W = 8 (43_multiply_divide.md R240). -/
def idivAx (i : Instr) (s : State) : Result :=
  perform i s <|
    match divSigned 8 s.dividendAx.toInt (s.read 8 s.op1).toInt with
    | .error c => raiseDivideError c s
    | .ok (q, r) => .next (divideAx (BitVec.ofInt 8 q) (BitVec.ofInt 8 r) s)

/-- IDIV, W = 16, 32, 64 (43_multiply_divide.md R241). -/
def idivSplit (i : Instr) (w : WideWidth) (s : State) : Result :=
  perform i s <|
    match divSigned w.width.bits (s.dividendSplit w).toInt (s.read w.width.bits s.op1).toInt with
    | .error c => raiseDivideError c s
    | .ok (q, r) => .next (divideSplit w (BitVec.ofInt _ q) (BitVec.ofInt _ r) s)

/-- IDIV (43_multiply_divide.md R240, R241). -/
def execIdiv (sh : UnaryShape) (w : Width) (s : State) : Result :=
  match w with
  | .w8 => idivAx (.idiv sh .w8) s
  | .w16 => idivSplit (.idiv sh .w16) .w16 s
  | .w32 => idivSplit (.idiv sh .w32) .w32 s
  | .w64 => idivSplit (.idiv sh .w64) .w64 s

end Sys2Proof.Machine
end

