-- ==== Sys2Proof/Machine/Shift.lean ====
section
/-! DEFINITION. SHL, SHR and SAR (45_shift.md). -/

namespace Sys2Proof.Machine

/-- `ShiftMask(W)` (00_scope.md R8, 45_shift.md R300). -/
def shiftMask : Width → Nat
  | .w8 => 0x1F
  | .w16 => 0x1F
  | .w32 => 0x1F
  | .w64 => 0x3F

/-- The masked count (45_shift.md R300). -/
def maskedCount (w : Width) (count : BitVec 8) : Nat := count.toNat &&& shiftMask w

/-- SHL of v by masked count c (45_shift.md R302): CF is v[W-c], OF of count 1 is the change of the sign bit. -/
def shiftLeft {n : Nat} (v : BitVec n) (c : Nat) : BitVec n × FlagWrite :=
  let r := if c = 0 then v else if c < n then BitVec.ofNat n (v.toNat * 2 ^ c) else 0
  (r, shiftRecipe c (v.getLsbD (n - c)) (v.msb ^^ r.msb) r)

/-- SHR of v by masked count c (45_shift.md R303): CF is v[c-1], OF of count 1 is the original sign bit (90_conflicts.md C1). -/
def shiftRight {n : Nat} (v : BitVec n) (c : Nat) : BitVec n × FlagWrite :=
  let r := if c = 0 then v else if c < n then BitVec.ofNat n (v.toNat / 2 ^ c) else 0
  (r, shiftRecipe c (v.getLsbD (c - 1)) v.msb r)

/-- SAR of v by masked count c (45_shift.md R304): CF is v[c-1], OF of count 1 is 0. -/
def shiftArith {n : Nat} (v : BitVec n) (c : Nat) : BitVec n × FlagWrite :=
  let r := if c = 0 then v else if c < n then BitVec.ofInt n (v.toInt.fdiv (2 ^ c)) else if v.msb then BitVec.allOnes n else 0
  (r, shiftRecipe c (v.getLsbD (c - 1)) false r)

/-- A shift row (45_shift.md R300): op1 is the W-bit value, op2 the 8-bit count. Class A too writes op1, with its own value (R301). -/
def shiftOp (i : Instr) (w : Width) (f : BitVec w.bits → Nat → BitVec w.bits × FlagWrite) (s : State) : Result :=
  let r := f (s.read w.bits s.op1) (maskedCount w (s.read 8 s.op2))
  perform i s (.next (s.commit [s.op1, s.op2] [⟨s.op1, w.bits, r.1⟩] r.2))

/-- SHL (45_shift.md R302). -/
def execShl (sh : NoRmShape) (w : Width) (s : State) : Result := shiftOp (.shl sh w) w shiftLeft s

/-- SHR (45_shift.md R303). -/
def execShr (sh : NoRmShape) (w : Width) (s : State) : Result := shiftOp (.shr sh w) w shiftRight s

/-- SAR (45_shift.md R304). -/
def execSar (sh : NoRmShape) (w : Width) (s : State) : Result := shiftOp (.sar sh w) w shiftArith s

end Sys2Proof.Machine
end

