-- ==== Sys2Proof/Machine/Dispatch.lean ====
section
/-! DEFINITION. One arm for each operation of the selection table (30_encoding.md R103). -/

namespace Sys2Proof.Machine

/-- Row i run on the present call's operand handles: steps 2 to 10 of 30_encoding.md R120. -/
def exec (i : Instr) (s : State) : Host.Outcome State Fault Refusal :=
  match i with
  | .add sh w => Sys2Proof.Machine.execAdd sh w s
  | .adc sh w => Sys2Proof.Machine.execAdc sh w s
  | .sub sh w => Sys2Proof.Machine.execSub sh w s
  | .sbb sh w => Sys2Proof.Machine.execSbb sh w s
  | .cmp sh w => Sys2Proof.Machine.execCmp sh w s
  | .inc sh w => Sys2Proof.Machine.execInc sh w s
  | .dec sh w => Sys2Proof.Machine.execDec sh w s
  | .neg sh w => Sys2Proof.Machine.execNeg sh w s
  | .and sh w => Sys2Proof.Machine.execAnd sh w s
  | .or sh w => Sys2Proof.Machine.execOr sh w s
  | .xor sh w => Sys2Proof.Machine.execXor sh w s
  | .test sh w => Sys2Proof.Machine.execTest sh w s
  | .not sh w => Sys2Proof.Machine.execNot sh w s
  | .pand sh => Sys2Proof.Machine.execPand sh s
  | .por sh => Sys2Proof.Machine.execPor sh s
  | .pxor sh => Sys2Proof.Machine.execPxor sh s
  | .pandn sh => Sys2Proof.Machine.execPandn sh s
  | .ptest sh => Sys2Proof.Machine.execPtest sh s
  | .mul sh w => Sys2Proof.Machine.execMul sh w s
  | .imul1 sh w => Sys2Proof.Machine.execImul1 sh w s
  | .imul2 sh w => Sys2Proof.Machine.execImul2 sh w s
  | .imul3 sh w => Sys2Proof.Machine.execImul3 sh w s
  | .div sh w => Sys2Proof.Machine.execDiv sh w s
  | .idiv sh w => Sys2Proof.Machine.execIdiv sh w s
  | .shl sh w => Sys2Proof.Machine.execShl sh w s
  | .shr sh w => Sys2Proof.Machine.execShr sh w s
  | .sar sh w => Sys2Proof.Machine.execSar sh w s
  | .xadd sh w => Sys2Proof.Machine.execXadd sh w s

end Sys2Proof.Machine
end

