-- ==== Sys2Proof/Machine/Init.lean ====
section
/-! DEFINITION. Around the operations: going on to the next call, handing the machine a call, and instantiating a context from an `InitState` (10_state.md R48,
70_reset_and_hazards.md R360, R362). -/

namespace Sys2Proof.Machine

/-- After `Ok` the present call is done and its handles are discarded (10_state.md R44, 70_reset_and_hazards.md R362); after a fault, a refusal or a
stuck step nothing more happens. -/
def advance : Result → Result
  | .next s => .next { s with calls := s.calls.tail }
  | .fault f => .fault f
  | .refused r => .refused r

/-- A handle that fits a slot: register k, for the slot in place k, its view of the slot's width; memory at address 0; the immediate 0 (log 17). -/
def defaultHandle (k : Fin 16) : Slot → Handle
  | .reg bits => .reg k (if bits = 8 then .l8 else if bits = 16 then .x16 else if bits = 32 then .x32 else .x64)
  | .mem bytes => .mem 0 bytes
  | .imm bits => .imm bits 0
  | .vec => .vec k

/-- Handles for a list of slots, from place k on. -/
def defaultHandles (k : Fin 16) : List Slot → List Handle
  | [] => []
  | s :: ss => defaultHandle k s :: defaultHandles (k + 1) ss

/-- A value, 0, for each of the first n bytes of memory that has none (log 17). -/
def Memory.fill (m : Memory) : Nat → Memory
  | 0 => m
  | k + 1 =>
    let t := Memory.fill m k
    if (t.byteAt k).isSome then t else t.setByte k 0

/-- The bytes of the memory operand that a list of slots asks for; no shape has two (30_encoding.md R102). -/
def slotBytes : List Slot → Nat
  | [] => 0
  | .mem bytes :: ss => bytes + slotBytes ss
  | .reg _ :: ss => slotBytes ss
  | .imm _ :: ss => slotBytes ss
  | .vec :: ss => slotBytes ss

/-- s with a call of control word ctl put before the driver's other calls. Where the word selects row i, the call has handles that fit i, and the
bytes of its memory operand have values (log 17). The draw is one the model must supply itself (log 3). -/
def State.withCall (s : State) (i : Option Instr) (ctl : Nat) : State :=
  let slots := match i with
    | some i => i.slots s.ctx.vlen
    | none => []
  { s with
    mach := { s.mach with mem := s.mach.mem.fill (slotBytes slots) }
    calls := ⟨BitVec.ofNat 16 ctl, defaultHandles 0 slots, Config.freeDraw s.trace.length⟩ :: s.calls }

/-- `InitState` (00_scope.md R8): a value for every register, a value for the flags it gives, and the bytes of memory that have a value. -/
structure InitState where
  gpr  : Vector GprCell 16
  vreg : Vector VecCell 16
  CF   : Option Bool
  PF   : Option Bool
  AF   : Option Bool
  ZF   : Option Bool
  SF   : Option Bool
  OF   : Option Bool
  mem  : List Host.Cell
deriving DecidableEq, Repr

/-- A flag at instantiation: `U` where `InitState` does not give it (10_state.md R48). -/
def FlagVal.given : Option Bool → FlagVal
  | some b => FlagVal.ofBool b
  | none => .u

/-- Memory from the bytes of an `InitState`: each address once, in the `XLEN`-bit space (20_memory.md R70, R74). -/
def Memory.ofCells (xlen : Nat) : List Host.Cell → Memory
  | [] => []
  | (a, b) :: t => (Memory.ofCells xlen t).setByte (a % 2 ^ xlen) b

/-- An execution context as it is instantiated (70_reset_and_hazards.md R360 to R362): the parameters, the registers that exist in the mode with the
values that `InitState` gives, and the driver's calls. -/
def instantiate (c : Context) (init : InitState) (calls : List Call) : State where
  ctx := c
  mach :=
    { gpr := Vector.ofFn fun i : Fin 16 => if i.val < c.ngpr then (init.gpr[i].setWidth c.xlen).setWidth 64 else 0
      flags := ⟨.given init.CF, .given init.PF, .given init.AF, .given init.ZF, .given init.SF, .given init.OF⟩
      vreg := Vector.ofFn fun j : Fin 16 => if j.val < c.nvreg then (init.vreg[j].setWidth c.vlen.bits).setWidth 256 else 0
      mem := Memory.ofCells c.xlen init.mem }
  calls := calls
  trace := []

end Sys2Proof.Machine
end

