-- ==== Sys2Proof/Machine/Step.lean ====
section
/-! DEFINITION. One step of the machine: the driver's next call is made (70_reset_and_hazards.md R363). -/

namespace Sys2Proof.Machine

/-- One call of the driver's list (30_encoding.md R120): its control word is decoded, its row runs on its handles, and after `Ok`, and only then, the
driver goes on to the next call (10_state.md R44). With no call left the run has ended. -/
def step (s : State) : Host.Outcome State Fault Refusal :=
  match s.calls with
  | [] => .refused .runEnded
  | c :: _ =>
    match decode c.ctl with
    | .error _ => .refused .unlisted
    | .ok i => advance (exec i s)

/-- s with the row of a control word as the driver's next call, on handles that fit it and with a value for each byte of its memory operand
(log 17): the very next step runs that row. -/
def State.withFetchWord (s : State) (nbits w : Nat) : State := s.withCall (decodeTableWord nbits w) (w % 2 ^ nbits)

end Sys2Proof.Machine
end

