-- ==== Sys2Proof/Safety.lean ====
section
/-! DEFINITION. The terms that claims use: the invariant of the machine, what an operation leaves unchanged, what an access trace does when it is replayed, and
when a run completes. -/

namespace Sys2Proof.Machine

/-- The invariant: memory keeps its canonical form within the `XLEN`-bit space (20_memory.md R70), and what does not exist in the mode is zero: registers
from `NGPR` and bits from `XLEN` on (10_state.md R32), vector registers from `NVREG` and bits from `VLEN` on (R42). -/
abbrev State.Inv (s : State) : Prop :=
  s.mach.mem.wf ∧ (∀ c ∈ s.mach.mem, c.1 < 2 ^ s.ctx.xlen)
  ∧ (∀ i : Fin 16, s.ctx.ngpr ≤ i.val → s.mach.gpr[i] = 0)
  ∧ (∀ i : Fin 16, (s.mach.gpr[i]).toNat < 2 ^ s.ctx.xlen)
  ∧ (∀ j : Fin 16, s.ctx.nvreg ≤ j.val → s.mach.vreg[j] = 0)
  ∧ (∀ j : Fin 16, (s.mach.vreg[j]).toNat < 2 ^ s.ctx.vlen.bits)

/-- Whether a write of view k may change bit b of its register (10_state.md R33): narrow writes change their own bits only, wider ones all. -/
def viewChanges : View → Nat → Bool
  | .l8, b => b < 8
  | .h8, b => 8 ≤ b && b < 16
  | .x16, b => b < 16
  | .x32, _ => true
  | .x64, _ => true

/-- The addresses of a memory handle's bytes (20_memory.md R71); the other handles have none. -/
def handleBytes (xlen : Nat) : Handle → List Nat
  | .mem addr n => (List.range n).map (byteAddr xlen addr.toNat)
  | .reg _ _ => []
  | .vec _ => []
  | .imm _ _ => []

/-- The frame of an operation from s to t with destinations dsts: every bit of a general register that no destination covers, every vector register that is
none of them, every byte of memory outside them, the context and the driver's calls are as before (10_state.md R36, 20_memory.md R72). -/
def Frame (s t : State) (dsts : List Handle) : Prop :=
  (∀ (i : Fin 16) (b : Nat), (∀ k, Handle.reg i k ∈ dsts → viewChanges k b = false) →
      (t.mach.gpr[i]).getLsbD b = (s.mach.gpr[i]).getLsbD b)
  ∧ (∀ j : Fin 16, Handle.vec j ∉ dsts → t.mach.vreg[j] = s.mach.vreg[j])
  ∧ (∀ a : Nat, (∀ h ∈ dsts, a ∉ handleBytes s.ctx.xlen h) → t.mach.mem.byteAt a = s.mach.mem.byteAt a)
  ∧ t.ctx = s.ctx ∧ t.calls = s.calls

/-- Destination h holds r in t: it reads as r, and an `X32` destination is zero-extended to the whole register (10_state.md R33). -/
def Holds (t : State) (h : Handle) {n : Nat} (r : BitVec n) : Prop :=
  t.read n h = r ∧ ∀ i : Fin 16, h = .reg i .x32 → (t.mach.gpr[i]).toNat < 2 ^ 32

/-- What one event of the access trace does to the `MachineState` (20_memory.md R80): only writes do anything. -/
def replayEvent (c : Context) (m : MachineState) : Event → MachineState
  | .wrReg i k v => { m with gpr := m.gpr.set i (wrView m.gpr[i] k (BitVec.ofNat k.bits v)) }
  | .wrVec j v => { m with vreg := m.vreg.set j (BitVec.ofNat 256 v) }
  | .wrMem addr n v => { m with mem := m.mem.write c.xlen addr (BitVec.ofNat (8 * n) v) n }
  | .wrFlags f => { m with flags := f.apply m.flags }
  | .rdReg _ _ => m
  | .rdVec _ => m
  | .rdMem _ _ => m
  | .fenceSL => m
  | .noReorder => m

/-- The events of a trace in order (20_memory.md R81). -/
def replay (c : Context) (m : MachineState) (evs : List Event) : MachineState := evs.foldl (replayEvent c) m

/-- Whether an event is a read of an operand. -/
def Event.isRead : Event → Bool
  | .rdReg _ _ => true
  | .rdVec _ => true
  | .rdMem _ _ => true
  | .wrReg _ _ _ => false
  | .wrVec _ _ => false
  | .wrMem _ _ _ => false
  | .wrFlags _ => false
  | .fenceSL => false
  | .noReorder => false

/-- Whether an event is a write of a destination. -/
def Event.isWrite : Event → Bool
  | .wrReg _ _ _ => true
  | .wrVec _ _ => true
  | .wrMem _ _ _ => true
  | .rdReg _ _ => false
  | .rdVec _ => false
  | .rdMem _ _ => false
  | .wrFlags _ => false
  | .fenceSL => false
  | .noReorder => false

/-- s with other flags. -/
def State.withFlags (s : State) (f : Flags) : State := { s with mach := { s.mach with flags := f } }

/-- s with another trace so far and other calls after the present one. -/
def State.withHistory (s : State) (tr : List Event) (later : List Call) : State :=
  { s with calls := s.calls.take 1 ++ later, trace := tr }

/-- s with the draw of the present call set to d (00_scope.md R15). -/
def State.withDraw (s : State) (d : Bool) : State :=
  match s.calls with
  | c :: cs => { s with calls := { c with draw := d } :: cs }
  | [] => s

/-- The dividend of DIV as a number: AX for W = 8, `HI_W : ACC_W` otherwise (43_multiply_divide.md R238, R239). -/
def dividendU (s : State) : Width → Nat
  | .w8 => (s.read 16 (.reg 0 .x16)).toNat
  | .w16 => (s.read 16 (.reg 2 .x16)).toNat * 2 ^ 16 + (s.read 16 (.reg 0 .x16)).toNat
  | .w32 => (s.read 32 (.reg 2 .x32)).toNat * 2 ^ 32 + (s.read 32 (.reg 0 .x32)).toNat
  | .w64 => (s.read 64 (.reg 2 .x64)).toNat * 2 ^ 64 + (s.read 64 (.reg 0 .x64)).toNat

/-- The dividend of IDIV as an integer (43_multiply_divide.md R240, R241): the high half carries the sign. -/
def dividendS (s : State) : Width → Int
  | .w8 => (s.read 16 (.reg 0 .x16)).toInt
  | .w16 => (s.read 16 (.reg 2 .x16)).toInt * 2 ^ 16 + (s.read 16 (.reg 0 .x16)).toNat
  | .w32 => (s.read 32 (.reg 2 .x32)).toInt * 2 ^ 32 + (s.read 32 (.reg 0 .x32)).toNat
  | .w64 => (s.read 64 (.reg 2 .x64)).toInt * 2 ^ 64 + (s.read 64 (.reg 0 .x64)).toNat

/-- Where the quotient goes: AL for W = 8, `ACC_W` otherwise (43_multiply_divide.md R238 to R241). -/
def quotientReg : Width → Handle
  | .w8 => .reg 0 .l8
  | .w16 => .reg 0 .x16
  | .w32 => .reg 0 .x32
  | .w64 => .reg 0 .x64

/-- Where the remainder goes: AH for W = 8, `HI_W` otherwise (43_multiply_divide.md R238 to R241). -/
def remainderReg : Width → Handle
  | .w8 => .reg 0 .h8
  | .w16 => .reg 2 .x16
  | .w32 => .reg 2 .x32
  | .w64 => .reg 2 .x64

/-- A register operand of n bits: a view of that width that exists in the mode (10_state.md R32, 30_encoding.md R110). -/
def RegOperand (c : Context) (n : Nat) (h : Handle) : Prop :=
  ∃ (i : Fin 16) (k : View), h = .reg i k ∧ k.bits = n ∧ i.val < c.ngpr
    ∧ (k = .l8 → c.mode64 = true ∨ i.val < 4) ∧ (k = .h8 → i.val < 4) ∧ (k = .x64 → c.mode64 = true)

/-- A memory operand of n bits: n/8 bytes at an `XLEN`-bit address (20_memory.md R70, R76). -/
def MemOperand (c : Context) (n : Nat) (h : Handle) : Prop :=
  ∃ (addr : BitVec 64) (bytes : Nat), h = .mem addr bytes ∧ 8 * bytes = n ∧ addr.toNat < 2 ^ c.xlen

/-- An immediate of n bits (30_encoding.md R109). -/
def ImmOperand (n : Nat) (h : Handle) : Prop := ∃ v : BitVec n, h = .imm n v

/-- A vector register that exists in the mode (10_state.md R42). -/
def VecOperand (c : Context) (h : Handle) : Prop := ∃ j : Fin 16, h = .vec j ∧ j.val < c.nvreg

/-- The handles hs are what row i asks for: the table of 30_encoding.md R102 by SH, with W by WC (R101) and the 8-bit shift count of R104. -/
def OperandsMatch (c : Context) (i : Instr) (hs : List Handle) : Prop :=
  let n := match i.width with
    | some w => w.bits
    | none => c.vlen.bits
  let n2 := if opField (encode i) ∈ [0x30, 0x31, 0x32] then 8 else n
  match shField (encode i) with
  | 0x0 => ∃ a, hs = [a] ∧ RegOperand c n a
  | 0x1 => ∃ a, hs = [a] ∧ MemOperand c n a
  | 0x2 => ∃ a b, hs = [a, b] ∧ RegOperand c n a ∧ RegOperand c n2 b
  | 0x3 => ∃ a b, hs = [a, b] ∧ RegOperand c n a ∧ MemOperand c n b
  | 0x4 => ∃ a b, hs = [a, b] ∧ MemOperand c n a ∧ RegOperand c n2 b
  | 0x5 => ∃ a b, hs = [a, b] ∧ RegOperand c n a ∧ ImmOperand n2 b
  | 0x6 => ∃ a b, hs = [a, b] ∧ MemOperand c n a ∧ ImmOperand n2 b
  | 0x7 => ∃ a b d, hs = [a, b, d] ∧ RegOperand c n a ∧ RegOperand c n b ∧ ImmOperand n d
  | 0x8 => ∃ a b d, hs = [a, b, d] ∧ RegOperand c n a ∧ MemOperand c n b ∧ ImmOperand n d
  | 0x9 => ∃ a b, hs = [a, b] ∧ VecOperand c a ∧ VecOperand c b
  | 0xA => ∃ a b, hs = [a, b] ∧ VecOperand c a ∧ MemOperand c n b
  | _ => False

/-- The operands a row reads without naming them (30_encoding.md R104), in the table's order. -/
def implicitReads : Instr → List Handle
  | .mul _ w => [accHandle w]
  | .imul1 _ w => [accHandle w]
  | .div _ .w8 => [axHandle]
  | .div _ .w16 => [.reg 2 .x16, .reg 0 .x16]
  | .div _ .w32 => [.reg 2 .x32, .reg 0 .x32]
  | .div _ .w64 => [.reg 2 .x64, .reg 0 .x64]
  | .idiv _ .w8 => [axHandle]
  | .idiv _ .w16 => [.reg 2 .x16, .reg 0 .x16]
  | .idiv _ .w32 => [.reg 2 .x32, .reg 0 .x32]
  | .idiv _ .w64 => [.reg 2 .x64, .reg 0 .x64]
  | .add _ _ | .adc _ _ | .sub _ _ | .sbb _ _ | .cmp _ _ | .inc _ _ | .dec _ _ | .neg _ _ => []
  | .and _ _ | .or _ _ | .xor _ _ | .test _ _ | .not _ _ => []
  | .pand _ | .por _ | .pxor _ | .pandn _ | .ptest _ => []
  | .imul2 _ _ | .imul3 _ _ | .shl _ _ | .shr _ _ | .sar _ _ | .xadd _ _ => []

/-- The run of all calls from s has completed, with final state t (70_reset_and_hazards.md R363). -/
def Completes (s t : State) : Prop := Host.Core.run Sys2Proof.core s.calls.length s = .next t

end Sys2Proof.Machine
end

