-- ==== Sys2Proof/Certificates/Slice0/Obligations.lean ====
section
/-! DEFINITION. What the model's provers are asked to settle, from the numbered rules of spec/. `s.ready i` says that row i passes steps 2 to 4 of 30_encoding.md
R120 in s: it exists in the mode, the present call's handles fit it, and every memory access is admitted. -/

open Sys2Proof Sys2Proof.Machine

/-! ### Control words -/

/-- R105: the encoder's word of every row decodes to that row. -/
def Obligations.DecodeOfEncodeIsTheRow : Prop := ∀ i : Instr, decode (encode i) = .ok i

/-- R105: the words that select a row are exactly the 318 words of spec/opcode_table.json, each listed once. -/
def Obligations.ExactlyTheListedWordsSelectARow : Prop :=
  tableWords.length = 318 ∧ tableWords.Nodup ∧ ∀ c : ControlWord, (∃ i, decode c = .ok i) ↔ c.toNat ∈ tableWords

/-- R100, R105: a word that selects a row is that row's word, so no two words select one row. -/
def Obligations.DecodedRowEncodesBack : Prop := ∀ (c : ControlWord) (i : Instr), decode c = .ok i → encode i = c

/-- R100 to R103: words written out as OP, SH, WC, one for each family of the table. -/
def Obligations.SampleControlWordsDecode : Prop :=
  decode (0x01#8 ++ 0x2#4 ++ 0x3#4) = .ok (.add .rr .w64)
  ∧ decode (0x13#8 ++ 0x6#4 ++ 0x1#4) = .ok (.test .mi .w16)
  ∧ decode (0x1B#8 ++ 0xA#4 ++ 0x4#4) = .ok (.pandn .vm)
  ∧ decode (0x20#8 ++ 0x1#4 ++ 0x0#4) = .ok (.mul .m .w8)
  ∧ decode (0x22#8 ++ 0x3#4 ++ 0x2#4) = .ok (.imul2 .rm .w32)
  ∧ decode (0x23#8 ++ 0x7#4 ++ 0x1#4) = .ok (.imul3 .rri .w16)
  ∧ decode (0x25#8 ++ 0x0#4 ++ 0x3#4) = .ok (.idiv .r .w64)
  ∧ decode (0x32#8 ++ 0x4#4 ++ 0x0#4) = .ok (.sar .mr .w8)
  ∧ decode (0x40#8 ++ 0x4#4 ++ 0x3#4) = .ok (.xadd .mr .w64)

/-! ### One step -/

/-- R44, R46, R120: when the next call's word decodes to row i, the step runs i on that call; after `Ok`, and only then, it goes on to the next call. -/
def Obligations.StepRunsTheDecodedRow : Prop :=
  ∀ (s : State) (c : Call) (cs : List Call) (i : Instr), s.calls = c :: cs → decode c.ctl = .ok i →
    (∀ t, exec i s = .next t → step s = .next { t with calls := cs })
    ∧ (∀ f, exec i s = .fault f → step s = .fault f)
    ∧ (∀ r, exec i s = .refused r → step s = .refused r)

/-- R113: a call whose control word is none of the 318 is refused as unlisted. -/
def Obligations.UnlistedWordIsRefused : Prop :=
  ∀ (s : State) (c : Call) (cs : List Call), s.calls = c :: cs → c.ctl.toNat ∉ tableWords → step s = .refused .unlisted

/-- R112: a row is refused as inapplicable to the mode exactly when it is a 64-bit row and `MODE64` is false. -/
def Obligations.SixtyFourBitRowsNeedMode64 : Prop :=
  ∀ (i : Instr) (s : State),
    exec i s = .refused .modeInapplicable ↔ i.width = some .w64 ∧ s.ctx.mode64 = false

/-- R102, R104, R110 (and log 18): a row in its mode is refused exactly when the handles are not what its shape and width ask for. -/
def Obligations.MismatchedOperandsAreRefused : Prop :=
  ∀ (i : Instr) (s : State), i.available s.ctx = true →
    (exec i s = .refused .operandMismatch ↔ ¬ OperandsMatch s.ctx i s.handles)

/-- R332: the outcomes of one call in their order of priority. -/
def Obligations.OutcomesComeInPriorityOrder : Prop :=
  ∀ (s : State) (c : Call) (cs : List Call), s.calls = c :: cs →
    ((∀ i, decode c.ctl ≠ .ok i) → step s = .refused .unlisted)
    ∧ ∀ i, decode c.ctl = .ok i →
      (i.available s.ctx = false → step s = .refused .modeInapplicable)
      ∧ (i.available s.ctx = true → handlesFit s.ctx (i.slots s.ctx.vlen) c.ops = false → step s = .refused .operandMismatch)
      ∧ (i.available s.ctx = true → handlesFit s.ctx (i.slots s.ctx.vlen) c.ops = true → s.admits i = false →
          step s = .fault .memNotAdmitted)
      ∧ (s.ready i = true → ∀ sh w, i = .div sh w ∨ i = .idiv sh w →
          (step s = .fault (.divideError .byZero s.mach) ↔ s.read w.bits s.op1 = 0))
      ∧ (s.ready i = true → (∃ t, step s = .next t) ∨ ∃ d, step s = .fault (.divideError d s.mach))

/-- R74, R75: a row in its mode and with handles that fit is stuck exactly when one of its memory accesses is not admitted: a rule of the environment
denies it, or a byte of it has no value. -/
def Obligations.UnadmittedAccessIsStuck : Prop :=
  ∀ (i : Instr) (s : State), i.available s.ctx = true → i.operandsFit s.ctx s.handles = true →
    (exec i s = .fault .memNotAdmitted ↔
      ∃ (k : Nat) (addr : BitVec 64) (n : Nat) (a : Access) (kind : AccessKind),
        s.handles[k]? = some (.mem addr n) ∧ i.accesses[k]? = some a
        ∧ ((kind = .read ∧ a.reads = true) ∨ (kind = .write ∧ a.writes = true))
        ∧ ((∃ b < n, s.mach.mem.byteAt ((addr.toNat + b) % 2 ^ s.ctx.xlen) = none)
          ∨ ∃ d ∈ s.ctx.denials, deniesAccess s.ctx.xlen d kind addr.toNat n = true))

/-- R8, R75: every predicate of the environment is a list of denial rules (the model's representation of `MemAdmit`, log 5). -/
def Obligations.EveryMemAdmitIsAListOfDenials : Prop :=
  ∀ (mode64 : Bool) (vlen : VLen) (p : Nat → Nat → AccessKind → Bool), ∃ ds : List Denial,
    ∀ (m : Memory) (addr n : Nat) (kind : AccessKind), addr < 2 ^ (Context.mk mode64 vlen ds).xlen → n ≤ 32 →
      memAdmit ⟨mode64, vlen, ds⟩ m addr n kind = (m.valued (Context.mk mode64 vlen ds).xlen addr n && p addr n kind)

/-! ### The flag algebra -/

/-- R143: PF is 1 exactly when the number of 1 bits in the low byte is even, at every width. -/
def Obligations.ParityCountsTheLowByte : Prop :=
  ∀ (w : Width) (r : BitVec w.bits),
    parityFlag r = true ↔ Even ((Finset.range 8).filter fun k => r.toNat / 2 ^ k % 2 = 1).card

/-- R144: AF is the carry (add) or borrow (subtract) out of bit 3, with or without a carry-in. -/
def Obligations.AuxiliaryCarryIsTheNibbleCarry : Prop :=
  ∀ (w : Width) (a b : BitVec w.bits) (c : Bool),
    auxFlag a b (a + b + carryBits w.bits c) = decide (16 ≤ a.toNat % 16 + b.toNat % 16 + c.toNat)
    ∧ auxFlag a b (a - b - carryBits w.bits c) = decide (a.toNat % 16 < b.toNat % 16 + c.toNat)

/-- R147, R148: the signed overflow of a sum and of a difference, by their definitions, equal the closed forms on the sign bits. -/
def Obligations.OverflowHasItsClosedForm : Prop :=
  ∀ (w : Width) (a b : BitVec w.bits) (c : Bool),
    addOverflow a b c = decide (a.toInt + b.toInt + c.toNat < -2 ^ (w.bits - 1) ∨ 2 ^ (w.bits - 1) ≤ a.toInt + b.toInt + c.toNat)
    ∧ addOverflow a b c = ((a.msb == b.msb) && ((a + b + carryBits w.bits c).msb != a.msb))
    ∧ subOverflow a b c = decide (a.toInt - b.toInt - c.toNat < -2 ^ (w.bits - 1) ∨ 2 ^ (w.bits - 1) ≤ a.toInt - b.toInt - c.toNat)
    ∧ subOverflow a b c = ((a.msb != b.msb) && ((a - b - carryBits w.bits c).msb != a.msb))

/-- R149, R150: the two-stage carry of ADC and borrow of SBB are the OR of the two stages' carries or borrows, and equal the carry of the whole sum and the
borrow of the whole difference. -/
def Obligations.TwoStagesGiveTheWholeCarryAndBorrow : Prop :=
  ∀ (w : Width) (a b : BitVec w.bits) (c : Bool),
    adcCarry a b c = (addCarry a b || addCarry (BitVec.ofNat w.bits (a.toNat + b.toNat)) (BitVec.ofNat w.bits c.toNat))
    ∧ adcCarry a b c = decide (2 ^ w.bits ≤ a.toNat + b.toNat + c.toNat)
    ∧ sbbBorrow a b c
      = (subBorrow a b || subBorrow (BitVec.ofInt w.bits ((a.toNat : Int) - b.toNat)) (BitVec.ofNat w.bits c.toNat))
    ∧ sbbBorrow a b c = decide (a.toNat < b.toNat + c.toNat)

/-- R151: an unsigned product is lost exactly when the high half of the double-width product is not zero; a signed one exactly when the high half is not
the sign-extension of the low half. -/
def Obligations.LostProductMeansTheHalvesDisagree : Prop :=
  ∀ (w : Width) (a b : BitVec w.bits),
    (lostUnsigned w.bits (a.toNat * b.toNat) = true ↔
      (BitVec.ofNat (w.bits + w.bits) (a.toNat * b.toNat)).extractLsb' w.bits w.bits ≠ 0)
    ∧ (lostSigned w.bits (a.toInt * b.toInt) = true ↔
      (BitVec.ofInt (w.bits + w.bits) (a.toInt * b.toInt)).extractLsb' w.bits w.bits
        ≠ if (BitVec.ofInt w.bits (a.toInt * b.toInt)).msb then BitVec.allOnes w.bits else 0)

/-! ### Arithmetic -/

/-- R171: ADD. -/
def Obligations.AddWritesTheSumAndItsFlags : Prop :=
  ∀ (sh : BinaryShape) (w : Width) (s : State), opField (encode (.add sh w)) = 0x01 ∧ (s.ready (.add sh w) = true →
    let n := w.bits
    let a := s.read n s.op1
    let b := s.read n s.op2
    let r := BitVec.ofNat n (a.toNat + b.toNat)
    ∃ t, exec (.add sh w) s = .next t ∧ Holds t s.op1 r ∧ Frame s t [s.op1]
      ∧ t.mach.flags =
        { CF := .ofBool (decide (2 ^ n ≤ a.toNat + b.toNat))
          PF := .ofBool (parityFlag r)
          AF := .ofBool (decide (16 ≤ a.toNat % 16 + b.toNat % 16))
          ZF := .ofBool (decide (r = 0))
          SF := .ofBool r.msb
          OF := .ofBool (decide (a.toInt + b.toInt < -2 ^ (n - 1) ∨ 2 ^ (n - 1) ≤ a.toInt + b.toInt)) })

/-- R172: ADC. The carry-in is CF, or the draw of the call where CF is `U`. -/
def Obligations.AdcAddsTheCarryIn : Prop :=
  ∀ (sh : BinaryShape) (w : Width) (s : State) (cin : Bool), opField (encode (.adc sh w)) = 0x02 ∧ (s.ready (.adc sh w) = true →
    (s.mach.flags.CF = .ofBool cin ∨ (s.mach.flags.CF = .u ∧ cin = s.draw)) →
    let n := w.bits
    let a := s.read n s.op1
    let b := s.read n s.op2
    let r := BitVec.ofNat n (a.toNat + b.toNat + cin.toNat)
    ∃ t, exec (.adc sh w) s = .next t ∧ Holds t s.op1 r ∧ Frame s t [s.op1]
      ∧ t.mach.flags =
        { CF := .ofBool (decide (2 ^ n ≤ a.toNat + b.toNat + cin.toNat))
          PF := .ofBool (parityFlag r)
          AF := .ofBool (decide (16 ≤ a.toNat % 16 + b.toNat % 16 + cin.toNat))
          ZF := .ofBool (decide (r = 0))
          SF := .ofBool r.msb
          OF := .ofBool (decide (a.toInt + b.toInt + cin.toNat < -2 ^ (n - 1) ∨ 2 ^ (n - 1) ≤ a.toInt + b.toInt + cin.toNat)) })

/-- R173: SUB. -/
def Obligations.SubWritesTheDifferenceAndItsFlags : Prop :=
  ∀ (sh : BinaryShape) (w : Width) (s : State), opField (encode (.sub sh w)) = 0x03 ∧ (s.ready (.sub sh w) = true →
    let n := w.bits
    let a := s.read n s.op1
    let b := s.read n s.op2
    let r := BitVec.ofInt n ((a.toNat : Int) - b.toNat)
    ∃ t, exec (.sub sh w) s = .next t ∧ Holds t s.op1 r ∧ Frame s t [s.op1]
      ∧ t.mach.flags =
        { CF := .ofBool (decide (a.toNat < b.toNat))
          PF := .ofBool (parityFlag r)
          AF := .ofBool (decide (a.toNat % 16 < b.toNat % 16))
          ZF := .ofBool (decide (r = 0))
          SF := .ofBool r.msb
          OF := .ofBool (decide (a.toInt - b.toInt < -2 ^ (n - 1) ∨ 2 ^ (n - 1) ≤ a.toInt - b.toInt)) })

/-- R174: SBB. -/
def Obligations.SbbSubtractsTheBorrowIn : Prop :=
  ∀ (sh : BinaryShape) (w : Width) (s : State) (cin : Bool), opField (encode (.sbb sh w)) = 0x04 ∧ (s.ready (.sbb sh w) = true →
    (s.mach.flags.CF = .ofBool cin ∨ (s.mach.flags.CF = .u ∧ cin = s.draw)) →
    let n := w.bits
    let a := s.read n s.op1
    let b := s.read n s.op2
    let r := BitVec.ofInt n ((a.toNat : Int) - b.toNat - cin.toNat)
    ∃ t, exec (.sbb sh w) s = .next t ∧ Holds t s.op1 r ∧ Frame s t [s.op1]
      ∧ t.mach.flags =
        { CF := .ofBool (decide (a.toNat < b.toNat + cin.toNat))
          PF := .ofBool (parityFlag r)
          AF := .ofBool (decide (a.toNat % 16 < b.toNat % 16 + cin.toNat))
          ZF := .ofBool (decide (r = 0))
          SF := .ofBool r.msb
          OF := .ofBool (decide (a.toInt - b.toInt - cin.toNat < -2 ^ (n - 1) ∨ 2 ^ (n - 1) ≤ a.toInt - b.toInt - cin.toNat)) })

/-- R175: CMP has SUB's flags on the same operands, writes nothing else, and only reads its operands (so a memory operand needs no write admitted). -/
def Obligations.CmpWritesFlagsOnly : Prop :=
  ∀ (sh : BinaryShape) (w : Width) (s : State), opField (encode (.cmp sh w)) = 0x05 ∧ Instr.accesses (.cmp sh w) = [.r, .r] ∧ (s.ready (.cmp sh w) = true →
    let n := w.bits
    let a := s.read n s.op1
    let b := s.read n s.op2
    let r := BitVec.ofInt n ((a.toNat : Int) - b.toNat)
    ∃ t, exec (.cmp sh w) s = .next t ∧ Frame s t []
      ∧ (∀ e ∈ t.trace, e ∈ s.trace ∨ (e ≠ .noReorder ∧ e.isWrite = false))
      ∧ t.mach.flags =
        { CF := .ofBool (decide (a.toNat < b.toNat))
          PF := .ofBool (parityFlag r)
          AF := .ofBool (decide (a.toNat % 16 < b.toNat % 16))
          ZF := .ofBool (decide (r = 0))
          SF := .ofBool r.msb
          OF := .ofBool (decide (a.toInt - b.toInt < -2 ^ (n - 1) ∨ 2 ^ (n - 1) ≤ a.toInt - b.toInt)) })

/-- R176: INC, with CF unchanged. -/
def Obligations.IncKeepsTheCarry : Prop :=
  ∀ (sh : UnaryShape) (w : Width) (s : State), opField (encode (.inc sh w)) = 0x06 ∧ (s.ready (.inc sh w) = true →
    let n := w.bits
    let a := s.read n s.op1
    let r := BitVec.ofNat n (a.toNat + 1)
    ∃ t, exec (.inc sh w) s = .next t ∧ Holds t s.op1 r ∧ Frame s t [s.op1]
      ∧ t.mach.flags =
        { CF := s.mach.flags.CF
          PF := .ofBool (parityFlag r)
          AF := .ofBool (decide (a.toNat % 16 = 15))
          ZF := .ofBool (decide (r = 0))
          SF := .ofBool r.msb
          OF := .ofBool (decide (a.toNat = 2 ^ (n - 1) - 1)) })

/-- R177: DEC, with CF unchanged. -/
def Obligations.DecKeepsTheCarry : Prop :=
  ∀ (sh : UnaryShape) (w : Width) (s : State), opField (encode (.dec sh w)) = 0x07 ∧ (s.ready (.dec sh w) = true →
    let n := w.bits
    let a := s.read n s.op1
    let r := BitVec.ofInt n ((a.toNat : Int) - 1)
    ∃ t, exec (.dec sh w) s = .next t ∧ Holds t s.op1 r ∧ Frame s t [s.op1]
      ∧ t.mach.flags =
        { CF := s.mach.flags.CF
          PF := .ofBool (parityFlag r)
          AF := .ofBool (decide (a.toNat % 16 = 0))
          ZF := .ofBool (decide (r = 0))
          SF := .ofBool r.msb
          OF := .ofBool (decide (a.toNat = 2 ^ (n - 1))) })

/-- R178, R152: NEG, with CF = (src ≠ 0). -/
def Obligations.NegSubtractsFromZero : Prop :=
  ∀ (sh : UnaryShape) (w : Width) (s : State), opField (encode (.neg sh w)) = 0x08 ∧ (s.ready (.neg sh w) = true →
    let n := w.bits
    let a := s.read n s.op1
    let r := BitVec.ofInt n (0 - (a.toNat : Int))
    ∃ t, exec (.neg sh w) s = .next t ∧ Holds t s.op1 r ∧ Frame s t [s.op1]
      ∧ t.mach.flags =
        { CF := .ofBool (decide (a.toNat ≠ 0))
          PF := .ofBool (parityFlag r)
          AF := .ofBool (decide (0 < a.toNat % 16))
          ZF := .ofBool (decide (r = 0))
          SF := .ofBool r.msb
          OF := .ofBool (decide (a.toNat = 2 ^ (n - 1))) })

/-! ### Logic -/

/-- R271, R272, R273: AND, OR and XOR write the bitwise result; CF and OF are 0, AF is `U`, and ZF, SF and PF follow the result. -/
def Obligations.LogicalRowsWriteAndFlag : Prop :=
  ∀ (sh : BinaryShape) (w : Width) (s : State) (i : Instr) (op : Nat) (f : Bool → Bool → Bool),
    (i = .and sh w ∧ op = 0x10 ∧ f = Bool.and) ∨ (i = .or sh w ∧ op = 0x11 ∧ f = Bool.or) ∨ (i = .xor sh w ∧ op = 0x12 ∧ f = Bool.xor) →
    opField (encode i) = op ∧ (s.ready i = true →
    ∃ (t : State) (r : BitVec w.bits), exec i s = .next t
      ∧ (∀ k < w.bits, r.getLsbD k = f ((s.read w.bits s.op1).getLsbD k) ((s.read w.bits s.op2).getLsbD k))
      ∧ Holds t s.op1 r ∧ Frame s t [s.op1]
      ∧ t.mach.flags = ⟨.zero, .ofBool (parityFlag r), .u, .ofBool (decide (r = 0)), .ofBool r.msb, .zero⟩)

/-- R274: TEST has AND's flags, writes nothing else, and only reads its operands. -/
def Obligations.TestWritesFlagsOnly : Prop :=
  ∀ (sh : NoRmShape) (w : Width) (s : State), opField (encode (.test sh w)) = 0x13 ∧ Instr.accesses (.test sh w) = [.r, .r] ∧ (s.ready (.test sh w) = true →
    let r := s.read w.bits s.op1 &&& s.read w.bits s.op2
    ∃ t, exec (.test sh w) s = .next t ∧ Frame s t []
      ∧ (∀ e ∈ t.trace, e ∈ s.trace ∨ (e ≠ .noReorder ∧ e.isWrite = false))
      ∧ t.mach.flags = ⟨.zero, .ofBool (parityFlag r), .u, .ofBool (decide (r = 0)), .ofBool r.msb, .zero⟩)

/-- R275: NOT writes 2^W - 1 - a and leaves every flag, `U` included. -/
def Obligations.NotComplementsAndKeepsFlags : Prop :=
  ∀ (sh : UnaryShape) (w : Width) (s : State), opField (encode (.not sh w)) = 0x14 ∧ (s.ready (.not sh w) = true →
    ∃ (t : State) (r : BitVec w.bits), exec (.not sh w) s = .next t
      ∧ r.toNat = 2 ^ w.bits - 1 - (s.read w.bits s.op1).toNat
      ∧ Holds t s.op1 r ∧ Frame s t [s.op1]
      ∧ (∀ e ∈ t.trace, e ∈ s.trace ∨ e ≠ .noReorder)
      ∧ t.mach.flags = s.mach.flags)

/-- R277 to R280: the packed rows write the bitwise result on the whole `VLEN`-bit word, PANDN with op1 complemented, and set every flag to 0. -/
def Obligations.PackedRowsWriteAndClearFlags : Prop :=
  ∀ (sh : PackedShape) (s : State) (i : Instr) (op : Nat) (f : Bool → Bool → Bool),
    (i = .pand sh ∧ op = 0x18 ∧ f = Bool.and) ∨ (i = .por sh ∧ op = 0x19 ∧ f = Bool.or) ∨ (i = .pxor sh ∧ op = 0x1A ∧ f = Bool.xor)
      ∨ (i = .pandn sh ∧ op = 0x1B ∧ f = fun x y => !x && y) →
    opField (encode i) = op ∧ (s.ready i = true →
    ∃ (t : State) (r : BitVec s.ctx.vlen.bits), exec i s = .next t
      ∧ (∀ k < s.ctx.vlen.bits,
          r.getLsbD k = f ((s.read s.ctx.vlen.bits s.op1).getLsbD k) ((s.read s.ctx.vlen.bits s.op2).getLsbD k))
      ∧ Holds t s.op1 r ∧ Frame s t [s.op1]
      ∧ t.mach.flags = ⟨.zero, .zero, .zero, .zero, .zero, .zero⟩)

/-- R281: PTEST sets ZF and CF from whether the AND and the AND-NOT are zero, clears the other flags, writes nothing else, and only reads its
operands. -/
def Obligations.PtestSetsZeroAndCarryOnly : Prop :=
  ∀ (sh : PackedShape) (s : State), opField (encode (.ptest sh)) = 0x1C ∧ Instr.accesses (.ptest sh) = [.r, .r] ∧ (s.ready (.ptest sh) = true →
    let n := s.ctx.vlen.bits
    let a := s.read n s.op1
    let b := s.read n s.op2
    ∃ t, exec (.ptest sh) s = .next t ∧ Frame s t []
      ∧ (∀ e ∈ t.trace, e ∈ s.trace ∨ (e ≠ .noReorder ∧ e.isWrite = false))
      ∧ (t.mach.flags.ZF = .one ↔ ∀ k < n, (a.getLsbD k && b.getLsbD k) = false)
      ∧ (t.mach.flags.CF = .one ↔ ∀ k < n, (!a.getLsbD k && b.getLsbD k) = false)
      ∧ t.mach.flags.ZF ≠ .u ∧ t.mach.flags.CF ≠ .u
      ∧ t.mach.flags.PF = .zero ∧ t.mach.flags.AF = .zero ∧ t.mach.flags.SF = .zero ∧ t.mach.flags.OF = .zero)

/-! ### Multiply and divide -/

/-- R231: MUL, W = 8, puts the 16-bit product in AX. -/
def Obligations.ByteMulFillsAx : Prop :=
  ∀ (sh : UnaryShape) (s : State), opField (encode (.mul sh .w8)) = 0x20 ∧ (s.ready (.mul sh .w8) = true →
    let p := (s.read 8 (.reg 0 .l8)).toNat * (s.read 8 s.op1).toNat
    ∃ t, exec (.mul sh .w8) s = .next t ∧ Holds t (.reg 0 .x16) (BitVec.ofNat 16 p) ∧ (t.read 16 (.reg 0 .x16)).toNat = p
      ∧ Frame s t [.reg 0 .x16]
      ∧ t.mach.flags = ⟨.ofBool (decide (p / 2 ^ 8 ≠ 0)), .u, .u, .u, .u, .ofBool (decide (p / 2 ^ 8 ≠ 0))⟩)

/-- R232: MUL, W = 16, 32, 64, puts the low half in `ACC_W` and the high half in `HI_W`. -/
def Obligations.WideMulFillsBothHalves : Prop :=
  ∀ (sh : UnaryShape) (w : WideWidth) (s : State), opField (encode (.mul sh w.width)) = 0x20 ∧ (s.ready (.mul sh w.width) = true →
    let n := w.width.bits
    let acc := Handle.reg 0 w.width.view
    let hi := Handle.reg 2 w.width.view
    let p := (s.read n acc).toNat * (s.read n s.op1).toNat
    ∃ t, exec (.mul sh w.width) s = .next t
      ∧ Holds t acc (BitVec.ofNat n p) ∧ Holds t hi (BitVec.ofNat n (p / 2 ^ n))
      ∧ (t.read n hi).toNat * 2 ^ n + (t.read n acc).toNat = p
      ∧ Frame s t [acc, hi]
      ∧ t.mach.flags = ⟨.ofBool (decide (p / 2 ^ n ≠ 0)), .u, .u, .u, .u, .ofBool (decide (p / 2 ^ n ≠ 0))⟩)

/-- R233: IMUL 1-operand, W = 8. -/
def Obligations.ByteImulFillsAx : Prop :=
  ∀ (sh : UnaryShape) (s : State), opField (encode (.imul1 sh .w8)) = 0x21 ∧ (s.ready (.imul1 sh .w8) = true →
    let p := (s.read 8 (.reg 0 .l8)).toInt * (s.read 8 s.op1).toInt
    let lost := decide (p < -2 ^ 7 ∨ 2 ^ 7 ≤ p)
    ∃ t, exec (.imul1 sh .w8) s = .next t ∧ Holds t (.reg 0 .x16) (BitVec.ofInt 16 p) ∧ (t.read 16 (.reg 0 .x16)).toInt = p
      ∧ Frame s t [.reg 0 .x16]
      ∧ t.mach.flags = ⟨.ofBool lost, .u, .u, .u, .ofBool (BitVec.ofInt 8 p).msb, .ofBool lost⟩)

/-- R234: IMUL 1-operand, W = 16, 32, 64: CF and OF are set exactly when the product does not fit the low half. -/
def Obligations.WideImulFillsBothHalves : Prop :=
  ∀ (sh : UnaryShape) (w : WideWidth) (s : State), opField (encode (.imul1 sh w.width)) = 0x21 ∧ (s.ready (.imul1 sh w.width) = true →
    let n := w.width.bits
    let acc := Handle.reg 0 w.width.view
    let hi := Handle.reg 2 w.width.view
    let p := (s.read n acc).toInt * (s.read n s.op1).toInt
    let lost := decide (p < -2 ^ (n - 1) ∨ 2 ^ (n - 1) ≤ p)
    ∃ t, exec (.imul1 sh w.width) s = .next t
      ∧ Holds t acc (BitVec.ofInt n p) ∧ Holds t hi (BitVec.ofInt n (p / 2 ^ n))
      ∧ (t.read n hi).toInt * 2 ^ n + (t.read n acc).toNat = p
      ∧ Frame s t [acc, hi]
      ∧ t.mach.flags = ⟨.ofBool lost, .u, .u, .u, .ofBool (BitVec.ofInt n p).msb, .ofBool lost⟩)

/-- R235: IMUL 2-operand. -/
def Obligations.TwoOperandImulTruncates : Prop :=
  ∀ (sh : RegSrcShape) (w : WideWidth) (s : State), opField (encode (.imul2 sh w)) = 0x22 ∧ (s.ready (.imul2 sh w) = true →
    let n := w.width.bits
    let p := (s.read n s.op1).toInt * (s.read n s.op2).toInt
    let lost := decide (p < -2 ^ (n - 1) ∨ 2 ^ (n - 1) ≤ p)
    ∃ t, exec (.imul2 sh w) s = .next t ∧ Holds t s.op1 (BitVec.ofInt n p) ∧ Frame s t [s.op1]
      ∧ t.mach.flags = ⟨.ofBool lost, .u, .u, .u, .ofBool (BitVec.ofInt n p).msb, .ofBool lost⟩)

/-- R236: IMUL 3-operand: op1 is written from op2 and op3. -/
def Obligations.ThreeOperandImulTruncates : Prop :=
  ∀ (sh : ImmSrcShape) (w : WideWidth) (s : State), opField (encode (.imul3 sh w)) = 0x23 ∧ (s.ready (.imul3 sh w) = true →
    let n := w.width.bits
    let p := (s.read n s.op2).toInt * (s.read n s.op3).toInt
    let lost := decide (p < -2 ^ (n - 1) ∨ 2 ^ (n - 1) ≤ p)
    ∃ t, exec (.imul3 sh w) s = .next t ∧ Holds t s.op1 (BitVec.ofInt n p) ∧ Frame s t [s.op1]
      ∧ t.mach.flags = ⟨.ofBool lost, .u, .u, .u, .ofBool (BitVec.ofInt n p).msb, .ofBool lost⟩)

/-- R238, R239: DIV, where the divisor is not zero and the quotient fits. -/
def Obligations.DivWritesQuotientAndRemainder : Prop :=
  ∀ (sh : UnaryShape) (w : Width) (s : State), opField (encode (.div sh w)) = 0x24 ∧ (s.ready (.div sh w) = true →
    let n := w.bits
    let d := (s.read n s.op1).toNat
    d ≠ 0 → dividendU s w / d < 2 ^ n →
    ∃ t, exec (.div sh w) s = .next t
      ∧ Holds t (quotientReg w) (BitVec.ofNat n (dividendU s w / d)) ∧ Holds t (remainderReg w) (BitVec.ofNat n (dividendU s w % d))
      ∧ dividendU s w = (t.read n (quotientReg w)).toNat * d + (t.read n (remainderReg w)).toNat
      ∧ (t.read n (remainderReg w)).toNat < d
      ∧ Frame s t [quotientReg w, remainderReg w]
      ∧ t.mach.flags = ⟨.u, .u, .u, .u, .u, .u⟩)

/-- R240, R241: IDIV rounds toward zero; the remainder has the sign of the dividend or is zero, and is smaller than the divisor. -/
def Obligations.IdivWritesQuotientAndRemainder : Prop :=
  ∀ (sh : UnaryShape) (w : Width) (s : State), opField (encode (.idiv sh w)) = 0x25 ∧ (s.ready (.idiv sh w) = true →
    let n := w.bits
    let d := (s.read n s.op1).toInt
    let q := (dividendS s w).tdiv d
    d ≠ 0 → -2 ^ (n - 1) ≤ q → q < 2 ^ (n - 1) →
    ∃ t, exec (.idiv sh w) s = .next t
      ∧ Holds t (quotientReg w) (BitVec.ofInt n q) ∧ Holds t (remainderReg w) (BitVec.ofInt n ((dividendS s w).tmod d))
      ∧ (t.read n (quotientReg w)).toInt = q
      ∧ dividendS s w = q * d + (t.read n (remainderReg w)).toInt
      ∧ (t.read n (remainderReg w)).toInt.natAbs < d.natAbs
      ∧ (0 ≤ dividendS s w → 0 ≤ (t.read n (remainderReg w)).toInt)
      ∧ (dividendS s w ≤ 0 → (t.read n (remainderReg w)).toInt ≤ 0)
      ∧ Frame s t [quotientReg w, remainderReg w]
      ∧ t.mach.flags = ⟨.u, .u, .u, .u, .u, .u⟩)

/-- R330, R332, R334: the divide faults, with their codes. Zero comes before overflow, and the hook receives the `MachineState` as it was. -/
def Obligations.DivideFaultsReachTheHook : Prop :=
  DivideCause.byZero.code = 1 ∧ DivideCause.overflow.code = 2
  ∧ ∀ (sh : UnaryShape) (w : Width) (s : State),
    (s.ready (.div sh w) = true →
      ((s.read w.bits s.op1).toNat = 0 → exec (.div sh w) s = .fault (.divideError .byZero s.mach))
      ∧ ((s.read w.bits s.op1).toNat ≠ 0 → 2 ^ w.bits ≤ dividendU s w / (s.read w.bits s.op1).toNat →
          exec (.div sh w) s = .fault (.divideError .overflow s.mach)))
    ∧ (s.ready (.idiv sh w) = true →
      ((s.read w.bits s.op1).toInt = 0 → exec (.idiv sh w) s = .fault (.divideError .byZero s.mach))
      ∧ ((s.read w.bits s.op1).toInt ≠ 0 →
          ((dividendS s w).tdiv (s.read w.bits s.op1).toInt < -2 ^ (w.bits - 1)
            ∨ 2 ^ (w.bits - 1) ≤ (dividendS s w).tdiv (s.read w.bits s.op1).toInt) →
          exec (.idiv sh w) s = .fault (.divideError .overflow s.mach)))

/-- R238, R239 (corner cases): with a divisor that is not zero, DIV overflows exactly when the high half of the dividend is the divisor or more. -/
def Obligations.DivOverflowsWhenTheHighHalfReachesTheDivisor : Prop :=
  ∀ (sh : UnaryShape) (w : Width) (s : State), s.ready (.div sh w) = true → (s.read w.bits s.op1).toNat ≠ 0 →
    (exec (.div sh w) s = .fault (.divideError .overflow s.mach) ↔
      (s.read w.bits s.op1).toNat ≤ (s.read w.bits (remainderReg w)).toNat)

/-! ### Shifts -/

/-- R302, with R300 and R301: SHL, every count class. -/
def Obligations.ShlByCountClass : Prop :=
  ∀ (sh : NoRmShape) (w : Width) (s : State), opField (encode (.shl sh w)) = 0x30 ∧ (s.ready (.shl sh w) = true →
    let n := w.bits
    let v := s.read n s.op1
    let c := (s.read 8 s.op2).toNat % (if w = .w64 then 64 else 32)
    let r := BitVec.ofNat n (v.toNat * 2 ^ c)
    ∃ t, exec (.shl sh w) s = .next t ∧ Holds t s.op1 r ∧ Frame s t [s.op1]
      ∧ (c = 0 → r = v ∧ t.mach.flags = s.mach.flags ∧ ∀ e ∈ t.trace, e ∈ s.trace ∨ e ≠ .noReorder)
      ∧ (n ≤ c → r = 0)
      ∧ (0 < c → t.mach.flags.ZF = .ofBool (decide (r = 0)) ∧ t.mach.flags.SF = .ofBool r.msb
          ∧ t.mach.flags.PF = .ofBool (parityFlag r) ∧ t.mach.flags.AF = .u)
      ∧ (c = 1 → t.mach.flags.OF = .ofBool (v.msb ^^ r.msb))
      ∧ (1 < c → t.mach.flags.OF = .u)
      ∧ (0 < c → c < n → t.mach.flags.CF = .ofBool (v.getLsbD (n - c)))
      ∧ (n ≤ c → t.mach.flags.CF = .u))

/-- R303, with R300 and R301: SHR, every count class. -/
def Obligations.ShrByCountClass : Prop :=
  ∀ (sh : NoRmShape) (w : Width) (s : State), opField (encode (.shr sh w)) = 0x31 ∧ (s.ready (.shr sh w) = true →
    let n := w.bits
    let v := s.read n s.op1
    let c := (s.read 8 s.op2).toNat % (if w = .w64 then 64 else 32)
    let r := BitVec.ofNat n (v.toNat / 2 ^ c)
    ∃ t, exec (.shr sh w) s = .next t ∧ Holds t s.op1 r ∧ Frame s t [s.op1]
      ∧ (c = 0 → r = v ∧ t.mach.flags = s.mach.flags ∧ ∀ e ∈ t.trace, e ∈ s.trace ∨ e ≠ .noReorder)
      ∧ (n ≤ c → r = 0)
      ∧ (0 < c → t.mach.flags.ZF = .ofBool (decide (r = 0)) ∧ t.mach.flags.SF = .zero
          ∧ t.mach.flags.PF = .ofBool (parityFlag r) ∧ t.mach.flags.AF = .u)
      ∧ (c = 1 → t.mach.flags.OF = .ofBool v.msb)
      ∧ (1 < c → t.mach.flags.OF = .u)
      ∧ (0 < c → c < n → t.mach.flags.CF = .ofBool (v.getLsbD (c - 1)))
      ∧ (n ≤ c → t.mach.flags.CF = .u))

/-- R304, with R300 and R301: SAR, every count class. -/
def Obligations.SarByCountClass : Prop :=
  ∀ (sh : NoRmShape) (w : Width) (s : State), opField (encode (.sar sh w)) = 0x32 ∧ (s.ready (.sar sh w) = true →
    let n := w.bits
    let v := s.read n s.op1
    let c := (s.read 8 s.op2).toNat % (if w = .w64 then 64 else 32)
    let r := BitVec.ofInt n (v.toInt / 2 ^ c)
    ∃ t, exec (.sar sh w) s = .next t ∧ Holds t s.op1 r ∧ Frame s t [s.op1]
      ∧ (c = 0 → r = v ∧ t.mach.flags = s.mach.flags ∧ ∀ e ∈ t.trace, e ∈ s.trace ∨ e ≠ .noReorder)
      ∧ (n ≤ c → r = if v.msb then BitVec.allOnes n else 0)
      ∧ (0 < c → t.mach.flags.ZF = .ofBool (decide (r = 0)) ∧ t.mach.flags.SF = .ofBool v.msb
          ∧ t.mach.flags.PF = .ofBool (parityFlag r) ∧ t.mach.flags.AF = .u)
      ∧ (c = 1 → t.mach.flags.OF = .zero)
      ∧ (1 < c → t.mach.flags.OF = .u)
      ∧ (0 < c → c < n → t.mach.flags.CF = .ofBool (v.getLsbD (c - 1)))
      ∧ (n ≤ c → t.mach.flags.CF = .u))

/-! ### Exchange-add -/

/-- R211, R214: XADD puts the sum in op1 and op1's old value in op2, with ADD's flags; a register named twice keeps its value. -/
def Obligations.XaddExchangesAndAdds : Prop :=
  ∀ (sh : ExchangeShape) (w : Width) (s : State), opField (encode (.xadd sh w)) = 0x40 ∧ (s.ready (.xadd sh w) = true →
    let n := w.bits
    let a := s.read n s.op1
    let b := s.read n s.op2
    let r := BitVec.ofNat n (a.toNat + b.toNat)
    ∃ t, exec (.xadd sh w) s = .next t
      ∧ (s.op1 ≠ s.op2 → Holds t s.op1 r) ∧ Holds t s.op2 a ∧ Frame s t [s.op1, s.op2]
      ∧ t.mach.flags =
        { CF := .ofBool (decide (2 ^ n ≤ a.toNat + b.toNat))
          PF := .ofBool (parityFlag r)
          AF := .ofBool (decide (16 ≤ a.toNat % 16 + b.toNat % 16))
          ZF := .ofBool (decide (r = 0))
          SF := .ofBool r.msb
          OF := .ofBool (decide (a.toInt + b.toInt < -2 ^ (n - 1) ∨ 2 ^ (n - 1) ≤ a.toInt + b.toInt)) })

/-- R213: the events of XADD in their order, for both shapes. -/
def Obligations.XaddTraceHasItsBarriers : Prop :=
  ∀ (sh : ExchangeShape) (w : Width) (s : State), s.ready (.xadd sh w) = true →
    let a := s.read w.bits s.op1
    let sum := (a.toNat + (s.read w.bits s.op2).toNat) % 2 ^ w.bits
    ∀ (j : Fin 16) (k' : View), s.op2 = .reg j k' →
      ∃ (t : State) (f : FlagWrite), exec (.xadd sh w) s = .next t ∧ f.apply s.mach.flags = t.mach.flags
        ∧ (∀ old : Flags, f.apply old = t.mach.flags)
        ∧ (∀ (i : Fin 16) (k : View), s.op1 = .reg i k →
            t.trace = s.trace ++ ([.fenceSL, .rdReg i k, .rdReg j k', .wrReg i k sum, .fenceSL, .wrReg j k' a.toNat, .fenceSL,
              .noReorder, .wrFlags f] : List Event))
        ∧ (∀ (addr : BitVec 64) (m : Nat), s.op1 = .mem addr m →
            t.trace = s.trace ++ ([.fenceSL, .rdMem addr.toNat m, .rdReg j k', .wrMem addr.toNat m sum, .fenceSL, .wrReg j k' a.toNat,
              .fenceSL, .noReorder, .wrFlags f] : List Event))

/-! ### Rules about every row -/

/-- R40: where CF is `U`, ADC and SBB run with carry-in 0 and with carry-in 1, one for each value of the draw. -/
def Obligations.UnconstrainedCarryAdmitsBothDraws : Prop :=
  ∀ (sh : BinaryShape) (w : Width) (s : State) (d : Bool), s.mach.flags.CF = .u →
    let a := s.read w.bits s.op1
    let b := s.read w.bits s.op2
    (s.ready (.adc sh w) = true → ∃ t, exec (.adc sh w) (s.withDraw d) = .next t ∧ t.read w.bits s.op1 = a + b + (if d then 1 else 0))
    ∧ (s.ready (.sbb sh w) = true → ∃ t, exec (.sbb sh w) (s.withDraw d) = .next t ∧ t.read w.bits s.op1 = a - b - (if d then 1 else 0))

/-- R331, R333: only DIV and IDIV raise a fault of the block, and the hook then receives the `MachineState` unchanged. -/
def Obligations.OnlyDividesFault : Prop :=
  ∀ (i : Instr) (s : State) (f : Fault), exec i s = .fault f → f ≠ .memNotAdmitted →
    (∃ sh w, i = .div sh w ∨ i = .idiv sh w) ∧ ∃ c, f = .divideError c s.mach

/-- R39: no row but ADC and SBB reads a flag: with other flags before it, a row does the same to registers, memory and trace, and each flag after it is
the same or is the one it kept. -/
def Obligations.FlagsAreReadByAdcAndSbbOnly : Prop :=
  ∀ (i : Instr) (s t : State) (f : Flags), (∀ sh w, i ≠ .adc sh w ∧ i ≠ .sbb sh w) → exec i s = .next t →
    ∃ t', exec i (s.withFlags f) = .next t'
      ∧ t'.mach.gpr = t.mach.gpr ∧ t'.mach.vreg = t.mach.vreg ∧ t'.mach.mem = t.mach.mem ∧ t'.trace = t.trace
      ∧ (t'.mach.flags.CF = t.mach.flags.CF ∨ (t.mach.flags.CF = s.mach.flags.CF ∧ t'.mach.flags.CF = f.CF))
      ∧ (t'.mach.flags.PF = t.mach.flags.PF ∨ (t.mach.flags.PF = s.mach.flags.PF ∧ t'.mach.flags.PF = f.PF))
      ∧ (t'.mach.flags.AF = t.mach.flags.AF ∨ (t.mach.flags.AF = s.mach.flags.AF ∧ t'.mach.flags.AF = f.AF))
      ∧ (t'.mach.flags.ZF = t.mach.flags.ZF ∨ (t.mach.flags.ZF = s.mach.flags.ZF ∧ t'.mach.flags.ZF = f.ZF))
      ∧ (t'.mach.flags.SF = t.mach.flags.SF ∨ (t.mach.flags.SF = s.mach.flags.SF ∧ t'.mach.flags.SF = f.SF))
      ∧ (t'.mach.flags.OF = t.mach.flags.OF ∨ (t.mach.flags.OF = s.mach.flags.OF ∧ t'.mach.flags.OF = f.OF))

/-- R31, R45: no row reads the trace so far or the calls after the present one. -/
def Obligations.HistoryIsNotRead : Prop :=
  ∀ (i : Instr) (s t : State) (tr : List Event) (later : List Call), s.calls ≠ [] → exec i s = .next t →
    ∃ (t' : State) (evs : List Event), exec i (s.withHistory tr later) = .next t' ∧ t'.mach = t.mach
      ∧ t.trace = s.trace ++ evs ∧ t'.trace = tr ++ evs

/-- R80, R83, R120: every row but XADD (see XaddTraceHasItsBarriers) records its reads, then its writes, then, if it writes both, one NOREORDER, then its flag writes. -/
def Obligations.TraceIsReadsThenWritesThenFlags : Prop :=
  ∀ (i : Instr) (s t : State), (∀ sh w, i ≠ .xadd sh w) → exec i s = .next t →
    ∃ rs ws fs : List Event, t.trace = s.trace ++ (rs ++ ws ++ fs)
      ∧ (∀ e ∈ rs, e.isRead = true) ∧ (∀ e ∈ ws, e.isWrite = true)
      ∧ (fs = [] ∨ ∃ f : FlagWrite, f ≠ FlagWrite.nothing ∧ ((ws = [] ∧ fs = [.wrFlags f]) ∨ (ws ≠ [] ∧ fs = [.noReorder, .wrFlags f])))

/-- R104, R120 step 5: every row but XADD records exactly its reads, first the explicit operands it reads, in slot order, then the implicit ones (log 15). -/
def Obligations.TraceRecordsTheOperandsRead : Prop :=
  ∀ (i : Instr) (s t : State), (∀ sh w, i ≠ .xadd sh w) → exec i s = .next t →
    ∃ rest : List Event, (∀ e ∈ rest, e.isRead = false)
      ∧ t.trace = s.trace
        ++ (((s.handles.zip i.accesses).filter fun x => x.2.reads).flatMap (fun x => readEvent x.1) ++ (implicitReads i).flatMap readEvent ++ rest)

/-- R80, R81: the events an operation records, replayed on the `MachineState` before it, give the `MachineState` after it. -/
def Obligations.TraceReplaysToTheNextState : Prop :=
  ∀ (i : Instr) (s t : State), exec i s = .next t →
    ∃ evs : List Event, t.trace = s.trace ++ evs ∧ replay s.ctx s.mach evs = t.mach

/-- The invariant of the machine is kept by every step. -/
def Obligations.StepKeepsTheInvariant : Prop := ∀ s t : State, s.Inv → step s = .next t → t.Inv

/-- The machine after reset meets the invariant. -/
def Obligations.ResetMeetsTheInvariant : Prop := State.reset.Inv

/-- R48, R74, R360: a context instantiated from any `InitState` meets the invariant; a flag that is not given is `U`; each register of the mode has the
value given; a byte has the value that the first entry for its address gives, and none where no entry does (log 22). -/
def Obligations.InstantiationFollowsInitState : Prop :=
  ∀ (c : Context) (init : InitState) (calls : List Call),
    (instantiate c init calls).Inv ∧ (instantiate c init calls).calls = calls ∧ (instantiate c init calls).ctx = c
    ∧ (instantiate c init calls).trace = []
    ∧ (∀ i : Fin 16, i.val < c.ngpr → ((instantiate c init calls).mach.gpr[i]).toNat = (init.gpr[i]).toNat % 2 ^ c.xlen)
    ∧ (∀ j : Fin 16, j.val < c.nvreg → ((instantiate c init calls).mach.vreg[j]).toNat = (init.vreg[j]).toNat % 2 ^ c.vlen.bits)
    ∧ (init.CF = none → (instantiate c init calls).mach.flags.CF = .u)
    ∧ (init.PF = none → (instantiate c init calls).mach.flags.PF = .u)
    ∧ (init.AF = none → (instantiate c init calls).mach.flags.AF = .u)
    ∧ (init.ZF = none → (instantiate c init calls).mach.flags.ZF = .u)
    ∧ (init.SF = none → (instantiate c init calls).mach.flags.SF = .u)
    ∧ (init.OF = none → (instantiate c init calls).mach.flags.OF = .u)
    ∧ (∀ b, init.CF = some b → (instantiate c init calls).mach.flags.CF = .ofBool b)
    ∧ (∀ b, init.PF = some b → (instantiate c init calls).mach.flags.PF = .ofBool b)
    ∧ (∀ b, init.AF = some b → (instantiate c init calls).mach.flags.AF = .ofBool b)
    ∧ (∀ b, init.ZF = some b → (instantiate c init calls).mach.flags.ZF = .ofBool b)
    ∧ (∀ b, init.SF = some b → (instantiate c init calls).mach.flags.SF = .ofBool b)
    ∧ (∀ b, init.OF = some b → (instantiate c init calls).mach.flags.OF = .ofBool b)
    ∧ (∀ a, (instantiate c init calls).mach.mem.byteAt a = (init.mem.find? fun e => e.1 % 2 ^ c.xlen == a).map Prod.snd)

/-- Reset is the instantiation from the `InitState` that gives no flag and no byte; its registers 0, `MODE64` true, `VLEN` 128 and empty denials are the
model's choice (logs 4, 6, 7). -/
def Obligations.ResetIsAnInstantiation : Prop :=
  State.reset = instantiate ⟨true, .v128, []⟩ ⟨Vector.replicate 16 0, Vector.replicate 16 0, none, none, none, none, none, none, []⟩ []

/-- R43, R44: a step that goes on leaves the context as it is and has made exactly the next call of the driver's list. -/
def Obligations.StepMakesOneCallInTheSameContext : Prop :=
  ∀ s t : State, step s = .next t → t.ctx = s.ctx ∧ ∃ c, s.calls = c :: t.calls

/-- R74: which bytes have a value never changes. -/
def Obligations.StepKeepsTheListedAddresses : Prop :=
  ∀ s t : State, s.mach.mem.wf → step s = .next t → t.mach.mem.map Prod.fst = s.mach.mem.map Prod.fst

/-- R14, R33: a view reads its own bits of the register; a write of a view sets those, an `X32` write clears the bits above, and every other bit is kept.
Reading an operand gives its view of the register, its bytes of memory, the low `VLEN` bits of its vector register, or the immediate as it is, with no
extension (R109); writing one mirrors this and changes nothing else, and an immediate is never written. -/
def Obligations.ViewsReadAndWriteTheirBits : Prop :=
  (∀ (x : GprCell) (k : View) (v : BitVec k.bits) (b : Nat), b < 64 →
    (b < k.bits → (rdView x k).getLsbD b = x.getLsbD (k.low + b))
    ∧ (wrView x k v).getLsbD b =
      (if k.low ≤ b ∧ b < k.low + k.bits then v.getLsbD (b - k.low)
       else if k = .x32 then false else x.getLsbD b))
  ∧ ∀ s : State,
    (∀ (i : Fin 16) (k : View) (v : BitVec k.bits), s.read k.bits (.reg i k) = rdView s.mach.gpr[i] k
      ∧ writeOp s.ctx s.mach ⟨.reg i k, k.bits, v⟩ = { s.mach with gpr := s.mach.gpr.set i (wrView s.mach.gpr[i] k v) })
    ∧ (∀ (a : BitVec 64) (n : Nat) (v : BitVec (8 * n)), (s.read (8 * n) (.mem a n)).toNat = s.mach.mem.read s.ctx.xlen a.toNat n
      ∧ writeOp s.ctx s.mach ⟨.mem a n, 8 * n, v⟩ = { s.mach with mem := s.mach.mem.write s.ctx.xlen a.toNat v n })
    ∧ (∀ (j : Fin 16) (v : BitVec s.ctx.vlen.bits),
      let m := writeOp s.ctx s.mach ⟨.vec j, s.ctx.vlen.bits, v⟩
      (∀ b < s.ctx.vlen.bits, (s.read s.ctx.vlen.bits (.vec j)).getLsbD b = (s.mach.vreg[j]).getLsbD b)
      ∧ (∀ b < s.ctx.vlen.bits, (m.vreg[j]).getLsbD b = v.getLsbD b)
      ∧ (∀ i : Fin 16, i ≠ j → m.vreg[i] = s.mach.vreg[i]) ∧ m = { s.mach with vreg := m.vreg })
    ∧ (∀ (n : Nat) (v w : BitVec n), s.read n (.imm n v) = v ∧ writeOp s.ctx s.mach ⟨.imm n v, n, w⟩ = s.mach)

/-- R71, R72, R73: byte k of a read is the byte at addr + k; a write stores its bytes little-endian and no other; a narrower read at an offset sees the bytes of a wider write in that order. -/
def Obligations.MemoryIsLittleEndian : Prop :=
  ∀ (xlen : Nat) (m : Memory) (addr n : Nat) (v : BitVec (8 * n)), n ≤ 2 ^ xlen →
    (∀ k < n, m.read xlen addr n / 2 ^ (8 * k) % 2 ^ 8 = ((m.byteAt ((addr + k) % 2 ^ xlen)).getD 0).toNat)
    ∧ m.read xlen addr n < 2 ^ (8 * n)
    ∧ (m.write xlen addr v n).read xlen addr n = v.toNat
    ∧ (∀ k < n, (m.write xlen addr v n).byteAt ((addr + k) % 2 ^ xlen) = some (v.extractLsb' (8 * k) 8))
    ∧ (∀ a, (∀ k < n, a ≠ (addr + k) % 2 ^ xlen) → (m.write xlen addr v n).byteAt a = m.byteAt a)
    ∧ ∀ j l, j + l ≤ n → (m.write xlen addr v n).read xlen ((addr + j) % 2 ^ xlen) l = v.toNat / 2 ^ (8 * j) % 2 ^ (8 * l)

/-- R363: a run of n calls ends within n steps in one of four ways: completed, faulted with the state before the call, refused, or stuck. -/
def Obligations.RunEndsInOneOfFourWays : Prop :=
  ∀ s : State,
    (∃ t, Completes s t ∧ t.calls = [] ∧ t.ctx = s.ctx ∧ step t = .refused .runEnded)
    ∨ ∃ (k : Nat) (u : State), k < s.calls.length ∧ Host.Core.run Sys2Proof.core k s = .next u
      ∧ ((∃ c, step u = .fault (.divideError c u.mach))
        ∨ (∃ r, step u = .refused r ∧ (r = .unlisted ∨ r = .modeInapplicable ∨ r = .operandMismatch))
        ∨ step u = .fault .memNotAdmitted)
end

