-- ==== Sys2Proof/Laws/Memory.lean ====
section
/-! SUPPORT. What every memory operation does: reading after writing, leaving other bytes alone, and keeping the canonical form. -/

namespace Sys2Proof.Machine

/-! ### One byte -/

theorem byteAt_setByte_self (m : Memory) (a : Nat) (b : Byte) : (m.setByte a b).byteAt a = some b := by
  induction m with
  | nil => simp [Memory.setByte, Memory.byteAt]
  | cons h t ih =>
    obtain ⟨x, y⟩ := h
    simp only [Memory.setByte]
    split
    · simp [Memory.byteAt]
    · split
      · simp [Memory.byteAt]
      · simp [Memory.byteAt, *]

theorem byteAt_setByte_other (m : Memory) (a c : Nat) (b : Byte) (h : c ≠ a) : (m.setByte a b).byteAt c = m.byteAt c := by
  induction m with
  | nil => simp [Memory.setByte, Memory.byteAt, h]
  | cons e t ih =>
    obtain ⟨x, y⟩ := e
    simp only [Memory.setByte]
    split
    · simp [Memory.byteAt, h]
    · split
      · subst x; simp [Memory.byteAt, h]
      · simp [Memory.byteAt, ih]

/-- The addresses of memory after a byte is set. -/
theorem mem_setByte (m : Memory) (a : Nat) (b : Byte) (c : Host.Cell) (h : c ∈ m.setByte a b) : c = (a, b) ∨ c ∈ m := by
  induction m with
  | nil => simpa [Memory.setByte] using h
  | cons e t ih =>
    obtain ⟨x, y⟩ := e
    simp only [Memory.setByte] at h
    split at h
    · simpa using h
    · split at h
      · rcases List.mem_cons.1 h with h | h
        · exact .inl h
        · exact .inr (List.mem_cons_of_mem _ h)
      · rcases List.mem_cons.1 h with h | h
        · exact .inr (h ▸ List.mem_cons_self ..)
        · rcases ih h with h | h
          · exact .inl h
          · exact .inr (List.mem_cons_of_mem _ h)

theorem setByte_wf (m : Memory) (a : Nat) (b : Byte) (h : m.wf) : (m.setByte a b).wf := by
  induction m with
  | nil => simp [Memory.setByte]
  | cons e t ih =>
    obtain ⟨x, y⟩ := e
    obtain ⟨hx, ht⟩ := List.pairwise_cons.1 h
    simp only [Memory.setByte]
    split
    · rename_i hlt
      refine List.pairwise_cons.2 ⟨fun c hc => ?_, h⟩
      rcases List.mem_cons.1 hc with rfl | hc
      · exact hlt
      · exact Nat.lt_trans hlt (hx c hc)
    · split
      · subst x; exact List.pairwise_cons.2 ⟨hx, ht⟩
      · refine List.pairwise_cons.2 ⟨fun c hc => ?_, ih ht⟩
        rcases mem_setByte t a b c hc with rfl | hc
        · show x < a; omega
        · exact hx c hc

/-- A byte that has a value is listed. -/
theorem mem_of_byteAt (m : Memory) (a : Nat) (b : Byte) (h : m.byteAt a = some b) : (a, b) ∈ m := by
  induction m with
  | nil => simp [Memory.byteAt, Memory.unlisted] at h
  | cons e t ih =>
    obtain ⟨x, y⟩ := e
    simp only [Memory.byteAt] at h
    split at h
    · simp_all
    · exact List.mem_cons_of_mem _ (ih h)

/-- A byte that is listed has a value. -/
theorem byteAt_isSome_of_mem (m : Memory) (c : Host.Cell) (hc : c ∈ m) {a : Nat} (ha : c.1 = a) : (m.byteAt a).isSome = true := by
  induction m with
  | nil => simp at hc
  | cons e t ih =>
    obtain ⟨x, y⟩ := e
    simp only [Memory.byteAt]
    split
    · rfl
    · rcases List.mem_cons.1 hc with rfl | hc
      · simp_all
      · exact ih hc

/-- Setting a byte that has a value adds no address and takes none away. -/
theorem map_fst_setByte (m : Memory) (a : Nat) (b : Byte) (hw : m.wf) (h : (m.byteAt a).isSome) :
    (m.setByte a b).map Prod.fst = m.map Prod.fst := by
  induction m with
  | nil => simp [Memory.byteAt, Memory.unlisted] at h
  | cons e t ih =>
    obtain ⟨x, y⟩ := e
    obtain ⟨hx, ht⟩ := List.pairwise_cons.1 hw
    simp only [Memory.byteAt] at h
    simp only [Memory.setByte]
    split
    · rename_i hlt
      rw [if_neg (by omega)] at h
      obtain ⟨v, hv⟩ := Option.isSome_iff_exists.1 h
      have := hx _ (mem_of_byteAt t a v hv)
      simp at this; omega
    · split
      · subst x; simp
      · rename_i hne
        rw [if_neg hne] at h
        simp [ih ht h]

/-! ### Several bytes -/

theorem byteAddr_lt (xlen addr k : Nat) : byteAddr xlen addr k < 2 ^ xlen := Nat.mod_lt _ (by positivity)

/-- Two bytes of one access are different addresses. -/
theorem byteAddr_inj {xlen addr j k : Nat} (hj : j < 2 ^ xlen) (hk : k < 2 ^ xlen) (h : byteAddr xlen addr j = byteAddr xlen addr k) :
    j = k := by
  have : j ≡ k [MOD 2 ^ xlen] := Nat.ModEq.add_left_cancel' addr h
  rwa [Nat.ModEq, Nat.mod_eq_of_lt hj, Nat.mod_eq_of_lt hk] at this

theorem byteAt_write_other {w : Nat} (xlen : Nat) (m : Memory) (addr : Nat) (v : BitVec w) (n a : Nat)
    (h : ∀ k < n, a ≠ byteAddr xlen addr k) : (m.write xlen addr v n).byteAt a = m.byteAt a := by
  induction n with
  | zero => rfl
  | succ n ih =>
    simp only [Memory.write]
    rw [byteAt_setByte_other _ _ _ _ (h n (by omega)), ih fun k hk => h k (by omega)]

theorem byteAt_write_self {w : Nat} (xlen : Nat) (m : Memory) (addr : Nat) (v : BitVec w) (n k : Nat) (hk : k < n) (hn : n ≤ 2 ^ xlen) :
    (m.write xlen addr v n).byteAt (byteAddr xlen addr k) = some (v.extractLsb' (8 * k) 8) := by
  induction n with
  | zero => omega
  | succ n ih =>
    simp only [Memory.write]
    by_cases he : k = n
    · subst he; exact byteAt_setByte_self _ _ _
    · rw [byteAt_setByte_other _ _ _ _ (fun h => he (byteAddr_inj (by omega) (by omega) h)), ih (by omega) (by omega)]

theorem write_wf {w : Nat} (xlen : Nat) (m : Memory) (addr : Nat) (v : BitVec w) (n : Nat) (h : m.wf) : (m.write xlen addr v n).wf := by
  induction n with
  | zero => exact h
  | succ n ih => exact setByte_wf _ _ _ ih

theorem write_bounded {w : Nat} (xlen : Nat) (m : Memory) (addr : Nat) (v : BitVec w) (n : Nat)
    (h : ∀ c ∈ m, c.1 < 2 ^ xlen) : ∀ c ∈ m.write xlen addr v n, c.1 < 2 ^ xlen := by
  induction n with
  | zero => exact h
  | succ n ih =>
    intro c hc
    rcases mem_setByte _ _ _ _ hc with rfl | hc
    · exact byteAddr_lt _ _ _
    · exact ih c hc

theorem valued_iff (xlen : Nat) (m : Memory) (addr n : Nat) :
    m.valued xlen addr n = true ↔ ∀ k < n, (m.byteAt (byteAddr xlen addr k)).isSome = true := by
  induction n with
  | zero => simp [Memory.valued]
  | succ n ih =>
    simp only [Memory.valued, Bool.and_eq_true, ih]
    exact ⟨fun ⟨h, h'⟩ k hk => (Nat.lt_succ_iff_lt_or_eq.1 hk).elim (h k) (fun e => e ▸ h'),
      fun h => ⟨fun k hk => h k (by omega), h n (by omega)⟩⟩

/-- An access that is admitted touches bytes that have values only (20_memory.md R74). -/
theorem valued_of_memAdmit {c : Context} {m : Memory} {addr n : Nat} {k : AccessKind} (h : memAdmit c m addr n k = true) :
    m.valued c.xlen addr n = true := by
  simp only [memAdmit, Bool.and_eq_true] at h
  exact h.1

/-- A write to bytes that have values adds no address and takes none away (20_memory.md R74). -/
theorem map_fst_write {w : Nat} (xlen : Nat) (m : Memory) (addr : Nat) (v : BitVec w) (n : Nat) (hw : m.wf)
    (h : m.valued xlen addr n = true) : (m.write xlen addr v n).map Prod.fst = m.map Prod.fst := by
  have hv := (valued_iff ..).1 h
  clear h
  induction n with
  | zero => rfl
  | succ n ih =>
    have ih := ih fun k hk => hv k (by omega)
    simp only [Memory.write]
    rw [map_fst_setByte _ _ _ (write_wf _ _ _ _ _ hw), ih]
    by_cases hex : ∃ k < n, byteAddr xlen addr n = byteAddr xlen addr k
    · obtain ⟨k, hk, he⟩ := hex
      by_contra hc
      have hm : byteAddr xlen addr n ∈ m.map Prod.fst := by
        obtain ⟨b, hb⟩ := Option.isSome_iff_exists.1 (hv n (by omega))
        exact List.mem_map.2 ⟨_, mem_of_byteAt _ _ _ hb, rfl⟩
      rw [← ih] at hm
      obtain ⟨c, hc', he'⟩ := List.mem_map.1 hm
      exact hc (byteAt_isSome_of_mem _ c hc' he')
    · rw [byteAt_write_other _ _ _ _ _ _ fun k hk e => hex ⟨k, hk, e⟩]
      exact hv n (by omega)

/-- The value read is below 2^(8n). -/
theorem read_lt (xlen : Nat) (m : Memory) (addr n : Nat) : m.read xlen addr n < 2 ^ (8 * n) := by
  induction n with
  | zero => simp [Memory.read]
  | succ n ih =>
    have hb := ((m.byteAt (byteAddr xlen addr n)).getD 0).isLt
    have : 2 ^ (8 * (n + 1)) = 2 ^ (8 * n) * 2 ^ 8 := by rw [← Nat.pow_add]; rfl
    simp only [Memory.read]
    nlinarith [Nat.two_pow_pos (8 * n)]

/-- Reads see nothing but the bytes of the access. -/
theorem read_congr (xlen : Nat) (m m' : Memory) (addr n : Nat)
    (h : ∀ k < n, m.byteAt (byteAddr xlen addr k) = m'.byteAt (byteAddr xlen addr k)) : m.read xlen addr n = m'.read xlen addr n := by
  induction n with
  | zero => rfl
  | succ n ih => simp only [Memory.read, ih fun k hk => h k (by omega), h n (by omega)]

/-- Little-endian assembly of the low n bytes of a value gives the value modulo 2^(8n). -/
theorem read_write_low {w : Nat} (xlen : Nat) (m : Memory) (addr : Nat) (v : BitVec w) (n j : Nat) (hj : j ≤ n) (hn : n ≤ 2 ^ xlen) :
    (m.write xlen addr v n).read xlen addr j = v.toNat % 2 ^ (8 * j) := by
  induction j with
  | zero => simp [Memory.read, Nat.mod_one]
  | succ j ih =>
    simp only [Memory.read, ih (by omega), byteAt_write_self xlen m addr v n j (by omega) hn, Option.getD_some]
    have h8 : 8 * (j + 1) = 8 * j + 8 := by ring
    rw [h8, Nat.pow_add, Nat.mod_mul]
    simp [BitVec.extractLsb', Nat.shiftRight_eq_div_pow, Nat.mul_comm]

theorem read_write_self {w : Nat} (xlen : Nat) (m : Memory) (addr : Nat) (v : BitVec w) (n : Nat) (hn : n ≤ 2 ^ xlen) :
    (m.write xlen addr v n).read xlen addr n = v.toNat % 2 ^ (8 * n) := read_write_low xlen m addr v n n (le_refl _) hn

/-! ### Filling and building -/

theorem fill_wf (m : Memory) (n : Nat) (h : m.wf) : (m.fill n).wf := by
  induction n with
  | zero => exact h
  | succ n ih => simp only [Memory.fill]; split <;> [exact ih; exact setByte_wf _ _ _ ih]

theorem ofCells_wf (xlen : Nat) (cs : List Host.Cell) : (Memory.ofCells xlen cs).wf := by
  induction cs with
  | nil => simp [Memory.ofCells]
  | cons c cs ih => exact setByte_wf _ _ _ ih

theorem ofCells_bounded (xlen : Nat) (cs : List Host.Cell) : ∀ c ∈ Memory.ofCells xlen cs, c.1 < 2 ^ xlen := by
  induction cs with
  | nil => simp [Memory.ofCells]
  | cons c cs ih =>
    intro d hd
    rcases mem_setByte _ _ _ _ hd with rfl | hd
    · exact Nat.mod_lt _ (by positivity)
    · exact ih d hd

/-- A byte of built memory has the value of the first entry for its address, and none where there is no entry (log 22). -/
theorem byteAt_ofCells (xlen : Nat) (cs : List Host.Cell) (a : Nat) :
    (Memory.ofCells xlen cs).byteAt a = (cs.find? fun e => e.1 % 2 ^ xlen == a).map Prod.snd := by
  induction cs with
  | nil => rfl
  | cons c cs ih =>
    obtain ⟨x, b⟩ := c
    by_cases h : x % 2 ^ xlen = a
    · simp [Memory.ofCells, h, byteAt_setByte_self]
    · simp [Memory.ofCells, h, byteAt_setByte_other _ _ _ _ (Ne.symm h), ih]

/-- Memory at reset has the canonical form. -/
theorem reset_mem_wf : State.reset.mach.mem.wf := List.Pairwise.nil

end Sys2Proof.Machine
end

