-- ==== Sys2Proof/Laws/State.lean ====
section
/-! SUPPORT. One lemma for each field of each update of the state, so that no later proof unfolds a record update. -/

namespace Sys2Proof.Machine

/-! ### Flag writes -/

@[simp] theorem FlagVal.write_none (v : FlagVal) : v.write none = v := rfl
@[simp] theorem FlagVal.write_some (v x : FlagVal) : v.write (some x) = x := rfl
@[simp] theorem FlagVal.ofBool_true : FlagVal.ofBool true = .one := rfl
@[simp] theorem FlagVal.ofBool_false : FlagVal.ofBool false = .zero := rfl
@[simp] theorem FlagWrite.apply_CF (f : FlagWrite) (o : Flags) : (f.apply o).CF = o.CF.write f.CF := rfl
@[simp] theorem FlagWrite.apply_PF (f : FlagWrite) (o : Flags) : (f.apply o).PF = o.PF.write f.PF := rfl
@[simp] theorem FlagWrite.apply_AF (f : FlagWrite) (o : Flags) : (f.apply o).AF = o.AF.write f.AF := rfl
@[simp] theorem FlagWrite.apply_ZF (f : FlagWrite) (o : Flags) : (f.apply o).ZF = o.ZF.write f.ZF := rfl
@[simp] theorem FlagWrite.apply_SF (f : FlagWrite) (o : Flags) : (f.apply o).SF = o.SF.write f.SF := rfl
@[simp] theorem FlagWrite.apply_OF (f : FlagWrite) (o : Flags) : (f.apply o).OF = o.OF.write f.OF := rfl
@[simp] theorem FlagWrite.nothing_apply (o : Flags) : FlagWrite.nothing.apply o = o := rfl

/-! ### Destination writes -/

@[simp] theorem writeOp_flags (c : Context) (m : MachineState) (p : Put) : (writeOp c m p).flags = m.flags := by
  unfold writeOp; split <;> rfl

theorem writeOp_reg (c : Context) (m : MachineState) (i : Fin 16) (k : View) {n : Nat} (v : BitVec n) :
    writeOp c m ⟨.reg i k, n, v⟩ = { m with gpr := m.gpr.set i (wrView m.gpr[i] k (v.setWidth k.bits)) } := rfl

theorem writeOp_vec (c : Context) (m : MachineState) (j : Fin 16) {n : Nat} (v : BitVec n) :
    writeOp c m ⟨.vec j, n, v⟩ = { m with vreg := m.vreg.set j (v.setWidth 256) } := rfl

theorem writeOp_mem (c : Context) (m : MachineState) (a : BitVec 64) (k : Nat) {n : Nat} (v : BitVec n) :
    writeOp c m ⟨.mem a k, n, v⟩ = { m with mem := m.mem.write c.xlen a.toNat v k } := rfl

theorem writeOp_imm (c : Context) (m : MachineState) (b : Nat) (x : BitVec b) {n : Nat} (v : BitVec n) :
    writeOp c m ⟨.imm b x, n, v⟩ = m := rfl

@[simp] theorem writeOps_nil (c : Context) (m : MachineState) : writeOps c m [] = m := rfl
@[simp] theorem writeOps_cons (c : Context) (m : MachineState) (p : Put) (ps : List Put) :
    writeOps c m (p :: ps) = writeOps c (writeOp c m p) ps := rfl

@[simp] theorem writeOps_flags (c : Context) (m : MachineState) (ps : List Put) : (writeOps c m ps).flags = m.flags := by
  induction ps generalizing m with
  | nil => rfl
  | cons p ps ih => simp [ih]

/-! ### `settle` and `commit` -/

@[simp] theorem settle_gpr (c : Context) (m : MachineState) (ps : List Put) (f : FlagWrite) :
    (settle c m ps f).gpr = (writeOps c m ps).gpr := rfl
@[simp] theorem settle_vreg (c : Context) (m : MachineState) (ps : List Put) (f : FlagWrite) :
    (settle c m ps f).vreg = (writeOps c m ps).vreg := rfl
@[simp] theorem settle_mem (c : Context) (m : MachineState) (ps : List Put) (f : FlagWrite) :
    (settle c m ps f).mem = (writeOps c m ps).mem := rfl
@[simp] theorem settle_flags (c : Context) (m : MachineState) (ps : List Put) (f : FlagWrite) :
    (settle c m ps f).flags = f.apply m.flags := rfl

@[simp] theorem commit_ctx (s : State) (rs : List Handle) (ps : List Put) (f : FlagWrite) : (s.commit rs ps f).ctx = s.ctx := rfl
@[simp] theorem commit_calls (s : State) (rs : List Handle) (ps : List Put) (f : FlagWrite) :
    (s.commit rs ps f).calls = s.calls := rfl
@[simp] theorem commit_mach (s : State) (rs : List Handle) (ps : List Put) (f : FlagWrite) :
    (s.commit rs ps f).mach = settle s.ctx s.mach ps f := rfl
@[simp] theorem commit_trace (s : State) (rs : List Handle) (ps : List Put) (f : FlagWrite) :
    (s.commit rs ps f).trace = s.trace ++ (rs.flatMap readEvent ++ ps.flatMap writeEvent ++ flagEvents ps f) := rfl

/-! ### Reading operands -/

@[simp] theorem read_reg (s : State) (n : Nat) (i : Fin 16) (k : View) :
    s.read n (.reg i k) = (rdView s.mach.gpr[i] k).setWidth n := rfl
@[simp] theorem read_vec (s : State) (n : Nat) (j : Fin 16) : s.read n (.vec j) = (s.mach.vreg[j]).setWidth n := rfl
@[simp] theorem read_mem (s : State) (n : Nat) (a : BitVec 64) (k : Nat) :
    s.read n (.mem a k) = BitVec.ofNat n (s.mach.mem.read s.ctx.xlen a.toNat k) := rfl
@[simp] theorem read_imm (s : State) (n b : Nat) (v : BitVec b) : s.read n (.imm b v) = v.setWidth n := rfl

/-! ### Going on to the next call -/

@[simp] theorem advance_next (s : State) : advance (.next s) = .next { s with calls := s.calls.tail } := rfl
@[simp] theorem advance_fault (f : Fault) : advance (.fault f) = .fault f := rfl
@[simp] theorem advance_refused (r : Refusal) : advance (.refused r) = .refused r := rfl

/-! ### Replaying events -/

@[simp] theorem replay_nil (c : Context) (m : MachineState) : replay c m [] = m := rfl
@[simp] theorem replay_cons (c : Context) (m : MachineState) (e : Event) (es : List Event) :
    replay c m (e :: es) = replay c (replayEvent c m e) es := rfl
@[simp] theorem replay_append (c : Context) (m : MachineState) (es fs : List Event) :
    replay c m (es ++ fs) = replay c (replay c m es) fs := by simp [replay]

end Sys2Proof.Machine
end

