-- ==== Sys2Proof/Laws/Operands.lean ====
section
/-! SUPPORT. What reading and writing one operand does: views of a register, reading back what was written, what a write leaves alone, and which handles fit a
slot. -/

namespace Sys2Proof.Machine

/-! ### Views -/

@[simp] theorem rdView_wrView_self (x : GprCell) (k : View) (v : BitVec k.bits) : rdView (wrView x k v) k = v := by
  cases k <;> simp only [View.bits] at v <;> ext b hb <;>
    simp only [rdView, wrView, View.low, View.bits, BitVec.getElem_extractLsb', BitVec.getLsbD_append, BitVec.getLsbD_extractLsb',
      BitVec.getLsbD_setWidth] at hb ⊢ <;>
    simp [hb, BitVec.getLsbD_eq_getElem, show ¬ (8 + b < 8) by omega] <;> omega

/-- A write of a view keeps every bit it may not change (10_state.md R33). -/
theorem wrView_keeps (x : GprCell) (k : View) (v : BitVec k.bits) (b : Nat) (h : viewChanges k b = false) :
    (wrView x k v).getLsbD b = x.getLsbD b := by
  by_cases hb : b < 64
  · cases k <;> simp only [View.bits] at v <;> simp only [viewChanges, decide_eq_false_iff_not, Bool.and_eq_false_iff, reduceCtorEq] at h <;>
      simp only [wrView, BitVec.getLsbD_append, BitVec.getLsbD_extractLsb']
    · rw [if_neg h, show 8 + (b - 8) = b by omega]; simp; omega
    · by_cases h8 : b < 8
      · simp [h8]
      · rw [if_neg h8, if_neg (by omega), show 16 + (b - 8 - 8) = b by omega]; simp; omega
    · rw [if_neg h, show 16 + (b - 16) = b by omega]; simp; omega
  · rw [BitVec.getLsbD_of_ge _ _ (by omega), BitVec.getLsbD_of_ge _ _ (by omega)]

/-- The two 8-bit views of a register do not overlap. -/
theorem rdView_l8_wrView_h8 (x : GprCell) (v : BitVec View.h8.bits) : rdView (wrView x .h8 v) .l8 = rdView x .l8 := by
  simp only [View.bits] at v
  ext b hb
  simp only [rdView, wrView, View.low, View.bits, BitVec.getElem_extractLsb', BitVec.getLsbD_append, BitVec.getLsbD_extractLsb'] at hb ⊢
  simp [hb]

theorem rdView_h8_wrView_l8 (x : GprCell) (v : BitVec View.l8.bits) : rdView (wrView x .l8 v) .h8 = rdView x .h8 := by
  simp only [View.bits] at v
  ext b hb
  simp only [rdView, wrView, View.low, View.bits, BitVec.getElem_extractLsb', BitVec.getLsbD_append, BitVec.getLsbD_extractLsb'] at hb ⊢
  simp [show ¬ (8 + b < 8) by omega, show 8 + b - 8 = b by omega]
  omega

/-- An `X32` write zero-extends (10_state.md R33). -/
theorem wrView_x32_lt (x : GprCell) (v : BitVec View.x32.bits) : (wrView x .x32 v).toNat < 2 ^ 32 := by
  have := v.isLt
  simp only [View.bits] at v this
  simp only [wrView, BitVec.toNat_setWidth]
  omega

/-- Without 64-bit views, a register whose bits 63:32 are zero keeps them zero (10_state.md R33 with `XLEN` = 32). -/
theorem wrView_lt_of_narrow (x : GprCell) (k : View) (v : BitVec k.bits) (hk : k ≠ .x64) (hx : x.toNat < 2 ^ 32) :
    (wrView x k v).toNat < 2 ^ 32 := by
  have hbit : ∀ b, 32 ≤ b → x.getLsbD b = false := fun b hb =>
    Nat.testBit_lt_two_pow (lt_of_lt_of_le hx (Nat.pow_le_pow_right (by omega) hb))
  refine Nat.lt_pow_two_of_testBit _ fun b hb => ?_
  cases k with
  | x64 => exact absurd rfl hk
  | x32 => exact Nat.testBit_lt_two_pow (lt_of_lt_of_le (wrView_x32_lt x v) (Nat.pow_le_pow_right (by omega) hb))
  | l8 => exact (wrView_keeps x .l8 v b (by simp [viewChanges]; omega)).trans (hbit b hb)
  | h8 => exact (wrView_keeps x .h8 v b (by simp [viewChanges]; omega)).trans (hbit b hb)
  | x16 => exact (wrView_keeps x .x16 v b (by simp [viewChanges]; omega)).trans (hbit b hb)

/-! ### Handles -/

/-- A handle that can hold an n-bit value: a view of n bits, a vector register, or n bits of memory. -/
def Sized (c : Context) (n : Nat) : Handle → Prop
  | .reg _ k => k.bits = n
  | .vec _ => n = c.vlen.bits
  | .mem _ bytes => 8 * bytes = n ∧ bytes ≤ 32
  | .imm _ _ => False

theorem vlen_le (v : VLen) : v.bits ≤ 256 := by cases v <;> decide

theorem le_two_pow_xlen (c : Context) : 32 ≤ 2 ^ c.xlen := by
  unfold Context.xlen; split <;> norm_num

/-- `ReadOp` after `WriteOp` of the same operand gives the value written. -/
theorem readOp_writeOp_self (c : Context) (m : MachineState) (h : Handle) {n : Nat} (v : BitVec n) (hs : Sized c n h) :
    readOp c (writeOp c m ⟨h, n, v⟩) n h = v := by
  cases h with
  | reg i k =>
    obtain rfl : k.bits = n := hs
    simp [writeOp_reg, readOp]
  | vec j =>
    obtain rfl : n = c.vlen.bits := hs
    simp [writeOp_vec, readOp, BitVec.setWidth_setWidth_of_le _ (vlen_le c.vlen)]
  | mem a k =>
    obtain ⟨rfl, hk⟩ : 8 * k = n ∧ k ≤ 32 := hs
    simp only [writeOp_mem, readOp, read_write_self c.xlen _ _ _ _ (hk.trans (le_two_pow_xlen c))]
    rw [Nat.mod_eq_of_lt v.isLt]; simp
  | imm b x => exact hs.elim

/-- One destination write changes nothing outside its destination. -/
theorem writeOp_frame (c : Context) (m : MachineState) (p : Put) :
    (∀ (i : Fin 16) (b : Nat), (∀ k, p.dst = .reg i k → viewChanges k b = false) →
      ((writeOp c m p).gpr[i]).getLsbD b = (m.gpr[i]).getLsbD b)
    ∧ (∀ j : Fin 16, p.dst ≠ .vec j → (writeOp c m p).vreg[j] = m.vreg[j])
    ∧ (∀ a : Nat, a ∉ handleBytes c.xlen p.dst → (writeOp c m p).mem.byteAt a = m.mem.byteAt a) := by
  obtain ⟨h, n, v⟩ := p
  cases h with
  | reg i' k =>
    refine ⟨fun i b hk => ?_, fun j _ => rfl, fun a _ => rfl⟩
    by_cases hi : i' = i
    · subst hi; simp [writeOp_reg, wrView_keeps _ _ _ _ (hk k rfl)]
    · have : i'.val ≠ i.val := fun h => hi (Fin.ext h)
      simp [writeOp_reg, this]
  | vec j' =>
    refine ⟨fun i b _ => rfl, fun j hj => ?_, fun a _ => rfl⟩
    have : j'.val ≠ j.val := fun h => hj (congrArg Handle.vec (Fin.ext h))
    simp [writeOp_vec, this]
  | mem addr k =>
    refine ⟨fun i b _ => rfl, fun j _ => rfl, fun a ha => byteAt_write_other _ _ _ _ _ _ fun l hl e => ha ?_⟩
    exact List.mem_map.2 ⟨l, List.mem_range.2 hl, e.symm⟩
  | imm b x => exact ⟨fun _ _ _ => rfl, fun _ _ => rfl, fun _ _ => rfl⟩

/-- Destination writes change nothing outside their destinations. -/
theorem writeOps_frame (c : Context) (m : MachineState) (ps : List Put) :
    (∀ (i : Fin 16) (b : Nat), (∀ k, Handle.reg i k ∈ ps.map Put.dst → viewChanges k b = false) →
      ((writeOps c m ps).gpr[i]).getLsbD b = (m.gpr[i]).getLsbD b)
    ∧ (∀ j : Fin 16, Handle.vec j ∉ ps.map Put.dst → (writeOps c m ps).vreg[j] = m.vreg[j])
    ∧ (∀ a : Nat, (∀ h ∈ ps.map Put.dst, a ∉ handleBytes c.xlen h) → (writeOps c m ps).mem.byteAt a = m.mem.byteAt a) := by
  induction ps generalizing m with
  | nil => exact ⟨fun _ _ _ => rfl, fun _ _ => rfl, fun _ _ => rfl⟩
  | cons p ps ih =>
    obtain ⟨h1, h2, h3⟩ := writeOp_frame c m p
    obtain ⟨i1, i2, i3⟩ := ih (writeOp c m p)
    simp only [List.map_cons, List.mem_cons] at *
    refine ⟨fun i b hk => ?_, fun j hj => ?_, fun a ha => ?_⟩
    · rw [writeOps_cons, i1 i b fun k hm => hk k (.inr hm), h1 i b fun k hm => hk k (.inl hm.symm)]
    · rw [writeOps_cons, i2 j fun hm => hj (.inr hm), h2 j fun hm => hj (.inl hm.symm)]
    · rw [writeOps_cons, i3 a fun h hm => ha h (.inr hm), h3 a (ha _ (.inl rfl))]

/-! ### Slots -/

theorem fits_reg {c : Context} {n : Nat} {h : Handle} (hf : h.fits c (.reg n) = true) :
    ∃ i k, h = .reg i k ∧ k.present c i = true ∧ k.bits = n := by
  cases h <;> simp_all [Handle.fits]

theorem fits_mem {c : Context} {n : Nat} {h : Handle} (hf : h.fits c (.mem n) = true) :
    ∃ a, h = .mem a n ∧ a.toNat < 2 ^ c.xlen := by
  cases h <;> simp_all [Handle.fits]

theorem fits_imm {c : Context} {n : Nat} {h : Handle} (hf : h.fits c (.imm n) = true) : ∃ v, h = .imm n v := by
  cases h with
  | imm b v =>
    obtain rfl : b = n := by simpa [Handle.fits] using hf
    exact ⟨v, rfl⟩
  | reg _ _ | vec _ | mem _ _ => simp [Handle.fits] at hf

theorem fits_vec {c : Context} {h : Handle} (hf : h.fits c .vec = true) : ∃ j, h = .vec j ∧ j.val < c.nvreg := by
  cases h <;> simp_all [Handle.fits]

theorem handlesFit_one {c : Context} {s1 : Slot} {hs : List Handle} (h : handlesFit c [s1] hs = true) :
    ∃ h1, hs = [h1] ∧ h1.fits c s1 = true := by
  match hs with
  | [] | _ :: _ :: _ => simp [handlesFit] at h
  | [h1] => exact ⟨h1, rfl, by simpa [handlesFit] using h⟩

theorem handlesFit_two {c : Context} {s1 s2 : Slot} {hs : List Handle} (h : handlesFit c [s1, s2] hs = true) :
    ∃ h1 h2, hs = [h1, h2] ∧ h1.fits c s1 = true ∧ h2.fits c s2 = true := by
  match hs with
  | [] | [_] | _ :: _ :: _ :: _ => simp [handlesFit] at h
  | [h1, h2] => exact ⟨h1, h2, rfl, by simpa [handlesFit] using h⟩

theorem handlesFit_three {c : Context} {s1 s2 s3 : Slot} {hs : List Handle} (h : handlesFit c [s1, s2, s3] hs = true) :
    ∃ h1 h2 h3, hs = [h1, h2, h3] ∧ h1.fits c s1 = true ∧ h2.fits c s2 = true ∧ h3.fits c s3 = true := by
  match hs with
  | [] | [_] | [_, _] | _ :: _ :: _ :: _ :: _ => simp [handlesFit] at h
  | [h1, h2, h3] => exact ⟨h1, h2, h3, rfl, by simpa [handlesFit] using h⟩

end Sys2Proof.Machine
end

