-- ==== Sys2Proof/Laws/Ops.lean ====
section
/-! SUPPORT. What the shared operations of Machine/Ops.lean do: the checks before an operation, and everything that carrying one out can do. -/

namespace Sys2Proof.Machine

/-! ### Steps 2 to 4 of 30_encoding.md R120 -/

theorem ready_iff (s : State) (i : Instr) :
    s.ready i = true ↔ i.available s.ctx = true ∧ i.operandsFit s.ctx s.handles = true ∧ s.admits i = true := by
  simp [State.ready, and_assoc]

/-- Everything `perform` can do. -/
theorem perform_cases (i : Instr) (s : State) (body : Result) :
    (i.available s.ctx = false ∧ perform i s body = .refused .modeInapplicable)
    ∨ (i.available s.ctx = true ∧ i.operandsFit s.ctx s.handles = false ∧ perform i s body = .refused .operandMismatch)
    ∨ (i.available s.ctx = true ∧ i.operandsFit s.ctx s.handles = true ∧ s.admits i = false ∧ perform i s body = .fault .memNotAdmitted)
    ∨ (s.ready i = true ∧ perform i s body = body) := by
  unfold perform State.ready
  cases i.available s.ctx <;> cases i.operandsFit s.ctx s.handles <;> cases s.admits i <;> simp

theorem perform_ready {i : Instr} {s : State} (body : Result) (h : s.ready i = true) : perform i s body = body := by
  obtain ⟨h1, h2, h3⟩ := (ready_iff s i).1 h
  simp [perform, h1, h2, h3]

/-- If `perform` answers a next state, its checks have passed and the body answers that state. -/
theorem perform_next {i : Instr} {s t : State} {body : Result} (h : perform i s body = .next t) :
    s.ready i = true ∧ body = .next t := by
  rcases perform_cases i s body with ⟨_, e⟩ | ⟨_, _, e⟩ | ⟨_, _, _, e⟩ | ⟨hr, e⟩ <;> rw [e] at h
  · cases h
  · cases h
  · cases h
  · exact ⟨hr, h⟩

/-! ### The handles of a row that is ready -/

theorem handles_cons {s : State} {c : Call} {cs : List Call} (h : s.calls = c :: cs) : s.handles = c.ops := by
  simp [State.handles, h]

theorem operandsFit_of_ready {s : State} {i : Instr} (h : s.ready i = true) :
    handlesFit s.ctx (i.slots s.ctx.vlen) s.handles = true := ((ready_iff s i).1 h).2.1

/-- A row that is ready has a call to run on. -/
theorem calls_ne_nil_of_ready {s : State} {i : Instr} (h : s.ready i = true) : s.calls ≠ [] := by
  intro hc
  have hf := operandsFit_of_ready h
  have hh : s.handles = [] := by simp [State.handles, hc]
  rw [hh] at hf
  revert hf
  unfold Instr.slots Shape.slots
  split <;> split <;> simp [handlesFit]

theorem sized_of_fits_reg {c : Context} {n : Nat} {h : Handle} (hf : h.fits c (.reg n) = true) : Sized c n h := by
  obtain ⟨i, k, rfl, -, hk⟩ := fits_reg hf; exact hk

theorem sized_of_fits_mem {c : Context} {n bytes : Nat} {h : Handle} (hf : h.fits c (.mem bytes) = true) (hn : 8 * bytes = n)
    (hb : bytes ≤ 32) : Sized c n h := by
  obtain ⟨a, rfl, -⟩ := fits_mem hf; exact ⟨hn, hb⟩

/-- The first handle of a scalar row holds a value of the row's width. -/
theorem first_sized {c : Context} {sh : Shape} {w : Width} {bits2 : Nat} {hs : List Handle} (hv : sh ≠ .vv) (hv' : sh ≠ .vm)
    (hf : handlesFit c (sh.slots w.bits w.bytes bits2) hs = true) (d : Handle) : Sized c w.bits (hs.getD 0 d) := by
  have hw : 8 * w.bytes = w.bits ∧ w.bytes ≤ 32 := by cases w <;> decide
  match hs with
  | [] => cases sh <;> simp [Shape.slots, handlesFit] at hf
  | h :: _ =>
    show Sized c w.bits h
    cases sh
    case vv => exact absurd rfl hv
    case vm => exact absurd rfl hv'
    all_goals simp only [Shape.slots, handlesFit, Bool.and_eq_true] at hf
    case m | mr | mi => exact sized_of_fits_mem hf.1 hw.1 hw.2
    all_goals exact sized_of_fits_reg hf.1

/-- op1 of a scalar row that is ready holds a value of the row's width. -/
theorem op1_sized {s : State} {i : Instr} {w : Width} (hw : i.width = some w) (hv : i.shape ≠ .vv) (hv' : i.shape ≠ .vm)
    (h : s.ready i = true) : Sized s.ctx w.bits s.op1 := by
  have hf := operandsFit_of_ready h
  simp only [Instr.slots, hw] at hf
  exact first_sized hv hv' hf _

/-- op1 of a packed row that is ready holds a value of `VLEN` bits. -/
theorem op1_sized_packed {s : State} {i : Instr} {sh : PackedShape} (hw : i.width = none) (hsh : i.shape = sh.shape)
    (h : s.ready i = true) : Sized s.ctx s.ctx.vlen.bits s.op1 := by
  have hf := operandsFit_of_ready h
  simp only [Instr.slots, hw, hsh] at hf
  unfold State.op1 State.operand
  match hhs : s.handles with
  | [] => cases sh <;> simp [Shape.slots, PackedShape.shape, handlesFit, hhs] at hf
  | e :: _ =>
    have hv : e.fits s.ctx .vec = true := by
      cases sh <;> simp only [Shape.slots, PackedShape.shape, handlesFit, hhs, Bool.and_eq_true] at hf <;> exact hf.1
    obtain ⟨j, rfl, -⟩ := fits_vec hv
    rfl

/-! ### Carrying an operation out -/

/-- Destination writes and flag writes change nothing outside the destinations and the flags. -/
theorem settle_frame {s t : State} (ps : List Put) (f : FlagWrite) (hm : t.mach = settle s.ctx s.mach ps f) (hc : t.ctx = s.ctx)
    (hk : t.calls = s.calls) : Frame s t (ps.map Put.dst) := by
  obtain ⟨h1, h2, h3⟩ := writeOps_frame s.ctx s.mach ps
  rw [Frame, hm]
  exact ⟨h1, h2, h3, hc, hk⟩

theorem commit_frame (s : State) (rs : List Handle) (ps : List Put) (f : FlagWrite) :
    Frame s (s.commit rs ps f) (ps.map Put.dst) := settle_frame ps f rfl rfl rfl

/-- The last destination write of an operation can be read back. -/
theorem holds_last {s t : State} (ps : List Put) (h : Handle) {n : Nat} (v : BitVec n) (f : FlagWrite)
    (hm : t.mach = settle s.ctx s.mach (ps ++ [⟨h, n, v⟩]) f) (hc : t.ctx = s.ctx) (hs : Sized s.ctx n h) : Holds t h v := by
  have hw : writeOps s.ctx s.mach (ps ++ [⟨h, n, v⟩]) = writeOp s.ctx (writeOps s.ctx s.mach ps) ⟨h, n, v⟩ := by
    simp [writeOps]
  refine ⟨?_, fun i hi => ?_⟩
  · have := readOp_writeOp_self s.ctx (writeOps s.ctx s.mach ps) h v hs
    rw [← hw] at this
    rw [State.read, hm, hc]
    cases h <;> exact this
  · subst hi
    rw [hm, settle_gpr, hw, writeOp_reg]
    simpa using wrView_x32_lt _ _

/-- A write of another general register leaves an operand's value, and its zero-extension, as it is. -/
theorem readOp_writeOp_reg_other (c : Context) (m : MachineState) (i j : Fin 16) (k k' : View) {n : Nat} (v : BitVec n) (n' : Nat)
    (h : i ≠ j) : readOp c (writeOp c m ⟨.reg i k, n, v⟩) n' (.reg j k') = readOp c m n' (.reg j k') := by
  have : i.val ≠ j.val := fun e => h (Fin.ext e)
  simp [writeOp_reg, readOp, this]

theorem readOp_mem_writeOp_reg (c : Context) (m : MachineState) (i : Fin 16) (k : View) {n : Nat} (v : BitVec n) (n' : Nat)
    (a : BitVec 64) (b : Nat) : readOp c (writeOp c m ⟨.reg i k, n, v⟩) n' (.mem a b) = readOp c m n' (.mem a b) := rfl

/-- Two registers written one after the other both hold their values. -/
theorem holds_first_of_two {s t : State} {i j : Fin 16} {k k' : View} {n : Nat} (v v' : BitVec n) (f : FlagWrite)
    (hm : t.mach = settle s.ctx s.mach [⟨.reg i k, n, v⟩, ⟨.reg j k', n, v'⟩] f) (hij : i ≠ j) (hs : k.bits = n) :
    Holds t (.reg i k) v := by
  have hv : i.val ≠ j.val := fun e => hij (Fin.ext e)
  obtain ⟨h1, h2⟩ := holds_last (s := s) (t := { s with mach := settle s.ctx s.mach [⟨.reg i k, n, v⟩] f }) [] (.reg i k) v f rfl rfl hs
  have hg : t.mach.gpr[i] = (settle s.ctx s.mach [⟨.reg i k, n, v⟩] f).gpr[i] := by
    rw [hm]; simp [writeOp_reg, hv.symm]
  refine ⟨?_, fun l hl => ?_⟩
  · rw [← h1]; simp only [read_reg, hg]
  · obtain ⟨rfl, rfl⟩ : i = l ∧ k = .x32 := by simpa using hl
    rw [hg]; exact h2 i rfl

/-- Everything `binaryOp` does in a state that is ready for its row. -/
theorem binaryOp_spec {i : Instr} {n : Nat} (f : BitVec n → BitVec n → BitVec n × FlagWrite) {s : State} (hr : s.ready i = true)
    (hs : Sized s.ctx n s.op1) :
    ∃ t, binaryOp i n f s = .next t ∧ Holds t s.op1 (f (s.read n s.op1) (s.read n s.op2)).1 ∧ Frame s t [s.op1]
      ∧ t.mach.flags = (f (s.read n s.op1) (s.read n s.op2)).2.apply s.mach.flags :=
  ⟨_, perform_ready _ hr, holds_last [] _ _ _ rfl rfl hs, commit_frame _ _ [_] _, rfl⟩

/-- Everything `unaryOp` does in a state that is ready for its row. -/
theorem unaryOp_spec {i : Instr} {n : Nat} (f : BitVec n → BitVec n × FlagWrite) {s : State} (hr : s.ready i = true)
    (hs : Sized s.ctx n s.op1) :
    ∃ t, unaryOp i n f s = .next t ∧ Holds t s.op1 (f (s.read n s.op1)).1 ∧ Frame s t [s.op1]
      ∧ t.mach.flags = (f (s.read n s.op1)).2.apply s.mach.flags
      ∧ t.trace = s.trace ++ (readEvent s.op1 ++ writeEvent ⟨s.op1, n, (f (s.read n s.op1)).1⟩
          ++ flagEvents [⟨s.op1, n, (f (s.read n s.op1)).1⟩] (f (s.read n s.op1)).2) :=
  ⟨_, perform_ready _ hr, holds_last [] _ _ _ rfl rfl hs, commit_frame _ _ [_] _, rfl, by simp⟩

/-- Everything `compareOp` does in a state that is ready for its row. -/
theorem compareOp_spec {i : Instr} {n : Nat} (f : BitVec n → BitVec n → FlagWrite) {s : State} (hr : s.ready i = true) :
    ∃ t, compareOp i n f s = .next t ∧ Frame s t [] ∧ t.mach.flags = (f (s.read n s.op1) (s.read n s.op2)).apply s.mach.flags
      ∧ t.trace = s.trace ++ (readEvent s.op1 ++ readEvent s.op2 ++ flagEvents [] (f (s.read n s.op1) (s.read n s.op2))) :=
  ⟨_, perform_ready _ hr, commit_frame _ _ [] _, rfl, by simp⟩

/-- Everything `shiftOp` does in a state that is ready for its row. -/
theorem shiftOp_spec {i : Instr} {w : Width} (f : BitVec w.bits → Nat → BitVec w.bits × FlagWrite) {s : State} (hr : s.ready i = true)
    (hs : Sized s.ctx w.bits s.op1) :
    ∃ t, shiftOp i w f s = .next t ∧ Holds t s.op1 (f (s.read w.bits s.op1) (maskedCount w (s.read 8 s.op2))).1 ∧ Frame s t [s.op1]
      ∧ t.mach.flags = (f (s.read w.bits s.op1) (maskedCount w (s.read 8 s.op2))).2.apply s.mach.flags
      ∧ t.trace = s.trace ++ (readEvent s.op1 ++ readEvent s.op2
          ++ writeEvent ⟨s.op1, w.bits, (f (s.read w.bits s.op1) (maskedCount w (s.read 8 s.op2))).1⟩
          ++ flagEvents [⟨s.op1, w.bits, (f (s.read w.bits s.op1) (maskedCount w (s.read 8 s.op2))).1⟩]
            (f (s.read w.bits s.op1) (maskedCount w (s.read 8 s.op2))).2) :=
  ⟨_, perform_ready _ hr, holds_last [] _ _ _ rfl rfl hs, commit_frame _ _ [_] _, rfl, by simp⟩

/-- Everything `multiplyAx` does in a state that is ready for its row. -/
theorem multiplyAx_spec {i : Instr} (p : BitVec 16) (f : FlagWrite) {s : State} (hr : s.ready i = true) :
    ∃ t, multiplyAx i p f s = .next t ∧ Holds t (.reg 0 .x16) p ∧ Frame s t [.reg 0 .x16] ∧ t.mach.flags = f.apply s.mach.flags :=
  ⟨_, perform_ready _ hr, holds_last [] _ _ _ rfl rfl rfl, commit_frame _ _ [_] _, rfl⟩

/-- Everything `multiplySplit` does in a state that is ready for its row. -/
theorem multiplySplit_spec {i : Instr} {w : WideWidth} (lo hi : BitVec w.width.bits) (f : FlagWrite) {s : State}
    (hr : s.ready i = true) :
    ∃ t, multiplySplit i w lo hi f s = .next t ∧ Holds t (.reg 0 w.width.view) lo ∧ Holds t (.reg 2 w.width.view) hi
      ∧ Frame s t [.reg 0 w.width.view, .reg 2 w.width.view] ∧ t.mach.flags = f.apply s.mach.flags := by
  have hb : w.width.view.bits = w.width.bits := by cases w <;> rfl
  exact ⟨_, perform_ready _ hr, holds_first_of_two lo hi f rfl (by decide) hb, holds_last [_] _ _ _ rfl rfl hb,
    commit_frame _ _ [_, _] _, rfl⟩

/-- Everything `divideSplit` does. -/
theorem divideSplit_spec {w : WideWidth} (q r : BitVec w.width.bits) (s : State) :
    Holds (divideSplit w q r s) (.reg 0 w.width.view) q ∧ Holds (divideSplit w q r s) (.reg 2 w.width.view) r
      ∧ Frame s (divideSplit w q r s) [.reg 0 w.width.view, .reg 2 w.width.view]
      ∧ (divideSplit w q r s).mach.flags = ⟨.u, .u, .u, .u, .u, .u⟩ := by
  have hb : w.width.view.bits = w.width.bits := by cases w <;> rfl
  exact ⟨holds_first_of_two q r divRecipe rfl (by decide) hb, holds_last [_] _ _ divRecipe rfl rfl hb, commit_frame _ _ [_, _] _, rfl⟩

/-- Everything `divideAx` does. -/
theorem divideAx_spec (q r : BitVec 8) (s : State) :
    Holds (divideAx q r s) (.reg 0 .l8) q ∧ Holds (divideAx q r s) (.reg 0 .h8) r
      ∧ Frame s (divideAx q r s) [.reg 0 .l8, .reg 0 .h8]
      ∧ (divideAx q r s).mach.flags = ⟨.u, .u, .u, .u, .u, .u⟩ := by
  refine ⟨⟨?_, fun i hi => by simp at hi⟩, holds_last [_] _ _ divRecipe rfl rfl rfl, commit_frame _ _ [_, _] _, rfl⟩
  simp [divideAx, alHandle, ahHandle, writeOp_reg, rdView_l8_wrView_h8]

/-- Everything XADD does to the state, in a state that is ready for it. -/
theorem execXadd_ready {sh : ExchangeShape} {w : Width} {s : State} (hr : s.ready (.xadd sh w) = true) :
    execXadd sh w s = .next { s with
      mach := settle s.ctx s.mach [⟨s.op1, w.bits, s.read w.bits s.op1 + s.read w.bits s.op2⟩, ⟨s.op2, w.bits, s.read w.bits s.op1⟩]
        (addRecipe (s.read w.bits s.op1) (s.read w.bits s.op2) (s.read w.bits s.op1 + s.read w.bits s.op2))
      trace := s.trace ++ xaddEvents s.op1 s.op2 w.bits (s.read w.bits s.op1 + s.read w.bits s.op2) (s.read w.bits s.op1)
        (addRecipe (s.read w.bits s.op1) (s.read w.bits s.op2) (s.read w.bits s.op1 + s.read w.bits s.op2)) } :=
  perform_ready _ hr

/-- The two explicit handles of an XADD that is ready: a register or memory of its width, and a register of its width. -/
theorem xadd_handles {sh : ExchangeShape} {w : Width} {s : State} (hr : s.ready (.xadd sh w) = true) :
    Sized s.ctx w.bits s.op1 ∧ ∃ j k, s.op2 = .reg j k ∧ k.bits = w.bits ∧ k.present s.ctx j = true := by
  refine ⟨op1_sized rfl (by cases sh <;> simp [Instr.shape, ExchangeShape.shape]) (by cases sh <;> simp [Instr.shape, ExchangeShape.shape]) hr, ?_⟩
  have hf := operandsFit_of_ready hr
  cases sh <;>
  · simp only [Instr.slots, Instr.width, Instr.shape, ExchangeShape.shape, Shape.slots, Instr.countBits, Option.getD_none] at hf
    obtain ⟨h1, h2, hh, -, f2⟩ := handlesFit_two hf
    obtain ⟨j, k, rfl, hp, hk⟩ := fits_reg f2
    exact ⟨j, k, by simp [State.op2, State.operand, hh], hk, hp⟩

end Sys2Proof.Machine
end

