-- ==== Sys2Proof/Laws/Exec.lean ====
section
/-! SUPPORT. Everything `exec` and `step` can do, said once: how a row ends, what it writes, and that what it writes exists in the mode. -/

namespace Sys2Proof.Machine

/-! ### Destinations that exist -/

/-- A destination write that the mode has: a present view, a present vector register, or bytes that have values. -/
def Writable (s : State) (p : Put) : Prop :=
  Sized s.ctx p.bits p.dst ∧
  match p.dst with
  | .reg i k => k.present s.ctx i = true
  | .vec j => j.val < s.ctx.nvreg
  | .mem a n => s.mach.mem.valued s.ctx.xlen a.toNat n = true
  | .imm _ _ => False

theorem writable_reg {s : State} {i : Fin 16} {k : View} {n : Nat} {v : BitVec n} (hk : k.bits = n) (hp : k.present s.ctx i = true) :
    Writable s ⟨.reg i k, n, v⟩ := ⟨hk, hp⟩

/-- Registers 0 to 3 have every view in 64-bit mode and every view but `X64` otherwise. -/
theorem present_low (c : Context) (i : Fin 16) (hi : i.val < 4) (w : Width) (hw : w = .w64 → c.mode64 = true) :
    w.view.present c i = true := by
  cases w with
  | w8 => simp [View.present, hi]
  | w16 | w32 =>
    have : i.val < c.ngpr := by unfold Context.ngpr; split <;> omega
    simpa [View.present] using this
  | w64 => exact hw rfl

theorem mode64_of_available {c : Context} {i : Instr} {w : Width} (hi : i.width = some w) (ha : i.available c = true) :
    w = .w64 → c.mode64 = true := by
  rintro rfl; simpa [Instr.available, hi] using ha

/-- The first handle of a row that is ready, where the row writes it, is a destination that exists. -/
theorem writable_op1 {s : State} {i : Instr} {as : List Access} {a : Access} {n : Nat} (v : BitVec n) (hs : Sized s.ctx n s.op1)
    (ha : i.accesses = a :: as) (hw : a.writes = true) (h : s.ready i = true) : Writable s ⟨s.op1, n, v⟩ := by
  obtain ⟨-, hf, hm⟩ := (ready_iff s i).1 h
  refine ⟨hs, ?_⟩
  have hne : i.slots s.ctx.vlen ≠ [] := by unfold Instr.slots Shape.slots; split <;> split <;> simp
  simp only [Instr.operandsFit] at hf
  match hh : s.handles with
  | [] => rw [hh] at hf; cases hsl : i.slots s.ctx.vlen <;> simp_all [handlesFit]
  | e :: es =>
    obtain ⟨sl, sls, hsl⟩ := List.exists_cons_of_ne_nil hne
    rw [hh, hsl] at hf
    simp only [handlesFit, Bool.and_eq_true] at hf
    have h1 : s.op1 = e := by simp [State.op1, State.operand, hh]
    simp only [h1] at hs ⊢
    cases e with
    | reg j k =>
      cases sl <;> simp [Handle.fits] at hf
      exact hf.1.1
    | vec j =>
      cases sl <;> simp [Handle.fits] at hf
      exact hf.1
    | mem b m =>
      simp only [State.admits, hh, ha, admitsOperands, admitsOperand, hw, Bool.and_eq_true] at hm
      exact valued_of_memAdmit (k := .write) (by simpa using hm.1.2)
    | imm _ _ => exact hs.elim

/-! ### Every row -/

/-- How an 8-bit DIV that is ready ends. -/
theorem divAx_ready {i : Instr} {s : State} (h : s.ready i = true) :
    (∃ q r, divAx i s = .next (divideAx q r s)) ∨ ∃ c, divAx i s = .fault (.divideError c s.mach) := by
  rw [divAx, perform_ready _ h]
  split
  · exact .inr ⟨_, rfl⟩
  · exact .inl ⟨_, _, rfl⟩

/-- How a split DIV that is ready ends. -/
theorem divSplit_ready {i : Instr} {s : State} (w : WideWidth) (h : s.ready i = true) :
    (∃ q r, divSplit i w s = .next (divideSplit w q r s)) ∨ ∃ c, divSplit i w s = .fault (.divideError c s.mach) := by
  rw [divSplit, perform_ready _ h]
  split
  · exact .inr ⟨_, rfl⟩
  · exact .inl ⟨_, _, rfl⟩

/-- How an 8-bit IDIV that is ready ends. -/
theorem idivAx_ready {i : Instr} {s : State} (h : s.ready i = true) :
    (∃ q r, idivAx i s = .next (divideAx q r s)) ∨ ∃ c, idivAx i s = .fault (.divideError c s.mach) := by
  rw [idivAx, perform_ready _ h]
  split
  · exact .inr ⟨_, rfl⟩
  · exact .inl ⟨_, _, rfl⟩

/-- How a split IDIV that is ready ends. -/
theorem idivSplit_ready {i : Instr} {s : State} (w : WideWidth) (h : s.ready i = true) :
    (∃ q r, idivSplit i w s = .next (divideSplit w q r s)) ∨ ∃ c, idivSplit i w s = .fault (.divideError c s.mach) := by
  rw [idivSplit, perform_ready _ h]
  split
  · exact .inr ⟨_, rfl⟩
  · exact .inl ⟨_, _, rfl⟩

/-- How a row that is ready ends, when it is not XADD: it carries out writes that exist, or it raises the block's fault. -/
theorem exec_ready {i : Instr} {s : State} (h : s.ready i = true) (hx : ∀ sh w, i ≠ .xadd sh w) :
    (∃ rs ps f, exec i s = .next (s.commit rs ps f) ∧ ∀ p ∈ ps, Writable s p)
    ∨ ((∃ sh w, i = .div sh w ∨ i = .idiv sh w) ∧ ∃ c, exec i s = .fault (.divideError c s.mach)) := by
  have hav := ((ready_iff s i).1 h).1
  have one : ∀ {n : Nat} (v : BitVec n) (w : Width), i.width = some w → n = w.bits → i.shape ≠ .vv → i.shape ≠ .vm →
      (∃ a as, i.accesses = a :: as ∧ a.writes = true) → ∀ p ∈ [(⟨s.op1, n, v⟩ : Put)], Writable s p := by
    rintro n v w hw rfl h1 h2 ⟨a, as, ha, hr⟩ p hp
    obtain rfl := List.mem_singleton.1 hp
    exact writable_op1 v (op1_sized hw h1 h2 h) ha hr h
  have pack : ∀ {sh : PackedShape} (v : BitVec s.ctx.vlen.bits), i.width = none → i.shape = sh.shape →
      (∃ a as, i.accesses = a :: as ∧ a.writes = true) → ∀ p ∈ [(⟨s.op1, s.ctx.vlen.bits, v⟩ : Put)], Writable s p := by
    rintro sh v hw h1 ⟨a, as, ha, hr⟩ p hp
    obtain rfl := List.mem_singleton.1 hp
    exact writable_op1 v (op1_sized_packed hw h1 h) ha hr h
  have two : ∀ {i1 i2 : Fin 16} {w : Width} (v v' : BitVec w.bits), i.width = some w → i1.val < 4 → i2.val < 4 →
      ∀ p ∈ [(⟨.reg i1 w.view, w.bits, v⟩ : Put), ⟨.reg i2 w.view, w.bits, v'⟩], Writable s p := by
    intro i1 i2 w v v' hw h1 h2 p hp
    have hb : w.view.bits = w.bits := by cases w <;> rfl
    have hm := mode64_of_available hw hav
    simp only [List.mem_cons, List.not_mem_nil, or_false] at hp
    rcases hp with rfl | rfl
    · exact writable_reg hb (present_low _ _ h1 _ hm)
    · exact writable_reg hb (present_low _ _ h2 _ hm)
  have byte : ∀ (q r : BitVec 8), ∀ p ∈ [(⟨alHandle, 8, q⟩ : Put), ⟨ahHandle, 8, r⟩], Writable s p := by
    intro q r p hp
    simp only [List.mem_cons, List.not_mem_nil, or_false] at hp
    rcases hp with rfl | rfl
    · exact writable_reg rfl (by simp [View.present])
    · exact writable_reg rfl (by simp [View.present])
  have ax : ∀ (v : BitVec 16), ∀ p ∈ [(⟨axHandle, 16, v⟩ : Put)], Writable s p := by
    intro v p hp
    obtain rfl := List.mem_singleton.1 hp
    exact writable_reg rfl (present_low _ _ (by decide) .w16 (by simp))
  cases i with
  | add sh w | adc sh w | sub sh w | sbb sh w | and sh w | or sh w | xor sh w =>
    exact .inl ⟨_, _, _, perform_ready _ h, one _ w rfl rfl (by cases sh <;> simp [Instr.shape, BinaryShape.shape])
      (by cases sh <;> simp [Instr.shape, BinaryShape.shape]) ⟨_, _, rfl, rfl⟩⟩
  | inc sh w | dec sh w | neg sh w | not sh w =>
    exact .inl ⟨_, _, _, perform_ready _ h, one _ w rfl rfl (by cases sh <;> simp [Instr.shape, UnaryShape.shape])
      (by cases sh <;> simp [Instr.shape, UnaryShape.shape]) ⟨_, _, rfl, rfl⟩⟩
  | shl sh w | shr sh w | sar sh w =>
    exact .inl ⟨_, _, _, perform_ready _ h, one _ w rfl rfl (by cases sh <;> simp [Instr.shape, NoRmShape.shape])
      (by cases sh <;> simp [Instr.shape, NoRmShape.shape]) ⟨_, _, rfl, rfl⟩⟩
  | imul2 sh w =>
    exact .inl ⟨_, _, _, perform_ready _ h, one _ w.width rfl rfl (by cases sh <;> simp [Instr.shape, RegSrcShape.shape])
      (by cases sh <;> simp [Instr.shape, RegSrcShape.shape]) ⟨_, _, rfl, rfl⟩⟩
  | imul3 sh w =>
    exact .inl ⟨_, _, _, perform_ready _ h, one _ w.width rfl rfl (by cases sh <;> simp [Instr.shape, ImmSrcShape.shape])
      (by cases sh <;> simp [Instr.shape, ImmSrcShape.shape]) ⟨_, _, rfl, rfl⟩⟩
  | pand sh | por sh | pxor sh | pandn sh => exact .inl ⟨_, _, _, perform_ready _ h, pack _ rfl rfl ⟨_, _, rfl, rfl⟩⟩
  | cmp sh w | test sh w | ptest sh => exact .inl ⟨_, _, _, perform_ready _ h, by simp⟩
  | mul sh w | imul1 sh w =>
    cases w with
    | w8 => exact .inl ⟨_, _, _, perform_ready _ h, ax _⟩
    | w16 => exact .inl ⟨_, _, _, perform_ready _ h, two (w := .w16) _ _ rfl (by decide) (by decide)⟩
    | w32 => exact .inl ⟨_, _, _, perform_ready _ h, two (w := .w32) _ _ rfl (by decide) (by decide)⟩
    | w64 => exact .inl ⟨_, _, _, perform_ready _ h, two (w := .w64) _ _ rfl (by decide) (by decide)⟩
  | div sh w =>
    cases w with
    | w8 =>
      rcases divAx_ready h with ⟨q, r, e⟩ | ⟨c, e⟩
      · exact .inl ⟨_, _, _, e, byte q r⟩
      · exact .inr ⟨⟨_, _, .inl rfl⟩, c, e⟩
    | w16 =>
      rcases divSplit_ready .w16 h with ⟨q, r, e⟩ | ⟨c, e⟩
      · exact .inl ⟨_, _, _, e, two (w := .w16) q r rfl (by decide) (by decide)⟩
      · exact .inr ⟨⟨_, _, .inl rfl⟩, c, e⟩
    | w32 =>
      rcases divSplit_ready .w32 h with ⟨q, r, e⟩ | ⟨c, e⟩
      · exact .inl ⟨_, _, _, e, two (w := .w32) q r rfl (by decide) (by decide)⟩
      · exact .inr ⟨⟨_, _, .inl rfl⟩, c, e⟩
    | w64 =>
      rcases divSplit_ready .w64 h with ⟨q, r, e⟩ | ⟨c, e⟩
      · exact .inl ⟨_, _, _, e, two (w := .w64) q r rfl (by decide) (by decide)⟩
      · exact .inr ⟨⟨_, _, .inl rfl⟩, c, e⟩
  | idiv sh w =>
    cases w with
    | w8 =>
      rcases idivAx_ready h with ⟨q, r, e⟩ | ⟨c, e⟩
      · exact .inl ⟨_, _, _, e, byte q r⟩
      · exact .inr ⟨⟨_, _, .inr rfl⟩, c, e⟩
    | w16 =>
      rcases idivSplit_ready .w16 h with ⟨q, r, e⟩ | ⟨c, e⟩
      · exact .inl ⟨_, _, _, e, two (w := .w16) q r rfl (by decide) (by decide)⟩
      · exact .inr ⟨⟨_, _, .inr rfl⟩, c, e⟩
    | w32 =>
      rcases idivSplit_ready .w32 h with ⟨q, r, e⟩ | ⟨c, e⟩
      · exact .inl ⟨_, _, _, e, two (w := .w32) q r rfl (by decide) (by decide)⟩
      · exact .inr ⟨⟨_, _, .inr rfl⟩, c, e⟩
    | w64 =>
      rcases idivSplit_ready .w64 h with ⟨q, r, e⟩ | ⟨c, e⟩
      · exact .inl ⟨_, _, _, e, two (w := .w64) q r rfl (by decide) (by decide)⟩
      · exact .inr ⟨⟨_, _, .inr rfl⟩, c, e⟩
  | xadd sh w => exact absurd rfl (hx sh w)

/-- Every row begins with steps 2 to 4 of 30_encoding.md R120. -/
theorem exec_eq_perform (i : Instr) (s : State) : ∃ body, exec i s = perform i s body := by
  cases i with
  | mul sh w | imul1 sh w | div sh w | idiv sh w => cases w <;> exact ⟨_, rfl⟩
  | add | adc | sub | sbb | cmp | inc | dec | neg | and | or | xor | test | not | pand | por | pxor | pandn | ptest | imul2 | imul3
    | shl | shr | sar | xadd => exact ⟨_, rfl⟩

/-- The four ways through the checks of a row. -/
theorem exec_checks (i : Instr) (s : State) :
    (i.available s.ctx = false ∧ exec i s = .refused .modeInapplicable)
    ∨ (i.available s.ctx = true ∧ i.operandsFit s.ctx s.handles = false ∧ exec i s = .refused .operandMismatch)
    ∨ (i.available s.ctx = true ∧ i.operandsFit s.ctx s.handles = true ∧ s.admits i = false ∧ exec i s = .fault .memNotAdmitted)
    ∨ s.ready i = true := by
  obtain ⟨body, e⟩ := exec_eq_perform i s
  rw [e]
  rcases perform_cases i s body with h | h | h | h
  · exact .inl h
  · exact .inr (.inl h)
  · exact .inr (.inr (.inl h))
  · exact .inr (.inr (.inr h.1))

/-- The two destinations of an XADD that is ready exist. -/
theorem xadd_writable {sh : ExchangeShape} {w : Width} {s : State} (h : s.ready (.xadd sh w) = true) (x y : BitVec w.bits) :
    ∀ p ∈ [(⟨s.op1, w.bits, x⟩ : Put), ⟨s.op2, w.bits, y⟩], Writable s p := by
  obtain ⟨hs, j, k, h2, hk, hp⟩ := xadd_handles h
  intro p hp'
  simp only [List.mem_cons, List.not_mem_nil, or_false] at hp'
  rcases hp' with rfl | rfl
  · exact writable_op1 x hs rfl rfl h
  · rw [h2]; exact writable_reg hk hp

/-- Everything a row does when it goes on: it was ready, and what changed is destinations that exist, flags, and events added to the trace. -/
theorem exec_next {i : Instr} {s t : State} (h : exec i s = .next t) :
    s.ready i = true ∧ ∃ ps f evs,
      t = { s with mach := settle s.ctx s.mach ps f, trace := s.trace ++ evs } ∧ ∀ p ∈ ps, Writable s p := by
  obtain ⟨body, e⟩ := exec_eq_perform i s
  obtain ⟨hr, -⟩ := perform_next (e ▸ h)
  refine ⟨hr, ?_⟩
  by_cases hx : ∃ sh w, i = .xadd sh w
  · obtain ⟨sh, w, rfl⟩ := hx
    obtain rfl := Host.Outcome.next.inj ((execXadd_ready hr).symm.trans h)
    exact ⟨_, _, _, rfl, xadd_writable hr _ _⟩
  · push Not at hx
    rcases exec_ready hr hx with ⟨rs, ps, f, e, hw⟩ | ⟨-, c, e⟩
    · obtain rfl := Host.Outcome.next.inj (e.symm.trans h)
      exact ⟨ps, f, _, rfl, hw⟩
    · rw [e] at h; cases h

/-- A step that goes on has run the row of the present call and dropped that call. -/
theorem step_next {s t : State} (h : step s = .next t) :
    ∃ c cs i u, s.calls = c :: cs ∧ decode c.ctl = .ok i ∧ exec i s = .next u ∧ t = { u with calls := cs } := by
  unfold step at h
  split at h
  · cases h
  · rename_i c cs hc
    split at h
    · cases h
    · rename_i i hd
      cases he : exec i s with
      | next u =>
        rw [he, advance_next] at h
        obtain ⟨-, ps, f, evs, rfl, -⟩ := exec_next he
        refine ⟨c, cs, i, _, hc, hd, he, ?_⟩
        simpa [hc] using (Host.Outcome.next.inj h).symm
      | fault f => rw [he] at h; cases h
      | refused r => rw [he] at h; cases h

end Sys2Proof.Machine
end

