-- ==== Sys2Proof/Laws/Flags.lean ====
section
/-! SUPPORT. What each flag recipe of Machine/Flags.lean leaves in the flags, and the count mask of the shifts. -/

namespace Sys2Proof.Machine

theorem zeroFlag_eq {n : Nat} (r : BitVec n) : zeroFlag r = decide (r = 0) := by
  rw [zeroFlag, decide_eq_decide]
  exact ⟨fun h => BitVec.eq_of_toNat_eq (by simpa using h), fun h => by simp [h]⟩

/-- The recipe of ADD, ADC, SUB, SBB, CMP, NEG and XADD, which write all six flags. -/
theorem arithRecipe_some_apply {n : Nat} (cf af of : Bool) (r : BitVec n) (o : Flags) :
    (arithRecipe (some cf) af of r).apply o =
      ⟨.ofBool cf, .ofBool (parityFlag r), .ofBool af, .ofBool (decide (r = 0)), .ofBool r.msb, .ofBool of⟩ := by
  simp [arithRecipe, FlagWrite.apply, zeroFlag_eq, signFlag]

/-- The recipe of INC and DEC, which keep CF. -/
theorem arithRecipe_none_apply {n : Nat} (af of : Bool) (r : BitVec n) (o : Flags) :
    (arithRecipe none af of r).apply o =
      ⟨o.CF, .ofBool (parityFlag r), .ofBool af, .ofBool (decide (r = 0)), .ofBool r.msb, .ofBool of⟩ := by
  simp [arithRecipe, FlagWrite.apply, zeroFlag_eq, signFlag]

theorem logicRecipe_apply {n : Nat} (r : BitVec n) (o : Flags) :
    (logicRecipe r).apply o = ⟨.zero, .ofBool (parityFlag r), .u, .ofBool (decide (r = 0)), .ofBool r.msb, .zero⟩ := by
  simp [logicRecipe, FlagWrite.apply, zeroFlag_eq, signFlag]

@[simp] theorem packedRecipe_apply (o : Flags) : packedRecipe.apply o = ⟨.zero, .zero, .zero, .zero, .zero, .zero⟩ := rfl
@[simp] theorem divRecipe_apply (o : Flags) : divRecipe.apply o = ⟨.u, .u, .u, .u, .u, .u⟩ := rfl
@[simp] theorem mulRecipe_apply (n p : Nat) (o : Flags) :
    (mulRecipe n p).apply o = ⟨.ofBool (lostUnsigned n p), .u, .u, .u, .u, .ofBool (lostUnsigned n p)⟩ := rfl
@[simp] theorem imulRecipe_apply (n : Nat) (p : Int) (o : Flags) :
    (imulRecipe n p).apply o = ⟨.ofBool (lostSigned n p), .u, .u, .u, .ofBool (BitVec.ofInt n p).msb, .ofBool (lostSigned n p)⟩ := rfl

/-- Class A of 45_shift.md R301: no flag is written. -/
@[simp] theorem shiftRecipe_zero {n : Nat} (cf of : Bool) (r : BitVec n) : shiftRecipe 0 cf of r = FlagWrite.nothing := rfl

/-- Classes B to D of 45_shift.md R301. -/
theorem shiftRecipe_pos_apply {n c : Nat} (cf of : Bool) (r : BitVec n) (o : Flags) (hc : 0 < c) :
    (shiftRecipe c cf of r).apply o =
      ⟨if c < n then .ofBool cf else .u, .ofBool (parityFlag r), .u, .ofBool (decide (r = 0)), .ofBool r.msb,
        if c = 1 then .ofBool of else .u⟩ := by
  simp [shiftRecipe, Nat.pos_iff_ne_zero.1 hc, FlagWrite.apply, zeroFlag_eq, signFlag]

/-- The masked count is the count modulo 32, or modulo 64 for W = 64 (45_shift.md R300). -/
theorem maskedCount_eq (w : Width) (x : BitVec 8) : maskedCount w x = x.toNat % (if w = .w64 then 64 else 32) := by
  cases w
  · exact Nat.and_two_pow_sub_one_eq_mod _ 5
  · exact Nat.and_two_pow_sub_one_eq_mod _ 5
  · exact Nat.and_two_pow_sub_one_eq_mod _ 5
  · exact Nat.and_two_pow_sub_one_eq_mod _ 6

end Sys2Proof.Machine
end

