-- ==== Sys2Proof/Laws/PerInstr.lean ====
section
/-! SUPPORT. Facts about every row as syntax, one lemma for each constructor of `Instr`: no row has more than one memory operand (30_encoding.md R102, 20_memory.md
R76). -/

namespace Sys2Proof.Laws.OneMemoryOperand

/-- Whether a slot takes a memory operand. -/
def isMemory : Slot → Bool
  | .mem _ => true
  | .reg _ => false
  | .imm _ => false
  | .vec => false

/-- At every `VLEN`, at most one slot of the row takes memory, and the row's first or second operand is where it stands. -/
def Statement (i : Instr) : Prop :=
  ∀ v : VLen, (i.slots v).countP isMemory ≤ 1 ∧ ∀ k s, (i.slots v)[k]? = some s → isMemory s = true → k ≤ 1

/-- No shape has more than one memory operand, and none has it third. -/
theorem ofShape (sh : Shape) (bits bytes bits2 : Nat) :
    (sh.slots bits bytes bits2).countP isMemory ≤ 1
      ∧ ∀ k s, (sh.slots bits bytes bits2)[k]? = some s → isMemory s = true → k ≤ 1 := by
  cases sh <;> refine ⟨by simp [Shape.slots, List.countP_cons, isMemory], fun k s h hs => ?_⟩ <;>
    match k, h with
    | 0, _ | 1, _ => omega
    | 2, h => simp [Shape.slots] at h <;> subst h <;> cases hs
    | _ + 3, h => simp [Shape.slots] at h

theorem add (sh : BinaryShape) (w : Width) : Statement (.add sh w) := fun _ => ofShape ..
theorem adc (sh : BinaryShape) (w : Width) : Statement (.adc sh w) := fun _ => ofShape ..
theorem sub (sh : BinaryShape) (w : Width) : Statement (.sub sh w) := fun _ => ofShape ..
theorem sbb (sh : BinaryShape) (w : Width) : Statement (.sbb sh w) := fun _ => ofShape ..
theorem cmp (sh : BinaryShape) (w : Width) : Statement (.cmp sh w) := fun _ => ofShape ..
theorem inc (sh : UnaryShape) (w : Width) : Statement (.inc sh w) := fun _ => ofShape ..
theorem dec (sh : UnaryShape) (w : Width) : Statement (.dec sh w) := fun _ => ofShape ..
theorem neg (sh : UnaryShape) (w : Width) : Statement (.neg sh w) := fun _ => ofShape ..
theorem and (sh : BinaryShape) (w : Width) : Statement (.and sh w) := fun _ => ofShape ..
theorem or (sh : BinaryShape) (w : Width) : Statement (.or sh w) := fun _ => ofShape ..
theorem xor (sh : BinaryShape) (w : Width) : Statement (.xor sh w) := fun _ => ofShape ..
theorem test (sh : NoRmShape) (w : Width) : Statement (.test sh w) := fun _ => ofShape ..
theorem not (sh : UnaryShape) (w : Width) : Statement (.not sh w) := fun _ => ofShape ..
theorem pand (sh : PackedShape) : Statement (.pand sh) := fun _ => ofShape ..
theorem por (sh : PackedShape) : Statement (.por sh) := fun _ => ofShape ..
theorem pxor (sh : PackedShape) : Statement (.pxor sh) := fun _ => ofShape ..
theorem pandn (sh : PackedShape) : Statement (.pandn sh) := fun _ => ofShape ..
theorem ptest (sh : PackedShape) : Statement (.ptest sh) := fun _ => ofShape ..
theorem mul (sh : UnaryShape) (w : Width) : Statement (.mul sh w) := fun _ => ofShape ..
theorem imul1 (sh : UnaryShape) (w : Width) : Statement (.imul1 sh w) := fun _ => ofShape ..
theorem imul2 (sh : RegSrcShape) (w : WideWidth) : Statement (.imul2 sh w) := fun _ => ofShape ..
theorem imul3 (sh : ImmSrcShape) (w : WideWidth) : Statement (.imul3 sh w) := fun _ => ofShape ..
theorem div (sh : UnaryShape) (w : Width) : Statement (.div sh w) := fun _ => ofShape ..
theorem idiv (sh : UnaryShape) (w : Width) : Statement (.idiv sh w) := fun _ => ofShape ..
theorem shl (sh : NoRmShape) (w : Width) : Statement (.shl sh w) := fun _ => ofShape ..
theorem shr (sh : NoRmShape) (w : Width) : Statement (.shr sh w) := fun _ => ofShape ..
theorem sar (sh : NoRmShape) (w : Width) : Statement (.sar sh w) := fun _ => ofShape ..
theorem xadd (sh : ExchangeShape) (w : Width) : Statement (.xadd sh w) := fun _ => ofShape ..

end Sys2Proof.Laws.OneMemoryOperand
end

