-- ==== Sys2Proof/Tests/Slice0.lean ====
section
/-! SUPPORT. Small checks of the model, each about one step on a small state. Expected results come from the words of 30_encoding.md and the vectors of
95_test_vectors.md, whose number stands in each comment. Theorems named witness_ show that the hypotheses of an obligation can be met. -/

namespace Sys2Proof.Tests

open Sys2Proof.Machine

/-! ### Helpers -/

/-- A 64-bit context with `VLEN` 128 and nothing denied. -/
def c64 : Context := ⟨true, .v128, []⟩

/-- The same without `MODE64`. -/
def c32 : Context := ⟨false, .v128, []⟩

/-- The value listed for a number, or 0. -/
def listed (l : List (Nat × Nat)) (k : Nat) : Nat := (l.lookup k).getD 0

/-- A state of context c with the listed registers, vector registers, flags and memory, whose one call is row i on the handles ops with draw d. -/
def onCall (c : Context) (gpr vreg : List (Nat × Nat)) (f : Flags) (mem : Memory) (i : Instr) (ops : List Handle) (d : Bool) : State where
  ctx := c
  mach := ⟨Vector.ofFn fun k => BitVec.ofNat 64 (listed gpr k), f, Vector.ofFn fun k => BitVec.ofNat 256 (listed vreg k), mem⟩
  calls := [⟨encode i, ops, d⟩]
  trace := []

/-- A 64-bit state with the listed registers and every flag 0. -/
def on (gpr : List (Nat × Nat)) (i : Instr) (ops : List Handle) : State :=
  onCall c64 gpr [] ⟨.zero, .zero, .zero, .zero, .zero, .zero⟩ [] i ops false

/-- A 64-bit state with the listed vector registers and every flag `U`. -/
def onVec (vreg : List (Nat × Nat)) (i : Instr) (ops : List Handle) : State := onCall c64 [] vreg Flags.unset [] i ops false

/-- A 64-bit state with memory and registers and every flag `U`. -/
def onMem (gpr : List (Nat × Nat)) (mem : Memory) (i : Instr) (ops : List Handle) : State := onCall c64 gpr [] Flags.unset mem i ops false

def nextOf : Result → Option State
  | .next t => some t
  | .fault _ => none
  | .refused _ => none

def faultOf : Result → Option Fault
  | .next _ => none
  | .fault f => some f
  | .refused _ => none

def refusalOf : Result → Option Refusal
  | .next _ => none
  | .fault _ => none
  | .refused r => some r

/-- The value of an operand, as a number, and the flags after a step that goes on. -/
def after (r : Result) (n : Nat) (h : Handle) : Option (Nat × Flags) := (nextOf r).map fun t => ((t.read n h).toNat, t.mach.flags)

abbrev al : Handle := .reg 0 .l8
abbrev ah : Handle := .reg 0 .h8
abbrev ax : Handle := .reg 0 .x16
abbrev eax : Handle := .reg 0 .x32
abbrev rax : Handle := .reg 0 .x64
abbrev cl : Handle := .reg 1 .l8
abbrev cx : Handle := .reg 1 .x16
abbrev ecx : Handle := .reg 1 .x32
abbrev rcx : Handle := .reg 1 .x64
abbrev dx : Handle := .reg 2 .x16
abbrev edx : Handle := .reg 2 .x32
abbrev rdx : Handle := .reg 2 .x64
abbrev bl : Handle := .reg 3 .l8
abbrev imm8 (v : Nat) : Handle := .imm 8 (BitVec.ofNat 8 v)
abbrev imm16 (v : Nat) : Handle := .imm 16 (BitVec.ofNat 16 v)
abbrev imm32 (v : Nat) : Handle := .imm 32 (BitVec.ofNat 32 v)

/-! ### Words written out from 30_encoding.md R100 to R103, as OP, SH, WC -/

theorem test_decode_arithmetic :
    decode (0x01#8 ++ 0x2#4 ++ 0x0#4) = .ok (.add .rr .w8)
    ∧ decode (0x02#8 ++ 0x3#4 ++ 0x1#4) = .ok (.adc .rm .w16)
    ∧ decode (0x03#8 ++ 0x4#4 ++ 0x2#4) = .ok (.sub .mr .w32)
    ∧ decode (0x04#8 ++ 0x5#4 ++ 0x3#4) = .ok (.sbb .ri .w64)
    ∧ decode (0x05#8 ++ 0x6#4 ++ 0x0#4) = .ok (.cmp .mi .w8)
    ∧ decode (0x06#8 ++ 0x0#4 ++ 0x1#4) = .ok (.inc .r .w16)
    ∧ decode (0x07#8 ++ 0x1#4 ++ 0x2#4) = .ok (.dec .m .w32)
    ∧ decode (0x08#8 ++ 0x0#4 ++ 0x3#4) = .ok (.neg .r .w64) := by decide

theorem test_decode_logical :
    decode (0x10#8 ++ 0x2#4 ++ 0x0#4) = .ok (.and .rr .w8)
    ∧ decode (0x11#8 ++ 0x3#4 ++ 0x1#4) = .ok (.or .rm .w16)
    ∧ decode (0x12#8 ++ 0x4#4 ++ 0x2#4) = .ok (.xor .mr .w32)
    ∧ decode (0x13#8 ++ 0x5#4 ++ 0x3#4) = .ok (.test .ri .w64)
    ∧ decode (0x14#8 ++ 0x1#4 ++ 0x0#4) = .ok (.not .m .w8) := by decide

theorem test_decode_packed :
    decode (0x18#8 ++ 0x9#4 ++ 0x4#4) = .ok (.pand .vv)
    ∧ decode (0x19#8 ++ 0xA#4 ++ 0x4#4) = .ok (.por .vm)
    ∧ decode (0x1A#8 ++ 0x9#4 ++ 0x4#4) = .ok (.pxor .vv)
    ∧ decode (0x1B#8 ++ 0xA#4 ++ 0x4#4) = .ok (.pandn .vm)
    ∧ decode (0x1C#8 ++ 0x9#4 ++ 0x4#4) = .ok (.ptest .vv) := by decide

theorem test_decode_multiply_divide :
    decode (0x20#8 ++ 0x0#4 ++ 0x0#4) = .ok (.mul .r .w8)
    ∧ decode (0x21#8 ++ 0x1#4 ++ 0x1#4) = .ok (.imul1 .m .w16)
    ∧ decode (0x22#8 ++ 0x2#4 ++ 0x2#4) = .ok (.imul2 .rr .w32)
    ∧ decode (0x23#8 ++ 0x8#4 ++ 0x3#4) = .ok (.imul3 .rmi .w64)
    ∧ decode (0x24#8 ++ 0x0#4 ++ 0x1#4) = .ok (.div .r .w16)
    ∧ decode (0x25#8 ++ 0x1#4 ++ 0x3#4) = .ok (.idiv .m .w64) := by decide

theorem test_decode_shift_exchange :
    decode (0x30#8 ++ 0x5#4 ++ 0x0#4) = .ok (.shl .ri .w8)
    ∧ decode (0x31#8 ++ 0x6#4 ++ 0x1#4) = .ok (.shr .mi .w16)
    ∧ decode (0x32#8 ++ 0x2#4 ++ 0x3#4) = .ok (.sar .rr .w64)
    ∧ decode (0x40#8 ++ 0x4#4 ++ 0x2#4) = .ok (.xadd .mr .w32) := by decide

/-- E3 to E7: a form the table does not list, and the reserved values, each by its name. -/
theorem test_decode_rejects :
    decode 0x2220 = .error .unlistedForm ∧ decode 0x1330 = .error .unlistedForm ∧ decode 0x0005 = .error .reservedOp
    ∧ decode 0x01C2 = .error .reservedShape ∧ decode 0x0125 = .error .reservedWidth := by decide

/-- The host's numbering of a control word, and a word longer than 16 bits. -/
theorem test_decodeTableWord :
    decodeTableWord 16 0x0123 = some (.add .rr .w64) ∧ decodeTableWord 16 0x2220 = none ∧ decodeTableWord 24 0x10123 = none := by decide

/-! ### Ill-formed operands, one for each check (30_encoding.md R110, R112; 10_state.md R32) -/

/-- A 64-bit row without `MODE64` (E2). -/
theorem test_illFormed_mode : Instr.wellFormed c32 (.add .rr .w64) [eax, ecx] = false := by decide

/-- A view of another width (E8). -/
theorem test_illFormed_width : Instr.wellFormed c64 (.add .rr .w32) [eax, cx] = false := by decide

/-- `H8` of register 4. -/
theorem test_illFormed_h8 : Instr.wellFormed c64 (.inc .r .w8) [.reg 4 .h8] = false := by decide

/-- `L8` of register 4 without `MODE64`. -/
theorem test_illFormed_l8 : Instr.wellFormed c32 (.inc .r .w8) [.reg 4 .l8] = false := by decide

/-- Register 8 without `MODE64`. -/
theorem test_illFormed_register : Instr.wellFormed c32 (.inc .r .w32) [.reg 8 .x32] = false := by decide

/-- Vector register 8 without `MODE64`. -/
theorem test_illFormed_vector : Instr.wellFormed c32 (.pand .vv) [.vec 8, .vec 0] = false := by decide

/-- Memory in a register slot. -/
theorem test_illFormed_kind : Instr.wellFormed c64 (.inc .r .w8) [.mem 0 1] = false := by decide

/-- A memory operand that is not W/8 bytes. -/
theorem test_illFormed_memory_size : Instr.wellFormed c64 (.inc .m .w32) [.mem 0 2] = false := by decide

/-- An address of more than `XLEN` bits. -/
theorem test_illFormed_address : Instr.wellFormed c32 (.inc .m .w8) [.mem 0x100000000 1] = false := by decide

/-- An immediate of another width. -/
theorem test_illFormed_immediate : Instr.wellFormed c64 (.add .ri .w16) [ax, imm8 1] = false := by decide

/-- A shift count that is not 8 bits. -/
theorem test_illFormed_count : Instr.wellFormed c64 (.shl .rr .w32) [eax, ecx] = false := by decide

/-- Too few handles. -/
theorem test_illFormed_few : Instr.wellFormed c64 (.add .rr .w8) [al] = false := by decide

/-- Too many handles. -/
theorem test_illFormed_many : Instr.wellFormed c64 (.inc .r .w8) [al, cl] = false := by decide

/-- What fits: a CL count, the last address of the 32-bit space, `L8` of register 15 in 64-bit mode, an unaligned packed operand. -/
theorem test_wellFormed :
    Instr.wellFormed c64 (.shl .rr .w32) [eax, cl] = true ∧ Instr.wellFormed c32 (.inc .m .w8) [.mem 0xFFFFFFFF 1] = true
    ∧ Instr.wellFormed c64 (.inc .r .w8) [.reg 15 .l8] = true ∧ Instr.wellFormed c64 (.pand .vm) [.vec 15, .mem 3 16] = true := by decide

/-! ### One step of each row, from 95_test_vectors.md -/

/-- A1. -/
theorem test_add_wraps :
    after (step (on [(0, 0xFF), (1, 0x01)] (.add .rr .w8) [al, cl])) 8 al = some (0x00, ⟨.one, .one, .one, .one, .zero, .zero⟩) := by decide

/-- A5's operands, with the register-width vector of R33: the X32 write clears bits 63:32. -/
theorem test_add_zeroExtends :
    after (step (on [(0, 0xFFFFFFFF00000001)] (.add .ri .w32) [eax, imm32 1])) 64 rax = some (0x2, ⟨.zero, .zero, .zero, .zero, .zero, .zero⟩) := by decide

/-- A6. -/
theorem test_adc_twoStages :
    after (step (onCall c64 [(0, 0xFF), (1, 0xFF)] [] ⟨.one, .u, .u, .u, .u, .u⟩ [] (.adc .rr .w8) [al, cl] false)) 8 al = some (0xFF, ⟨.one, .one, .one, .zero, .one, .zero⟩) := by decide

/-- A9: CF is `U`, so both draws run. -/
theorem test_adc_draws :
    after (step (onCall c64 [(0, 1), (1, 1)] [] Flags.unset [] (.adc .rr .w8) [al, cl] false)) 8 al = some (0x02, ⟨.zero, .zero, .zero, .zero, .zero, .zero⟩)
    ∧ after (step (onCall c64 [(0, 1), (1, 1)] [] Flags.unset [] (.adc .rr .w8) [al, cl] true)) 8 al = some (0x03, ⟨.zero, .one, .zero, .zero, .zero, .zero⟩) := by decide

/-- A10. -/
theorem test_sub_borrows :
    after (step (on [(0, 0), (1, 1)] (.sub .rr .w16) [ax, cx])) 16 ax = some (0xFFFF, ⟨.one, .one, .one, .zero, .one, .zero⟩) := by decide

/-- A12. -/
theorem test_sub_same :
    after (step (on [(0, 0x5A)] (.sub .rr .w8) [al, al])) 8 al = some (0, ⟨.zero, .one, .zero, .one, .zero, .zero⟩) := by decide

/-- A17. -/
theorem test_sbb_wraps :
    after (step (onCall c64 [(1, 0xFF)] [] ⟨.one, .u, .u, .u, .u, .u⟩ [] (.sbb .rr .w8) [al, cl] false)) 8 al = some (0, ⟨.one, .one, .one, .one, .zero, .zero⟩) := by decide

/-- A19. -/
theorem test_sbb_borrowStage :
    after (step (onCall c64 [(0, 7), (1, 7)] [] ⟨.one, .u, .u, .u, .u, .u⟩ [] (.sbb .rr .w16) [ax, cx] false)) 16 ax = some (0xFFFF, ⟨.one, .one, .one, .zero, .one, .zero⟩) := by decide

/-- A21, op1 unchanged. -/
theorem test_cmp_overflow :
    after (step (on [(0, 0x8000000000000000), (1, 1)] (.cmp .rr .w64) [rax, rcx])) 64 rax = some (0x8000000000000000, ⟨.zero, .one, .one, .zero, .zero, .one⟩) := by decide

/-- A22, on memory that may not be written: CMP asks for a read only, and records no NOREORDER. -/
theorem test_cmp_readsOnly :
    (nextOf (step (onCall ⟨true, .v128, [.region .write 0 100]⟩ [] [] Flags.unset [(0, 3)] (.cmp .mi .w8) [.mem 0 1, imm8 5] false))).map
      (fun t => (t.mach.flags, t.trace)) = some (⟨.one, .zero, .one, .zero, .one, .zero⟩, [.rdMem 0 1, .wrFlags ⟨some .one, some .zero, some .one, some .zero, some .one, some .zero⟩]) := by decide

/-- A24. -/
theorem test_inc_keepsU :
    after (step (onCall c64 [(0, 0x7F)] [] Flags.unset [] (.inc .r .w8) [al] false)) 8 al = some (0x80, ⟨.u, .zero, .one, .zero, .one, .one⟩) := by decide

/-- A25. -/
theorem test_inc_wraps :
    after (step (onCall c64 [(0, 0xFFFF)] [] ⟨.one, .u, .u, .u, .u, .u⟩ [] (.inc .r .w16) [ax] false)) 16 ax = some (0, ⟨.one, .one, .one, .one, .zero, .zero⟩) := by decide

/-- A27. -/
theorem test_dec_overflow :
    after (step (onCall c64 [(0, 0x80)] [] ⟨.one, .u, .u, .u, .u, .u⟩ [] (.dec .r .w8) [al] false)) 8 al = some (0x7F, ⟨.one, .zero, .one, .zero, .zero, .one⟩) := by decide

/-- A28. -/
theorem test_dec_wraps :
    after (step (on [] (.dec .r .w32) [eax])) 32 eax = some (0xFFFFFFFF, ⟨.zero, .one, .one, .zero, .one, .zero⟩) := by decide

/-- A30. -/
theorem test_neg_zero : after (step (on [] (.neg .r .w8) [al])) 8 al = some (0, ⟨.zero, .one, .zero, .one, .zero, .zero⟩) := by decide

/-- A31. -/
theorem test_neg_lowest :
    after (step (on [(0, 0x80)] (.neg .r .w8) [al])) 8 al = some (0x80, ⟨.one, .zero, .zero, .zero, .one, .one⟩) := by decide

/-- L1. -/
theorem test_and_zero :
    after (step (on [(0, 0xF0), (1, 0x0F)] (.and .rr .w8) [al, cl])) 8 al = some (0, ⟨.zero, .one, .u, .one, .zero, .zero⟩) := by decide

/-- L3, from memory. -/
theorem test_or_sign :
    after (step (onMem [(0, 0x80)] [(5, 0x01)] (.or .rm .w8) [al, .mem 5 1])) 8 al = some (0x81, ⟨.zero, .one, .u, .zero, .one, .zero⟩) := by decide

/-- L6: RCX is 0 too. -/
theorem test_xor_clears :
    after (step (on [(1, 0xFFFFFFFF00001234)] (.xor .rr .w32) [ecx, ecx])) 64 rcx = some (0, ⟨.zero, .one, .u, .one, .zero, .zero⟩) := by decide

/-- L7, op1 unchanged. -/
theorem test_test_sign :
    after (step (on [(0, 0x8000), (1, 0xFFFF)] (.test .rr .w16) [ax, cx])) 16 ax = some (0x8000, ⟨.zero, .one, .u, .zero, .one, .zero⟩) := by decide

/-- L8. -/
theorem test_not_keepsFlags :
    after (step (onCall c64 [(0, 0x5A)] [] ⟨.u, .one, .zero, .u, .one, .zero⟩ [] (.not .r .w8) [al] false)) 8 al = some (0xA5, ⟨.u, .one, .zero, .u, .one, .zero⟩) := by decide

/-- L10. -/
theorem test_pand :
    after (step (onVec [(0, 2 ^ 128 - 1), (1, 0xFF)] (.pand .vv) [.vec 0, .vec 1])) 128 (.vec 0) = some (0xFF, ⟨.zero, .zero, .zero, .zero, .zero, .zero⟩) := by decide

/-- L11. -/
theorem test_por_zero :
    after (step (onVec [] (.por .vv) [.vec 0, .vec 1])) 128 (.vec 0) = some (0, ⟨.zero, .zero, .zero, .zero, .zero, .zero⟩) := by decide

/-- L12. -/
theorem test_pxor_same :
    after (step (onVec [(3, 2 ^ 128 - 1)] (.pxor .vv) [.vec 3, .vec 3])) 128 (.vec 3) = some (0, ⟨.zero, .zero, .zero, .zero, .zero, .zero⟩) := by decide

/-- L13. -/
theorem test_pandn_order :
    after (step (onVec [(0, 0xF0), (1, 0xFF)] (.pandn .vv) [.vec 0, .vec 1])) 128 (.vec 0) = some (0x0F, ⟨.zero, .zero, .zero, .zero, .zero, .zero⟩) := by decide

/-- L15. -/
theorem test_ptest_equal :
    after (step (onVec [(0, 0xF0), (1, 0xF0)] (.ptest .vv) [.vec 0, .vec 1])) 128 (.vec 0) = some (0xF0, ⟨.one, .zero, .zero, .zero, .zero, .zero⟩) := by decide

/-- L16. -/
theorem test_ptest_zero :
    after (step (onVec [(1, 2 ^ 128 - 1)] (.ptest .vv) [.vec 0, .vec 1])) 128 (.vec 1) = some (2 ^ 128 - 1, ⟨.zero, .zero, .zero, .one, .zero, .zero⟩) := by decide

/-- M1. -/
theorem test_mul_byte :
    after (step (on [(0, 0x80), (1, 2)] (.mul .r .w8) [cl])) 16 ax = some (0x0100, ⟨.one, .u, .u, .u, .u, .one⟩) := by decide

/-- M6, with bits 63:32 cleared by both writes. -/
theorem test_mul_halves :
    (nextOf (step (on [(0, 0x11111111FFFFFFFF), (1, 2), (2, 0x22222222FFFFFFFF)] (.mul .r .w32) [ecx]))).map
      (fun t => (t.mach.gpr[0], t.mach.gpr[2])) = some (0xFFFFFFFE, 1) := by decide

/-- M10. -/
theorem test_imul1_lost :
    after (step (on [(0, 0x80), (1, 0xFF)] (.imul1 .r .w8) [cl])) 16 ax = some (0x0080, ⟨.one, .u, .u, .u, .one, .one⟩) := by decide

/-- M12: the high half is all ones and nothing is lost. -/
theorem test_imul1_notLost :
    after (step (on [(0, 0xFFFFFFFF), (1, 1)] (.imul1 .r .w32) [ecx])) 32 edx = some (0xFFFFFFFF, ⟨.zero, .u, .u, .u, .one, .zero⟩) := by decide

/-- M15. -/
theorem test_imul2_lost :
    after (step (on [(0, 0x100), (1, 0x100)] (.imul2 .rr .w16) [ax, cx])) 16 ax = some (0, ⟨.one, .u, .u, .u, .zero, .one⟩) := by decide

/-- M16. -/
theorem test_imul2_negative :
    after (step (on [(0, 0xFFFFFFFE), (1, 3)] (.imul2 .rr .w32) [eax, ecx])) 32 eax = some (0xFFFFFFFA, ⟨.zero, .u, .u, .u, .one, .zero⟩) := by decide

/-- M19. -/
theorem test_imul3_lost :
    after (step (on [(1, 0x7FFFFFFF)] (.imul3 .rri .w32) [eax, ecx, imm32 2])) 32 eax = some (0xFFFFFFFE, ⟨.one, .u, .u, .u, .one, .one⟩) := by decide

/-- M21. -/
theorem test_imul3_lowest :
    after (step (on [(1, 0x8000)] (.imul3 .rri .w16) [ax, cx, imm16 0xFFFF])) 16 ax = some (0x8000, ⟨.one, .u, .u, .u, .one, .one⟩) := by decide

/-- V1: AX is remainder and quotient. -/
theorem test_div_byte :
    after (step (on [(0, 0x64), (1, 7)] (.div .r .w8) [cl])) 16 ax = some (0x020E, ⟨.u, .u, .u, .u, .u, .u⟩) := by decide

/-- V8. -/
theorem test_div_largest :
    (nextOf (step (on [(0, 2 ^ 64 - 1), (1, 2 ^ 64 - 1), (2, 2 ^ 64 - 2)] (.div .r .w64) [rcx]))).map
      (fun t => (t.mach.gpr[0], t.mach.gpr[2])) = some (0xFFFFFFFFFFFFFFFF, 0xFFFFFFFFFFFFFFFE) := by decide

/-- V10: AL is -14, AH is -2. -/
theorem test_idiv_negative :
    after (step (on [(0, 0xFF9C), (1, 7)] (.idiv .r .w8) [cl])) 16 ax = some (0xFEF2, ⟨.u, .u, .u, .u, .u, .u⟩) := by decide

/-- V22. -/
theorem test_idiv_split :
    (nextOf (step (on [(0, 0xFFFFFFF9), (1, 2), (2, 0xFFFFFFFF)] (.idiv .r .w32) [ecx]))).map
      (fun t => (t.mach.gpr[0], t.mach.gpr[2])) = some (0xFFFFFFFD, 0xFFFFFFFF) := by decide

/-- H1. -/
theorem test_shl_one :
    after (step (on [(0, 0x81)] (.shl .ri .w8) [al, imm8 1])) 8 al = some (0x02, ⟨.one, .zero, .u, .zero, .zero, .one⟩) := by decide

/-- H4: class D. -/
theorem test_shl_width :
    after (step (on [(0, 1), (1, 8)] (.shl .rr .w8) [al, cl])) 8 al = some (0, ⟨.u, .one, .u, .one, .zero, .u⟩) := by decide

/-- H11. -/
theorem test_shr_one :
    after (step (on [(0, 0x81)] (.shr .ri .w8) [al, imm8 1])) 8 al = some (0x40, ⟨.one, .zero, .u, .zero, .zero, .one⟩) := by decide

/-- H17: class A keeps every flag. -/
theorem test_shr_masked :
    after (step (onCall c64 [(0, 0x80)] [] Flags.unset [] (.shr .ri .w8) [al, imm8 0x20] false)) 8 al = some (0x80, ⟨.u, .u, .u, .u, .u, .u⟩) := by decide

/-- H18. -/
theorem test_sar_width :
    after (step (on [(0, 0x80), (1, 9)] (.sar .rr .w8) [al, cl])) 8 al = some (0xFF, ⟨.u, .one, .u, .zero, .one, .u⟩) := by decide

/-- H24. -/
theorem test_sar_most :
    after (step (on [(0, 0x8000000000000000)] (.sar .ri .w64) [rax, imm8 0x7F])) 64 rax = some (0xFFFFFFFFFFFFFFFF, ⟨.zero, .one, .u, .zero, .one, .u⟩) := by decide

/-- X1, with its trace. -/
theorem test_xadd_trace :
    (nextOf (step (on [(0, 5), (1, 3)] (.xadd .rr .w32) [eax, ecx]))).map (fun t => (t.mach.gpr[0], t.mach.gpr[1], t.trace)) =
      some (8, 5, [.fenceSL, .rdReg 0 .x32, .rdReg 1 .x32, .wrReg 0 .x32 8, .fenceSL, .wrReg 1 .x32 5, .fenceSL, .noReorder,
        .wrFlags ⟨some .zero, some .zero, some .zero, some .zero, some .zero, some .zero⟩]) := by decide

/-- X5. -/
theorem test_xadd_same :
    after (step (on [(0, 0x80000000)] (.xadd .rr .w32) [eax, eax])) 32 eax = some (0x80000000, ⟨.one, .one, .zero, .one, .zero, .one⟩) := by decide

/-! ### Where a row stops, and how a call reaches the machine -/

/-- V3, V6: the hook receives the state as it was, and zero is checked first. -/
theorem test_div_faults :
    faultOf (step (on [(0, 0x1234), (1, 0x12)] (.div .r .w8) [cl])) =
      some (.divideError .overflow (on [(0, 0x1234), (1, 0x12)] (.div .r .w8) [cl]).mach)
    ∧ faultOf (step (on [] (.div .r .w16) [cx])) = some (.divideError .byZero (on [] (.div .r .w16) [cx]).mach) := by decide

/-- V23: -2^127 / -1. -/
theorem test_idiv_faults :
    faultOf (step (on [(2, 2 ^ 63), (1, 2 ^ 64 - 1)] (.idiv .r .w64) [rcx])) =
      some (.divideError .overflow (on [(2, 2 ^ 63), (1, 2 ^ 64 - 1)] (.idiv .r .w64) [rcx]).mach) := by decide

/-- E2, E8, E3, and a run with no call left. -/
theorem test_refusals :
    refusalOf (step (onCall c32 [] [] Flags.unset [] (.add .rr .w64) [rax, rcx] false)) = some .modeInapplicable
    ∧ refusalOf (step (on [] (.add .rr .w32) [eax, cx])) = some .operandMismatch
    ∧ refusalOf (step { (on [] (.inc .r .w8) [al]) with calls := [⟨0x2220, [al, cl], false⟩] }) = some .unlisted
    ∧ refusalOf (step State.reset) = some .runEnded := by decide

/-- E9: the divisor would be 0, and admission comes first; a byte with no value, then a denied access. -/
theorem test_stuck :
    faultOf (step (onMem [] [] (.div .m .w32) [.mem 0 4])) = some .memNotAdmitted
    ∧ faultOf (step (onCall ⟨true, .v128, [.single .read 4 0]⟩ [] [] Flags.unset [(0, 0), (1, 0), (2, 0), (3, 0)] (.div .m .w32) [.mem 0 4] false)) =
      some .memNotAdmitted := by decide

/-- A row placed for the next step (log 17). -/
theorem test_fetchWord :
    (State.reset.withFetchWord 16 0x0162).mach.mem = [(0, 0), (1, 0), (2, 0), (3, 0)]
    ∧ (State.reset.withFetchWord 16 0x0162).handles = [.mem 0 4, .imm 32 0]
    ∧ (State.reset.withFetchWord 16 0x0162).ready (.add .mi .w32) = true := by decide

/-! ### The hypotheses of the obligations can be met -/

theorem witness_DecodedRowEncodesBack : decode 0x0123 = .ok (.add .rr .w64) := by decide

/-- One call for each of the three clauses. -/
theorem witness_StepRunsTheDecodedRow :
    (nextOf (exec (.add .rr .w8) (on [] (.add .rr .w8) [al, cl]))).isSome = true ∧ decode (encode (.add .rr .w8)) = .ok (.add .rr .w8)
    ∧ (faultOf (exec (.div .r .w8) (on [] (.div .r .w8) [cl]))).isSome = true
    ∧ (refusalOf (exec (.inc .r .w8) (on [] (.inc .r .w8) [ax]))).isSome = true := by decide

theorem witness_UnlistedWordIsRefused :
    (0x2220#16).toNat ∉ tableWords ∧ (0xFFFF#16).toNat ∉ tableWords ∧ (0x0000#16).toNat ∉ tableWords := by decide

/-- Both sides: handles that do not match, and handles that do. -/
theorem witness_MismatchedOperandsAreRefused :
    Instr.available c64 (.add .rr .w32) = true ∧ refusalOf (exec (.add .rr .w32) (on [] (.add .rr .w32) [eax, cx])) = some .operandMismatch
    ∧ (nextOf (exec (.add .rr .w32) (on [] (.add .rr .w32) [eax, ecx]))).isSome = true := by decide

/-- Each clause in turn. -/
theorem witness_OutcomesComeInPriorityOrder :
    (∀ i, decode 0x0005 ≠ .ok i)
    ∧ Instr.available c32 (.add .rr .w64) = false
    ∧ (Instr.available c64 (.inc .r .w8) = true ∧ handlesFit c64 (Instr.slots .v128 (.inc .r .w8)) [ax] = false)
    ∧ (handlesFit c64 (Instr.slots .v128 (.inc .m .w8)) [.mem 0 1] = true ∧ (onMem [] [] (.inc .m .w8) [.mem 0 1]).admits (.inc .m .w8) = false)
    ∧ ((on [] (.div .r .w8) [cl]).ready (.div .r .w8) = true ∧ (on [] (.div .r .w8) [cl]).read 8 (on [] (.div .r .w8) [cl]).op1 = 0) := by
  refine ⟨fun i h => ?_, by decide⟩
  have e : decode 0x0005 = .error .reservedOp := by decide
  rw [e] at h; cases h

/-- A byte with no value, and denials at the edge of a region, across the end of the space, and by alignment. -/
theorem witness_UnadmittedAccessIsStuck :
    (onMem [] [] (.inc .m .w8) [.mem 0 1]).mach.mem.byteAt 0 = none
    ∧ Instr.operandsFit c64 (.inc .m .w8) [.mem 0 1] = true
    ∧ deniesAccess 64 (.region .write 7 7) .write 4 4 = true ∧ deniesAccess 64 (.region .write 8 9) .write 4 4 = false
    ∧ deniesAccess 32 (.region .read 0 0) .read 0xFFFFFFFF 2 = true ∧ deniesAccess 64 (.misaligned .read 16 16) .read 8 16 = true := by decide

theorem witness_EveryMemAdmitIsAListOfDenials : 0xFFFFFFFF < 2 ^ (Context.mk false .v256 []).xlen ∧ VLen.bytes .v256 ≤ 32 := by decide

theorem witness_AddWritesTheSumAndItsFlags :
    (onMem [] [(8, 1), (9, 2), (10, 3), (11, 4)] (.add .mr .w32) [.mem 8 4, ecx]).ready (.add .mr .w32) = true
    ∧ (on [] (.add .rr .w8) [ah, al]).ready (.add .rr .w8) = true := by decide

/-- CF given, and CF `U`. -/
theorem witness_AdcAddsTheCarryIn :
    (onCall c64 [] [] ⟨.one, .u, .u, .u, .u, .u⟩ [] (.adc .ri .w16) [ax, imm16 1] false).ready (.adc .ri .w16) = true
    ∧ (onMem [] [(8, 1), (9, 2), (10, 3), (11, 4)] (.adc .rm .w32) [eax, .mem 8 4]).ready (.adc .rm .w32) = true
    ∧ (onMem [] [(8, 1), (9, 2), (10, 3), (11, 4)] (.adc .rm .w32) [eax, .mem 8 4]).mach.flags.CF = .u := by decide

theorem witness_SubWritesTheDifferenceAndItsFlags :
    (onMem [] [(8, 1), (9, 2), (10, 3), (11, 4)] (.sub .mi .w32) [.mem 8 4, imm32 1]).ready (.sub .mi .w32) = true := by decide

/-- CF given, and CF `U`. -/
theorem witness_SbbSubtractsTheBorrowIn :
    (on [] (.sbb .rr .w64) [rax, rcx]).ready (.sbb .rr .w64) = true
    ∧ (onMem [] [(8, 1), (9, 2), (10, 3), (11, 4)] (.sbb .mr .w32) [.mem 8 4, ecx]).ready (.sbb .mr .w32) = true
    ∧ (on [] (.sbb .rr .w64) [rax, rcx]).mach.flags.CF = .ofBool false := by decide

theorem witness_CmpWritesFlagsOnly :
    (onMem [] [(8, 1), (9, 2), (10, 3), (11, 4)] (.cmp .mr .w32) [.mem 8 4, ecx]).ready (.cmp .mr .w32) = true := by decide

theorem witness_IncKeepsTheCarry :
    (onMem [] [(8, 1), (9, 2), (10, 3), (11, 4)] (.inc .m .w32) [.mem 8 4]).ready (.inc .m .w32) = true := by decide

theorem witness_DecKeepsTheCarry : (on [] (.dec .r .w64) [rax]).ready (.dec .r .w64) = true := by decide

theorem witness_NegSubtractsFromZero :
    (onMem [] [(8, 1), (9, 2), (10, 3), (11, 4)] (.neg .m .w16) [.mem 9 2]).ready (.neg .m .w16) = true := by decide

theorem witness_LogicalRowsWriteAndFlag :
    (on [] (.and .rr .w8) [al, cl]).ready (.and .rr .w8) = true
    ∧ (onMem [] [(8, 1), (9, 2), (10, 3), (11, 4)] (.or .mi .w32) [.mem 8 4, imm32 1]).ready (.or .mi .w32) = true
    ∧ (on [] (.xor .rr .w64) [rax, rax]).ready (.xor .rr .w64) = true := by decide

theorem witness_TestWritesFlagsOnly :
    (onMem [] [(8, 1), (9, 2), (10, 3), (11, 4)] (.test .mi .w32) [.mem 8 4, imm32 1]).ready (.test .mi .w32) = true := by decide

theorem witness_NotComplementsAndKeepsFlags :
    (onMem [] [(8, 1), (9, 2), (10, 3), (11, 4)] (.not .m .w8) [.mem 11 1]).ready (.not .m .w8) = true := by decide

theorem witness_PackedRowsWriteAndClearFlags :
    (onVec [] (.pand .vv) [.vec 0, .vec 15]).ready (.pand .vv) = true
    ∧ (onMem [] (Memory.fill [] 16) (.por .vm) [.vec 1, .mem 0 16]).ready (.por .vm) = true
    ∧ (onVec [] (.pxor .vv) [.vec 2, .vec 2]).ready (.pxor .vv) = true
    ∧ (onCall c32 [] [] Flags.unset [] (.pandn .vv) [.vec 7, .vec 0] false).ready (.pandn .vv) = true := by decide

theorem witness_PtestSetsZeroAndCarryOnly :
    (onMem [] (Memory.fill [] 16) (.ptest .vm) [.vec 1, .mem 0 16]).ready (.ptest .vm) = true := by decide

theorem witness_ByteMulFillsAx : (on [] (.mul .r .w8) [ah]).ready (.mul .r .w8) = true := by decide

theorem witness_WideMulFillsBothHalves :
    (onMem [] [(8, 1), (9, 2), (10, 3), (11, 4)] (.mul .m .w32) [.mem 8 4]).ready (.mul .m WideWidth.w32.width) = true
    ∧ (on [] (.mul .r .w64) [rdx]).ready (.mul .r WideWidth.w64.width) = true := by decide

theorem witness_ByteImulFillsAx :
    (onMem [] [(8, 1), (9, 2), (10, 3), (11, 4)] (.imul1 .m .w8) [.mem 8 1]).ready (.imul1 .m .w8) = true := by decide

theorem witness_WideImulFillsBothHalves : (on [] (.imul1 .r .w16) [dx]).ready (.imul1 .r WideWidth.w16.width) = true := by decide

theorem witness_TwoOperandImulTruncates :
    (onMem [] [(8, 1), (9, 2), (10, 3), (11, 4)] (.imul2 .rm .w16) [ax, .mem 8 2]).ready (.imul2 .rm .w16) = true := by decide

theorem witness_ThreeOperandImulTruncates :
    (onMem [] [(8, 1), (9, 2), (10, 3), (11, 4)] (.imul3 .rmi .w32) [eax, .mem 8 4, imm32 3]).ready (.imul3 .rmi .w32) = true := by decide

/-- The largest quotients that fit. -/
theorem witness_DivWritesQuotientAndRemainder :
    ((on [(0, 0xFFFF), (1, 3), (2, 2)] (.div .r .w16) [cx]).ready (.div .r .w16) = true ∧ dividendU (on [(0, 0xFFFF), (1, 3), (2, 2)] (.div .r .w16) [cx]) .w16 / 3 = 2 ^ 16 - 1)
    ∧ ((on [(0, 0xFEFF), (1, 0xFF)] (.div .r .w8) [cl]).ready (.div .r .w8) = true ∧ dividendU (on [(0, 0xFEFF), (1, 0xFF)] (.div .r .w8) [cl]) .w8 / 0xFF = 2 ^ 8 - 1) := by decide

/-- The lowest and the highest quotient that fit. -/
theorem witness_IdivWritesQuotientAndRemainder :
    ((on [(0, 0xFF00), (1, 2)] (.idiv .r .w8) [cl]).ready (.idiv .r .w8) = true ∧ (dividendS (on [(0, 0xFF00), (1, 2)] (.idiv .r .w8) [cl]) .w8).tdiv 2 = -2 ^ 7)
    ∧ ((on [(0, 0xFFFF), (1, 2)] (.idiv .r .w16) [cx]).ready (.idiv .r .w16) = true ∧ (dividendS (on [(0, 0xFFFF), (1, 2)] (.idiv .r .w16) [cx]) .w16).tdiv 2 = 2 ^ 15 - 1) := by decide

/-- Each clause, at the first quotient that does not fit. -/
theorem witness_DivideFaultsReachTheHook :
    ((on [] (.div .r .w8) [cl]).ready (.div .r .w8) = true ∧ ((on [] (.div .r .w8) [cl]).read 8 (on [] (.div .r .w8) [cl]).op1).toNat = 0)
    ∧ ((on [(1, 1), (2, 1)] (.div .r .w32) [ecx]).ready (.div .r .w32) = true ∧ dividendU (on [(1, 1), (2, 1)] (.div .r .w32) [ecx]) .w32 / ((on [(1, 1), (2, 1)] (.div .r .w32) [ecx]).read 32 (on [(1, 1), (2, 1)] (.div .r .w32) [ecx]).op1).toNat = 2 ^ 32)
    ∧ ((on [] (.idiv .r .w8) [cl]).ready (.idiv .r .w8) = true ∧ ((on [] (.idiv .r .w8) [cl]).read 8 (on [] (.idiv .r .w8) [cl]).op1).toInt = 0)
    ∧ ((on [(0, 0xFF80), (1, 0xFF)] (.idiv .r .w8) [cl]).ready (.idiv .r .w8) = true ∧ (dividendS (on [(0, 0xFF80), (1, 0xFF)] (.idiv .r .w8) [cl]) .w8).tdiv ((on [(0, 0xFF80), (1, 0xFF)] (.idiv .r .w8) [cl]).read 8 (on [(0, 0xFF80), (1, 0xFF)] (.idiv .r .w8) [cl]).op1).toInt = 2 ^ 7)
    ∧ ((on [(0, 0xFEFE), (1, 2)] (.idiv .r .w8) [cl]).ready (.idiv .r .w8) = true ∧ (dividendS (on [(0, 0xFEFE), (1, 2)] (.idiv .r .w8) [cl]) .w8).tdiv ((on [(0, 0xFEFE), (1, 2)] (.idiv .r .w8) [cl]).read 8 (on [(0, 0xFEFE), (1, 2)] (.idiv .r .w8) [cl]).op1).toInt = -2 ^ 7 - 1) := by decide

theorem witness_DivOverflowsWhenTheHighHalfReachesTheDivisor :
    (on [(1, 1), (2, 1)] (.div .r .w32) [ecx]).ready (.div .r .w32) = true ∧ ((on [(1, 1), (2, 1)] (.div .r .w32) [ecx]).read 32 (on [(1, 1), (2, 1)] (.div .r .w32) [ecx]).op1).toNat ≠ 0 ∧ ((on [(1, 1), (2, 1)] (.div .r .w32) [ecx]).read 32 (on [(1, 1), (2, 1)] (.div .r .w32) [ecx]).op1).toNat ≤ ((on [(1, 1), (2, 1)] (.div .r .w32) [ecx]).read 32 (remainderReg .w32)).toNat := by decide

/-- Masked counts 0, 1, 2, W - 1, W and 31 at W = 8, and 63 at W = 64: the ends of every class. -/
theorem witness_ShlByCountClass :
    (on [(0, 0x81), (1, 0x20)] (.shl .rr .w8) [al, cl]).ready (.shl .rr .w8) = true
    ∧ (on [(0, 0x81), (1, 1)] (.shl .rr .w8) [al, cl]).ready (.shl .rr .w8) = true
    ∧ (on [(0, 0x81), (1, 2)] (.shl .rr .w8) [al, cl]).ready (.shl .rr .w8) = true
    ∧ (on [(0, 0x81), (1, 7)] (.shl .rr .w8) [al, cl]).ready (.shl .rr .w8) = true
    ∧ (on [(0, 0x81), (1, 8)] (.shl .rr .w8) [al, cl]).ready (.shl .rr .w8) = true
    ∧ (on [(0, 0x81), (1, 31)] (.shl .rr .w8) [al, cl]).ready (.shl .rr .w8) = true
    ∧ (on [(0, 0x81), (1, 63)] (.shl .rr .w64) [rax, cl]).ready (.shl .rr .w64) = true
    ∧ [0x20, 1, 2, 7, 8, 31].map (· % 32) = [0, 1, 2, 7, 8, 31] := by decide

/-- Masked counts 0, 1, 2, W - 1, W and 31 at W = 8, and 63 at W = 64: the ends of every class. -/
theorem witness_ShrByCountClass :
    (on [(0, 0x81), (1, 0x20)] (.shr .rr .w8) [al, cl]).ready (.shr .rr .w8) = true
    ∧ (on [(0, 0x81), (1, 1)] (.shr .rr .w8) [al, cl]).ready (.shr .rr .w8) = true
    ∧ (on [(0, 0x81), (1, 2)] (.shr .rr .w8) [al, cl]).ready (.shr .rr .w8) = true
    ∧ (on [(0, 0x81), (1, 7)] (.shr .rr .w8) [al, cl]).ready (.shr .rr .w8) = true
    ∧ (on [(0, 0x81), (1, 8)] (.shr .rr .w8) [al, cl]).ready (.shr .rr .w8) = true
    ∧ (on [(0, 0x81), (1, 31)] (.shr .rr .w8) [al, cl]).ready (.shr .rr .w8) = true
    ∧ (on [(0, 0x81), (1, 63)] (.shr .rr .w64) [rax, cl]).ready (.shr .rr .w64) = true
    ∧ [0x20, 1, 2, 7, 8, 31].map (· % 32) = [0, 1, 2, 7, 8, 31] := by decide

/-- Masked counts 0, 1, 2, W - 1, W and 31 at W = 8, and 63 at W = 64: the ends of every class. -/
theorem witness_SarByCountClass :
    (on [(0, 0x81), (1, 0x20)] (.sar .rr .w8) [al, cl]).ready (.sar .rr .w8) = true
    ∧ (on [(0, 0x81), (1, 1)] (.sar .rr .w8) [al, cl]).ready (.sar .rr .w8) = true
    ∧ (on [(0, 0x81), (1, 2)] (.sar .rr .w8) [al, cl]).ready (.sar .rr .w8) = true
    ∧ (on [(0, 0x81), (1, 7)] (.sar .rr .w8) [al, cl]).ready (.sar .rr .w8) = true
    ∧ (on [(0, 0x81), (1, 8)] (.sar .rr .w8) [al, cl]).ready (.sar .rr .w8) = true
    ∧ (on [(0, 0x81), (1, 31)] (.sar .rr .w8) [al, cl]).ready (.sar .rr .w8) = true
    ∧ (on [(0, 0x81), (1, 63)] (.sar .rr .w64) [rax, cl]).ready (.sar .rr .w64) = true
    ∧ [0x20, 1, 2, 7, 8, 31].map (· % 32) = [0, 1, 2, 7, 8, 31] := by decide

/-- Two views of one register, memory, and one register twice. -/
theorem witness_XaddExchangesAndAdds :
    (on [] (.xadd .rr .w8) [al, ah]).ready (.xadd .rr .w8) = true
    ∧ (onMem [] [(8, 1), (9, 2), (10, 3), (11, 4)] (.xadd .mr .w32) [.mem 8 4, eax]).ready (.xadd .mr .w32) = true
    ∧ (on [] (.xadd .rr .w32) [eax, eax]).ready (.xadd .rr .w32) = true
    ∧ al ≠ ah := by decide

/-- Both shapes. -/
theorem witness_XaddTraceHasItsBarriers :
    (on [] (.xadd .rr .w64) [rax, rcx]).ready (.xadd .rr .w64) = true
    ∧ (onMem [] [(8, 1), (9, 2), (10, 3), (11, 4)] (.xadd .mr .w16) [.mem 8 2, cx]).ready (.xadd .mr .w16) = true
    ∧ (onMem [] [(8, 1), (9, 2), (10, 3), (11, 4)] (.xadd .mr .w16) [.mem 8 2, cx]).op1 = .mem 8 2 ∧ (onMem [] [(8, 1), (9, 2), (10, 3), (11, 4)] (.xadd .mr .w16) [.mem 8 2, cx]).op2 = .reg 1 .x16 := by decide

theorem witness_UnconstrainedCarryAdmitsBothDraws :
    (onMem [] [] (.adc .rr .w8) [al, cl]).ready (.adc .rr .w8) = true
    ∧ (onMem [] [] (.sbb .rr .w8) [al, cl]).ready (.sbb .rr .w8) = true
    ∧ (onMem [] [] (.adc .rr .w8) [al, cl]).mach.flags.CF = .u := by decide

theorem witness_OnlyDividesFault :
    (faultOf (exec (.idiv .r .w8) (on [] (.idiv .r .w8) [cl]))).isSome = true
    ∧ faultOf (exec (.idiv .r .w8) (on [] (.idiv .r .w8) [cl])) ≠ some .memNotAdmitted := by decide

theorem witness_FlagsAreReadByAdcAndSbbOnly : (nextOf (exec (.inc .r .w8) (on [] (.inc .r .w8) [al]))).isSome = true := by decide

theorem witness_HistoryIsNotRead :
    (nextOf (exec (.adc .rr .w8) (onMem [] [] (.adc .rr .w8) [al, cl]))).isSome = true ∧ (onMem [] [] (.adc .rr .w8) [al, cl]).calls ≠ [] := by decide

/-- For TraceIsReadsThenWritesThenFlags, TraceRecordsTheOperandsRead and TraceReplaysToTheNextState: a row with implicit reads, one that writes no flag, and one that writes flags only. -/
theorem witness_TraceRules :
    (nextOf (exec (.div .r .w8) (on [(1, 1)] (.div .r .w8) [cl]))).isSome = true ∧ (nextOf (exec (.not .r .w8) (on [] (.not .r .w8) [al]))).isSome = true
    ∧ (nextOf (exec (.ptest .vv) (onVec [] (.ptest .vv) [.vec 0, .vec 1]))).isSome = true := by decide

/-- For StepKeepsTheInvariant, StepMakesOneCallInTheSameContext and StepKeepsTheListedAddresses: states that meet the invariant in both modes, at the ends of its ranges. -/
theorem witness_StepRules :
    (on [] (.xadd .rr .w8) [al, ah]).Inv ∧ (nextOf (step (on [] (.xadd .rr .w8) [al, ah]))).isSome = true
    ∧ (onCall c32 [(7, 0xFFFFFFFF)] [(7, 2 ^ 128 - 1)] Flags.unset [(0xFFFFFFFF, 1)] (.inc .m .w8) [.mem 0xFFFFFFFF 1] false).Inv
    ∧ (nextOf (step (onCall c32 [(7, 0xFFFFFFFF)] [(7, 2 ^ 128 - 1)] Flags.unset [(0xFFFFFFFF, 1)] (.inc .m .w8) [.mem 0xFFFFFFFF 1] false))).isSome = true := by decide

/-- The last bit of a view and of a vector register, and an immediate that is not extended (R109). -/
theorem witness_ViewsReadAndWriteTheirBits :
    63 < 64 ∧ ¬ 15 < View.bits .h8 ∧ 7 < View.bits .h8 ∧ wrView 0xFFFFFFFFFFFFFFFF .x32 0 = 0 ∧ wrView 0xFFFFFFFFFFFFFFFF .h8 0 = 0xFFFFFFFFFFFF00FF
    ∧ State.reset.read 8 (.imm 8 0xA5) = 0xA5 ∧ 127 < VLen.bits State.reset.ctx.vlen ∧ (on [(1, 0x1234)] (.inc .r .w8) [al]).read 8 (.reg 1 .h8) = 0x12 := by decide

/-- A write across the end of the address space. -/
theorem witness_MemoryIsLittleEndian :
    VLen.bytes .v256 ≤ 2 ^ 32 ∧ (Memory.write 32 [] 0xFFFFFFFF (0x0201#16) 2) = [(0, 2), (0xFFFFFFFF, 1)] ∧ 1 + 1 ≤ 2 := by decide

/-- Registers and addresses at the edge of what the mode has. -/
theorem witness_InstantiationFollowsInitState :
    (15 : Fin 16).val < Context.ngpr c64 ∧ (7 : Fin 16).val < Context.nvreg c32 ∧ ¬ (8 : Fin 16).val < Context.ngpr c32
    ∧ (instantiate c32 ⟨Vector.replicate 16 (2 ^ 32 + 5), Vector.replicate 16 0, some true, none, none, none, none, none, [(2 ^ 32 + 1, 9), (1, 8)]⟩ []).mach.mem = [(1, 9)]
    ∧ (instantiate c32 ⟨Vector.replicate 16 (2 ^ 32 + 5), Vector.replicate 16 0, some true, none, none, none, none, none, []⟩ []).mach.gpr[7] = 5 := by decide

end Sys2Proof.Tests
end

section
/-! PROOFS. The environment's `MemAdmit` as a list of denial rules (00_scope.md R8, 20_memory.md R75): the list that denies one by one the
accesses a predicate does not admit. -/

namespace Sys2Proof.Proofs
open Sys2Proof.Machine

/-- One rule for each access of at most 32 bytes at an address below `bound` that the predicate does not admit. -/
def singleDenials (bound : Nat) (p : Nat → Nat → AccessKind → Bool) : List Denial :=
  [AccessKind.read, .write].flatMap fun kind => (List.range 33).flatMap fun n =>
    ((List.range bound).filter fun addr => !p addr n kind).map (.single kind n)

theorem mem_singleDenials {bound : Nat} {p : Nat → Nat → AccessKind → Bool} {d : Denial} :
    d ∈ singleDenials bound p ↔
      ∃ kind n addr, n ≤ 32 ∧ addr < bound ∧ p addr n kind = false ∧ d = .single kind n addr := by
  have hkind (kind : AccessKind) : kind ∈ [AccessKind.read, .write] := by cases kind <;> decide
  simp only [singleDenials, List.mem_flatMap, List.mem_map, List.mem_filter, List.mem_range, hkind, true_and,
    Nat.lt_succ_iff, Bool.not_eq_true', and_assoc, exists_and_left, eq_comm (a := d)]

theorem deniesAccess_single (xlen : Nat) (k kind : AccessKind) (bytes n a addr : Nat) :
    deniesAccess xlen (.single k bytes a) kind addr n = true ↔ k = kind ∧ bytes = n ∧ a = addr := by
  simp [deniesAccess, and_assoc]

/-- A rule of the list denies an access exactly when the predicate does not admit it. -/
theorem exists_singleDenials_denies {bound xlen addr n : Nat} {p : Nat → Nat → AccessKind → Bool} {kind : AccessKind}
    (haddr : addr < bound) (hn : n ≤ 32) :
    (∃ d ∈ singleDenials bound p, deniesAccess xlen d kind addr n = true) ↔ p addr n kind = false := by
  constructor
  · rintro ⟨d, hd, hdeny⟩
    obtain ⟨k, bytes, a, -, -, hp, rfl⟩ := mem_singleDenials.1 hd
    obtain ⟨rfl, rfl, rfl⟩ := (deniesAccess_single ..).1 hdeny
    exact hp
  · intro hp
    exact ⟨.single kind n addr, mem_singleDenials.2 ⟨kind, n, addr, hn, haddr, hp, rfl⟩,
      (deniesAccess_single ..).2 ⟨rfl, rfl, rfl⟩⟩

theorem all_not_denies_singleDenials {bound xlen addr n : Nat} {p : Nat → Nat → AccessKind → Bool} {kind : AccessKind}
    (haddr : addr < bound) (hn : n ≤ 32) :
    ((singleDenials bound p).all fun d => !deniesAccess xlen d kind addr n) = p addr n kind := by
  rw [List.all_eq_not_any_not, Bool.not_eq_eq_eq_not, Bool.eq_iff_iff]
  simp only [Bool.not_not, List.any_eq_true, exists_singleDenials_denies haddr hn, Bool.not_eq_true']

/-- Where the context's rules are that list, it admits what the predicate admits, on bytes that have values (20_memory.md R74). -/
theorem memAdmit_of_singleDenials {c : Context} {bound addr n : Nat} {p : Nat → Nat → AccessKind → Bool}
    (hc : c.denials = singleDenials bound p) (m : Memory) (kind : AccessKind) (haddr : addr < bound) (hn : n ≤ 32) :
    memAdmit c m addr n kind = (m.valued c.xlen addr n && p addr n kind) := by
  rw [memAdmit, hc, all_not_denies_singleDenials haddr hn]

/-- Settles O11: the rules are the accesses below 2^XLEN that the predicate does not admit, denied one by one. -/
theorem everyMemAdmitIsAListOfDenials : Obligations.EveryMemAdmitIsAListOfDenials := by
  intro mode64 vlen p
  refine ⟨singleDenials (2 ^ (Context.mk mode64 vlen []).xlen) p, fun m addr n kind haddr hn => ?_⟩
  exact memAdmit_of_singleDenials rfl m kind haddr hn

end Sys2Proof.Proofs
end

section
/-! PROOFS. Reading and writing one operand of each kind (00_scope.md R14), with the bits of a register's views (10_state.md R32, R33). -/

namespace Sys2Proof.Proofs
open Sys2Proof.Machine

/-! ### The bits of a view -/

theorem getLsbD_rdView (x : GprCell) {k : View} {b : Nat} (h : b < k.bits) : (rdView x k).getLsbD b = x.getLsbD (k.low + b) := by
  simp [rdView, h]

/-- The bits a view covers are those its read returns after the write. -/
theorem getLsbD_wrView_inside (x : GprCell) {k : View} (v : BitVec k.bits) {b : Nat} (h : k.low ≤ b ∧ b < k.low + k.bits) :
    (wrView x k v).getLsbD b = v.getLsbD (b - k.low) := by
  have hread := getLsbD_rdView (wrView x k v) (show b - k.low < k.bits by omega)
  rw [rdView_wrView_self, Nat.add_sub_cancel' h.1] at hread
  exact hread.symm

theorem getLsbD_wrView_x32_high (x : GprCell) (v : BitVec View.x32.bits) {b : Nat} (h : 32 ≤ b) :
    (wrView x .x32 v).getLsbD b = false :=
  Nat.testBit_lt_two_pow ((wrView_x32_lt x v).trans_le (Nat.pow_le_pow_right (by omega) h))

/-- A write of a view other than `X32` changes no bit outside the view. -/
theorem viewChanges_outside {k : View} {b : Nat} (h : ¬(k.low ≤ b ∧ b < k.low + k.bits)) (hk : k ≠ .x32) (hb : b < 64) :
    viewChanges k b = false := by
  cases k <;> simp [viewChanges, View.low, View.bits] at h hk ⊢ <;> omega

theorem getLsbD_wrView (x : GprCell) (k : View) (v : BitVec k.bits) {b : Nat} (hb : b < 64) :
    (wrView x k v).getLsbD b =
      if k.low ≤ b ∧ b < k.low + k.bits then v.getLsbD (b - k.low) else if k = .x32 then false else x.getLsbD b := by
  split_ifs with hin hk
  · exact getLsbD_wrView_inside x v hin
  · subst hk
    exact getLsbD_wrView_x32_high x v (by simp [View.low, View.bits] at hin; omega)
  · exact wrView_keeps x k v b (viewChanges_outside hin hk hb)

/-! ### Memory and vector operands -/

theorem toNat_read_mem (s : State) (a : BitVec 64) (n : Nat) :
    (s.read (8 * n) (.mem a n)).toNat = s.mach.mem.read s.ctx.xlen a.toNat n := by
  rw [read_mem, BitVec.toNat_ofNat, Nat.mod_eq_of_lt (read_lt ..)]

theorem getLsbD_read_vec (s : State) (j : Fin 16) {b : Nat} (hb : b < s.ctx.vlen.bits) :
    (s.read s.ctx.vlen.bits (.vec j)).getLsbD b = (s.mach.vreg[j]).getLsbD b := by
  simp [hb]

theorem getLsbD_writeOp_vec (c : Context) (m : MachineState) (j : Fin 16) (v : BitVec c.vlen.bits) {b : Nat} (hb : b < c.vlen.bits) :
    ((writeOp c m ⟨.vec j, c.vlen.bits, v⟩).vreg[j]).getLsbD b = v.getLsbD b := by
  have h256 : b < 256 := hb.trans_le (vlen_le c.vlen)
  simp [writeOp_vec, h256]

/-- Settles O58: the views bit by bit, then each kind of operand by what its read and its write are. -/
theorem viewsReadAndWriteTheirBits : Obligations.ViewsReadAndWriteTheirBits := by
  refine ⟨fun x k v b hb => ⟨getLsbD_rdView x, getLsbD_wrView x k v hb⟩, fun s => ⟨?reg, ?mem, ?vec, ?imm⟩⟩
  case reg =>
    intro i k v
    simp only [read_reg, writeOp_reg, BitVec.setWidth_eq, and_self]
  case mem => exact fun a n v => ⟨toNat_read_mem s a n, writeOp_mem s.ctx s.mach a n v⟩
  case vec =>
    intro j v
    obtain ⟨-, hother, -⟩ := writeOp_frame s.ctx s.mach ⟨.vec j, s.ctx.vlen.bits, v⟩
    exact ⟨fun b hb => getLsbD_read_vec s j hb, fun b hb => getLsbD_writeOp_vec s.ctx s.mach j v hb,
      fun i hij => hother i (by simpa using hij.symm), rfl⟩
  case imm =>
    intro n v w
    exact ⟨by rw [read_imm, BitVec.setWidth_eq], writeOp_imm s.ctx s.mach n v w⟩

end Sys2Proof.Proofs
end

section
/-! PROOFS. The invariant of the machine: it holds where a context is instantiated (70_reset_and_hazards.md R360), and every step, which makes one
call of the driver's list (10_state.md R44), keeps it. -/

namespace Sys2Proof.Proofs
open Sys2Proof.Machine

/-! ### One step -/

/-- A call whose word selects row i runs i and goes on as `advance` says. -/
theorem step_eq_advance_exec {s : State} {c : Call} {cs : List Call} {i : Instr} (hc : s.calls = c :: cs) (hd : decode c.ctl = .ok i) :
    step s = advance (exec i s) := by
  simp only [step, hc, hd]

/-- A row that goes on leaves the context and the driver's calls as they are. -/
theorem exec_keeps_ctx_calls {i : Instr} {s t : State} (h : exec i s = .next t) : t.ctx = s.ctx ∧ t.calls = s.calls := by
  obtain ⟨-, ps, f, evs, rfl, -⟩ := exec_next h
  exact ⟨rfl, rfl⟩

/-- Settles O5: the step is `advance` of the row's outcome, and the row leaves the call it runs at the head of the list. -/
theorem stepRunsTheDecodedRow : Obligations.StepRunsTheDecodedRow := by
  intro s c cs i hc hd
  rw [step_eq_advance_exec hc hd]
  refine ⟨fun t ht => ?_, fun f hf => ?_, fun r hr => ?_⟩
  · rw [ht, advance_next, (exec_keeps_ctx_calls ht).2, hc, List.tail_cons]
  · rw [hf, advance_fault]
  · rw [hr, advance_refused]

/-- Settles O56: the row keeps the context and the calls, and the step drops the first call. -/
theorem stepMakesOneCallInTheSameContext : Obligations.StepMakesOneCallInTheSameContext := by
  intro s t h
  obtain ⟨c, cs, i, u, hc, -, hu, rfl⟩ := step_next h
  exact ⟨(exec_keeps_ctx_calls hu).1, c, hc⟩

/-! ### What a destination write keeps -/

/-- The invariant as a property of a context and a `MachineState`. -/
structure MachineInv (c : Context) (m : MachineState) : Prop where
  mem_wf : m.mem.wf
  mem_bounded : ∀ cell ∈ m.mem, cell.1 < 2 ^ c.xlen
  gpr_absent : ∀ i : Fin 16, c.ngpr ≤ i.val → m.gpr[i] = 0
  gpr_bounded : ∀ i : Fin 16, (m.gpr[i]).toNat < 2 ^ c.xlen
  vreg_absent : ∀ j : Fin 16, c.nvreg ≤ j.val → m.vreg[j] = 0
  vreg_bounded : ∀ j : Fin 16, (m.vreg[j]).toNat < 2 ^ c.vlen.bits

theorem inv_iff_machineInv (s : State) : s.Inv ↔ MachineInv s.ctx s.mach :=
  ⟨fun ⟨hw, hb, hg, hgb, hv, hvb⟩ => ⟨hw, hb, hg, hgb, hv, hvb⟩, fun ⟨hw, hb, hg, hgb, hv, hvb⟩ => ⟨hw, hb, hg, hgb, hv, hvb⟩⟩

/-- A view that is present is a view of a register that exists. -/
theorem lt_ngpr_of_present {c : Context} {i : Fin 16} {k : View} (h : k.present c i = true) : i.val < c.ngpr := by
  have hi := i.isLt
  cases hm : c.mode64 <;> cases k <;> simp [View.present, Context.ngpr, hm] at h ⊢ <;> omega

/-- A cell below 2^XLEN stays there when a view that is present is written: with `XLEN` = 32 no 64-bit view is present. -/
theorem wrView_bounded {c : Context} {i : Fin 16} {k : View} (hp : k.present c i = true) {x : GprCell} (v : BitVec k.bits)
    (hx : x.toNat < 2 ^ c.xlen) : (wrView x k v).toNat < 2 ^ c.xlen := by
  unfold Context.xlen at *
  cases hm : c.mode64 with
  | true => simpa using (wrView x k v).isLt
  | false =>
    have hk : k ≠ .x64 := by rintro rfl; simp [View.present, hm] at hp
    simpa using wrView_lt_of_narrow x k v hk (by simpa [hm] using hx)

/-- A vector cell that is written has nothing above `VLEN`. -/
theorem setWidth_vec_bounded (vl : VLen) (v : BitVec vl.bits) : (v.setWidth 256).toNat < 2 ^ vl.bits := by
  rw [BitVec.toNat_setWidth_of_le (vlen_le vl)]
  exact v.isLt

/-- A register file in which every cell has a property keeps it when the cell written has it. -/
theorem forall_getElem_set {α : Type} {P : Fin 16 → α → Prop} {xs : Vector α 16} {i : Fin 16} {x : α} (hx : P i x)
    (h : ∀ j : Fin 16, P j xs[j]) (j : Fin 16) : P j (xs.set i x)[j] := by
  by_cases hij : i = j
  · subst hij; simpa using hx
  · have hne : i.val ≠ j.val := fun e => hij (Fin.ext e)
    simpa [hne] using h j

theorem writeOp_keeps_machineInv {s : State} {m : MachineState} {p : Put} (hw : Writable s p) (hm : MachineInv s.ctx m) :
    MachineInv s.ctx (writeOp s.ctx m p) := by
  obtain ⟨h, n, v⟩ := p
  obtain ⟨hsize, hexists⟩ := hw
  cases h with
  | reg i k =>
    have hi := lt_ngpr_of_present hexists
    exact { hm with
      gpr_absent := forall_getElem_set (P := fun j x => s.ctx.ngpr ≤ j.val → x = 0) (fun h => absurd h (by omega)) hm.gpr_absent
      gpr_bounded := forall_getElem_set (P := fun _ (x : GprCell) => x.toNat < 2 ^ s.ctx.xlen)
        (wrView_bounded hexists _ (hm.gpr_bounded i)) hm.gpr_bounded }
  | vec j =>
    obtain rfl : n = s.ctx.vlen.bits := hsize
    exact { hm with
      vreg_absent := forall_getElem_set (P := fun j x => s.ctx.nvreg ≤ j.val → x = 0)
        (fun h => absurd hexists (Nat.not_lt.2 h)) hm.vreg_absent
      vreg_bounded := forall_getElem_set (P := fun _ (x : VecCell) => x.toNat < 2 ^ s.ctx.vlen.bits)
        (setWidth_vec_bounded s.ctx.vlen v) hm.vreg_bounded }
  | mem a b => exact { hm with mem_wf := write_wf _ _ _ _ _ hm.mem_wf, mem_bounded := write_bounded _ _ _ _ _ hm.mem_bounded }
  | imm b x => exact hm

theorem writeOps_keeps_machineInv {s : State} {ps : List Put} (hw : ∀ p ∈ ps, Writable s p) {m : MachineState}
    (hm : MachineInv s.ctx m) : MachineInv s.ctx (writeOps s.ctx m ps) := by
  induction ps generalizing m with
  | nil => exact hm
  | cons p ps ih =>
    obtain ⟨hp, hps⟩ := List.forall_mem_cons.1 hw
    exact ih hps (writeOp_keeps_machineInv hp hm)

/-- The invariant says nothing about flags. -/
theorem settle_keeps_machineInv {s : State} {ps : List Put} (hw : ∀ p ∈ ps, Writable s p) (f : FlagWrite)
    (hm : MachineInv s.ctx s.mach) : MachineInv s.ctx (settle s.ctx s.mach ps f) :=
  { writeOps_keeps_machineInv hw hm with }

/-- Settles O52: what a step changes is destinations that exist in the mode, and a write of each keeps the invariant. -/
theorem stepKeepsTheInvariant : Obligations.StepKeepsTheInvariant := by
  intro s t hs h
  obtain ⟨c, cs, i, u, -, -, hu, rfl⟩ := step_next h
  obtain ⟨-, ps, f, evs, rfl, hw⟩ := exec_next hu
  exact (inv_iff_machineInv _).2 (settle_keeps_machineInv hw f ((inv_iff_machineInv s).1 hs))

/-! ### Instantiation -/

theorem xlen_le (c : Context) : c.xlen ≤ 64 := by unfold Context.xlen; split <;> omega

section
variable (c : Context) (init : InitState) (calls : List Call)

/-- A register of the mode has the value given, cut to `XLEN` bits; another is 0. -/
theorem toNat_instantiate_gpr (i : Fin 16) :
    ((instantiate c init calls).mach.gpr[i]).toNat = if i.val < c.ngpr then (init.gpr[i]).toNat % 2 ^ c.xlen else 0 := by
  have hmod : (init.gpr[i]).toNat % 2 ^ c.xlen < 2 ^ 64 :=
    (Nat.mod_lt _ (by positivity)).trans_le (Nat.pow_le_pow_right (by omega) (xlen_le c))
  by_cases hi : i.val < c.ngpr
  · simpa [instantiate, hi] using hmod
  · simp [instantiate, hi]

/-- A vector register of the mode has the value given, cut to `VLEN` bits; another is 0. -/
theorem toNat_instantiate_vreg (j : Fin 16) :
    ((instantiate c init calls).mach.vreg[j]).toNat = if j.val < c.nvreg then (init.vreg[j]).toNat % 2 ^ c.vlen.bits else 0 := by
  have hmod : (init.vreg[j]).toNat % 2 ^ c.vlen.bits < 2 ^ 256 :=
    (Nat.mod_lt _ (by positivity)).trans_le (Nat.pow_le_pow_right (by omega) (vlen_le c.vlen))
  by_cases hj : j.val < c.nvreg
  · simpa [instantiate, hj] using hmod
  · simp [instantiate, hj]

theorem instantiate_inv : (instantiate c init calls).Inv := by
  refine ⟨ofCells_wf _ _, ofCells_bounded _ _, fun i hi => ?_, fun i => ?_, fun j hj => ?_, fun j => ?_⟩
  · exact BitVec.eq_of_toNat_eq ((toNat_instantiate_gpr c init calls i).trans (if_neg (Nat.not_lt.2 hi)))
  · rw [toNat_instantiate_gpr]
    split
    · exact Nat.mod_lt _ (by positivity)
    · positivity
  · exact BitVec.eq_of_toNat_eq ((toNat_instantiate_vreg c init calls j).trans (if_neg (Nat.not_lt.2 hj)))
  · rw [toNat_instantiate_vreg]
    split
    · exact Nat.mod_lt _ (by positivity)
    · positivity

end

theorem given_none {o : Option Bool} (h : o = none) : FlagVal.given o = .u := by rw [h]; rfl

theorem given_some {o : Option Bool} (b : Bool) (h : o = some b) : FlagVal.given o = .ofBool b := by rw [h]; rfl

/-- Settles O54: the registers, the flags and the bytes of an instantiated context one by one. -/
theorem instantiationFollowsInitState : Obligations.InstantiationFollowsInitState := by
  intro c init calls
  exact ⟨instantiate_inv c init calls, rfl, rfl, rfl,
    fun i hi => (toNat_instantiate_gpr c init calls i).trans (if_pos hi),
    fun j hj => (toNat_instantiate_vreg c init calls j).trans (if_pos hj),
    given_none, given_none, given_none, given_none, given_none, given_none,
    given_some, given_some, given_some, given_some, given_some, given_some,
    byteAt_ofCells c.xlen init.mem⟩

end Sys2Proof.Proofs
end

section
/-! PROOFS. The handles a row takes, read off its control word (30_encoding.md R102, R104, R110): the slots of the model are the operands that the
encoded SH field asks for, at the widths of WC. -/

namespace Sys2Proof.Proofs
open Sys2Proof.Machine

/-! ### The fields of a row's control word -/

theorem opField_encode (i : Instr) : opField (encode i) = (opCode i).toNat :=
  congrArg BitVec.toNat ((BitVec.extractLsb'_append_eq_of_le (by decide)).trans BitVec.extractLsb'_append_eq_left)

theorem shField_encode (i : Instr) : shField (encode i) = (shapeCode i.shape).toNat :=
  congrArg BitVec.toNat ((BitVec.extractLsb'_append_eq_of_le (by decide)).trans BitVec.extractLsb'_append_eq_right)

/-- The rows whose second operand is an 8-bit count are those of OP 0x30 to 0x32. -/
theorem countBits_getD (i : Instr) (n : Nat) :
    i.countBits.getD n = if opField (encode i) ∈ [0x30, 0x31, 0x32] then 8 else n := by
  rw [opField_encode]
  cases i <;> rfl

/-! ### One handle and one slot -/

/-- A register exists and has the view exactly where R32 says. -/
theorem present_iff (c : Context) (i : Fin 16) (k : View) :
    k.present c i = true ↔
      i.val < c.ngpr ∧ (k = .l8 → c.mode64 = true ∨ i.val < 4) ∧ (k = .h8 → i.val < 4) ∧ (k = .x64 → c.mode64 = true) := by
  have hi := i.isLt
  cases hm : c.mode64 <;> cases k <;> simp [View.present, Context.ngpr, hm] <;> omega

theorem fits_reg_iff {c : Context} {n : Nat} {h : Handle} : h.fits c (.reg n) = true ↔ RegOperand c n h := by
  constructor
  · intro hf
    obtain ⟨i, k, rfl, hp, hk⟩ := fits_reg hf
    exact ⟨i, k, rfl, hk, (present_iff c i k).1 hp⟩
  · rintro ⟨i, k, rfl, hk, hp⟩
    simp [Handle.fits, hk, (present_iff c i k).2 hp]

theorem fits_mem_iff {c : Context} {n bytes : Nat} {h : Handle} (hn : 8 * bytes = n) :
    h.fits c (.mem bytes) = true ↔ MemOperand c n h := by
  constructor
  · intro hf
    obtain ⟨a, rfl, ha⟩ := fits_mem hf
    exact ⟨a, bytes, rfl, hn, ha⟩
  · rintro ⟨a, b, rfl, hb, ha⟩
    simpa [Handle.fits, ha] using Nat.eq_of_mul_eq_mul_left (by omega) (hb.trans hn.symm)

theorem fits_imm_iff {c : Context} {n : Nat} {h : Handle} : h.fits c (.imm n) = true ↔ ImmOperand n h := by
  constructor
  · exact fits_imm
  · rintro ⟨v, rfl⟩
    simp [Handle.fits]

theorem fits_vec_iff {c : Context} {h : Handle} : h.fits c .vec = true ↔ VecOperand c h := by
  constructor
  · exact fits_vec
  · rintro ⟨j, rfl, hj⟩
    simpa [Handle.fits] using hj

/-! ### Lists of handles and slots -/

theorem handlesFit_one_iff {c : Context} {s1 : Slot} {hs : List Handle} :
    handlesFit c [s1] hs = true ↔ ∃ a, hs = [a] ∧ a.fits c s1 = true :=
  ⟨handlesFit_one, by rintro ⟨a, rfl, ha⟩; simp [handlesFit, ha]⟩

theorem handlesFit_two_iff {c : Context} {s1 s2 : Slot} {hs : List Handle} :
    handlesFit c [s1, s2] hs = true ↔ ∃ a b, hs = [a, b] ∧ a.fits c s1 = true ∧ b.fits c s2 = true :=
  ⟨handlesFit_two, by rintro ⟨a, b, rfl, ha, hb⟩; simp [handlesFit, ha, hb]⟩

theorem handlesFit_three_iff {c : Context} {s1 s2 s3 : Slot} {hs : List Handle} :
    handlesFit c [s1, s2, s3] hs = true ↔ ∃ a b d, hs = [a, b, d] ∧ a.fits c s1 = true ∧ b.fits c s2 = true ∧ d.fits c s3 = true :=
  ⟨handlesFit_three, by rintro ⟨a, b, d, rfl, ha, hb, hd⟩; simp [handlesFit, ha, hb, hd]⟩

/-! ### The handles of a row -/

/-- W of a row in bits (30_encoding.md R101). -/
def rowBits (vlen : VLen) (i : Instr) : Nat := (i.width.map Width.bits).getD vlen.bits

theorem countBits_of_width_none {i : Instr} (h : i.width = none) : i.countBits = none := by
  cases i <;> simp [Instr.width, Instr.countBits] at h ⊢

/-- The slots of a row are its shape's, at W bits and with a second operand of 8 bits for the shifts. -/
theorem slots_eq (vlen : VLen) (i : Instr) :
    ∃ bytes, 8 * bytes = rowBits vlen i ∧ i.slots vlen
      = i.shape.slots (rowBits vlen i) bytes (if opField (encode i) ∈ [0x30, 0x31, 0x32] then 8 else rowBits vlen i) := by
  rw [← countBits_getD]
  cases hw : i.width with
  | some w => exact ⟨w.bytes, by simp only [rowBits, hw]; cases w <;> rfl, by simp [Instr.slots, rowBits, hw]⟩
  | none =>
    exact ⟨vlen.bytes, by simp only [rowBits, hw]; cases vlen <;> rfl,
      by simp [Instr.slots, rowBits, hw, countBits_of_width_none hw]⟩

/-- Handles fit a row's slots exactly when they are what its SH asks for: shape by shape. -/
theorem operandsFit_iff_operandsMatch (c : Context) (i : Instr) (hs : List Handle) :
    i.operandsFit c hs = true ↔ OperandsMatch c i hs := by
  obtain ⟨bytes, hbytes, hslots⟩ := slots_eq c.vlen i
  rw [Instr.operandsFit, hslots]
  unfold OperandsMatch
  extract_lets n n2
  have hn : rowBits c.vlen i = n := by simp only [rowBits, n]; cases i.width <;> rfl
  rw [hn] at hbytes ⊢
  rw [shField_encode]
  change handlesFit c (i.shape.slots n bytes n2) hs = true ↔ _
  cases i.shape <;>
    simp only [Shape.slots, shapeCode, handlesFit_one_iff, handlesFit_two_iff, handlesFit_three_iff, fits_reg_iff,
      fits_mem_iff hbytes, fits_imm_iff, fits_vec_iff] <;> rfl

/-! ### The refusal -/

/-- A row that is ready goes on or faults. -/
theorem exec_ne_refused_of_ready {i : Instr} {s : State} (h : s.ready i = true) (r : Refusal) : exec i s ≠ .refused r := by
  by_cases hx : ∃ sh w, i = .xadd sh w
  · obtain ⟨sh, w, rfl⟩ := hx
    rw [show exec (.xadd sh w) s = _ from execXadd_ready h]
    nofun
  · push Not at hx
    rcases exec_ready h hx with ⟨rs, ps, f, e, -⟩ | ⟨-, c, e⟩ <;> rw [e] <;> nofun

theorem exec_operandMismatch_iff {i : Instr} {s : State} (ha : i.available s.ctx = true) :
    exec i s = .refused .operandMismatch ↔ i.operandsFit s.ctx s.handles = false := by
  rcases exec_checks i s with ⟨hna, -⟩ | ⟨-, hf, e⟩ | ⟨-, hf, -, e⟩ | hr
  · simp [ha] at hna
  · simp [e, hf]
  · simp [e, hf]
  · simp [exec_ne_refused_of_ready hr, ((ready_iff s i).1 hr).2.1]

/-- Settles O8: the row is refused exactly when its slots do not fit, and the slots are what SH and WC ask for. -/
theorem mismatchedOperandsAreRefused : Obligations.MismatchedOperandsAreRefused := by
  intro i s ha
  rw [exec_operandMismatch_iff ha, ← operandsFit_iff_operandsMatch, Bool.not_eq_true]

end Sys2Proof.Proofs
end

section
/-! PROOFS. What a row reads. A row that goes on does what its operands, the context and, for ADC and SBB, the carry-in determine
(30_encoding.md R120): from two states that agree on these it carries out the same writes, flag writes and events. -/

namespace Sys2Proof.Proofs
open Sys2Proof.Machine

/-! ### Two states with the same inputs -/

/-- s' has the context, the registers, the memory and the operand handles of s. -/
structure SameInputs (s s' : State) : Prop where
  ctx : s'.ctx = s.ctx
  gpr : s'.mach.gpr = s.mach.gpr
  vreg : s'.mach.vreg = s.mach.vreg
  mem : s'.mach.mem = s.mach.mem
  handles : s'.handles = s.handles

/-- The state after destination writes, flag writes and events. -/
def afterEffect (s : State) (ps : List Put) (f : FlagWrite) (evs : List Event) : State :=
  { s with mach := settle s.ctx s.mach ps f, trace := s.trace ++ evs }

/-- Where the first result goes on from s, the second goes on from s' with the same writes, flag writes and events. -/
structure SameEffect (s s' : State) (r r' : Result) : Prop where
  of_next : ∀ {t}, r = .next t → ∃ ps f evs, t = afterEffect s ps f evs ∧ r' = .next (afterEffect s' ps f evs)

theorem sameEffect_afterEffect (s s' : State) (ps : List Put) (f : FlagWrite) (evs : List Event) :
    SameEffect s s' (.next (afterEffect s ps f evs)) (.next (afterEffect s' ps f evs)) :=
  ⟨fun h => ⟨ps, f, evs, (Host.Outcome.next.inj h).symm, rfl⟩⟩

theorem sameEffect_fault (s s' : State) (f : Fault) (r' : Result) : SameEffect s s' (.fault f) r' := ⟨nofun⟩

section
variable {s s' : State} (h : SameInputs s s')
include h

theorem SameInputs.operand (k : Nat) : s'.operand k = s.operand k := by rw [State.operand, h.handles, State.operand]

theorem SameInputs.op1 : s'.op1 = s.op1 := h.operand 0
theorem SameInputs.op2 : s'.op2 = s.op2 := h.operand 1
theorem SameInputs.op3 : s'.op3 = s.op3 := h.operand 2

theorem SameInputs.read (n : Nat) (o : Handle) : s'.read n o = s.read n o := by
  cases o <;> simp [h.ctx, h.gpr, h.vreg, h.mem]

theorem SameInputs.ready (i : Instr) : s'.ready i = s.ready i := by
  simp [State.ready, State.admits, h.ctx, h.mem, h.handles]

/-- The checks before a row pass in both states or in neither. -/
theorem sameEffect_perform (i : Instr) {body body' : Result} (hb : SameEffect s s' body body') :
    SameEffect s s' (perform i s body) (perform i s' body') := by
  constructor
  intro t ht
  obtain ⟨hr, hbody⟩ := perform_next ht
  rw [perform_ready body' ((h.ready i).trans hr)]
  exact hb.of_next hbody

theorem sameEffect_perform_commit (i : Instr) (rs : List Handle) (ps : List Put) (f : FlagWrite) :
    SameEffect s s' (perform i s (.next (s.commit rs ps f))) (perform i s' (.next (s'.commit rs ps f))) :=
  sameEffect_perform h i (sameEffect_afterEffect s s' ps f _)

/-! ### The shared operations -/

theorem sameEffect_binaryOp (i : Instr) (n : Nat) (f : BitVec n → BitVec n → BitVec n × FlagWrite) :
    SameEffect s s' (binaryOp i n f s) (binaryOp i n f s') := by
  simp only [binaryOp, h.read, h.op1, h.op2]
  exact sameEffect_perform_commit h ..

theorem sameEffect_unaryOp (i : Instr) (n : Nat) (f : BitVec n → BitVec n × FlagWrite) :
    SameEffect s s' (unaryOp i n f s) (unaryOp i n f s') := by
  simp only [unaryOp, h.read, h.op1]
  exact sameEffect_perform_commit h ..

theorem sameEffect_compareOp (i : Instr) (n : Nat) (f : BitVec n → BitVec n → FlagWrite) :
    SameEffect s s' (compareOp i n f s) (compareOp i n f s') := by
  simp only [compareOp, h.read, h.op1, h.op2]
  exact sameEffect_perform_commit h ..

theorem sameEffect_shiftOp (i : Instr) (w : Width) (f : BitVec w.bits → Nat → BitVec w.bits × FlagWrite) :
    SameEffect s s' (shiftOp i w f s) (shiftOp i w f s') := by
  simp only [shiftOp, h.read, h.op1, h.op2]
  exact sameEffect_perform_commit h ..

theorem sameEffect_multiplyAx (i : Instr) (p : BitVec 16) (f : FlagWrite) :
    SameEffect s s' (multiplyAx i p f s) (multiplyAx i p f s') := by
  simp only [multiplyAx, h.op1]
  exact sameEffect_perform_commit h ..

theorem sameEffect_multiplySplit (i : Instr) (w : WideWidth) (lo hi : BitVec w.width.bits) (f : FlagWrite) :
    SameEffect s s' (multiplySplit i w lo hi f s) (multiplySplit i w lo hi f s') := by
  simp only [multiplySplit, h.op1]
  exact sameEffect_perform_commit h ..

theorem sameEffect_divideAx (q r : BitVec 8) : SameEffect s s' (.next (divideAx q r s)) (.next (divideAx q r s')) := by
  simp only [divideAx, h.op1]
  exact sameEffect_afterEffect ..

theorem sameEffect_divideSplit (w : WideWidth) (q r : BitVec w.width.bits) :
    SameEffect s s' (.next (divideSplit w q r s)) (.next (divideSplit w q r s')) := by
  simp only [divideSplit, h.op1]
  exact sameEffect_afterEffect ..

/-! ### Every row -/

/-- A row has the same effect in states with the same inputs, where ADC and SBB also have the same carry-in. -/
theorem sameEffect_exec {i : Instr} (hc : (∃ sh w, i = .adc sh w ∨ i = .sbb sh w) → s'.carryIn = s.carryIn) :
    SameEffect s s' (exec i s) (exec i s') := by
  cases i with
  | add | sub | and | or | xor | imul2 =>
    simp only [exec, execAdd, execSub, execAnd, execOr, execXor, execImul2]
    exact sameEffect_binaryOp h ..
  | adc sh w =>
    simp only [exec, execAdc, hc ⟨sh, w, .inl rfl⟩]
    exact sameEffect_binaryOp h ..
  | sbb sh w =>
    simp only [exec, execSbb, hc ⟨sh, w, .inr rfl⟩]
    exact sameEffect_binaryOp h ..
  | pand | por | pxor | pandn =>
    simp only [exec, execPand, execPor, execPxor, execPandn]
    rw [h.ctx]
    exact sameEffect_binaryOp h ..
  | inc | dec | neg | not =>
    simp only [exec, execInc, execDec, execNeg, execNot]
    exact sameEffect_unaryOp h ..
  | cmp | test =>
    simp only [exec, execCmp, execTest]
    exact sameEffect_compareOp h ..
  | ptest =>
    simp only [exec, execPtest]
    rw [h.ctx]
    exact sameEffect_compareOp h ..
  | shl | shr | sar =>
    simp only [exec, execShl, execShr, execSar]
    exact sameEffect_shiftOp h ..
  | mul _ w | imul1 _ w =>
    cases w with
    | w8 =>
      simp only [exec, execMul, execImul1, mulAx, imulAx, h.read, h.op1]
      exact sameEffect_multiplyAx h ..
    | w16 | w32 | w64 =>
      simp only [exec, execMul, execImul1, mulSplit, imulSplit, h.read, h.op1]
      exact sameEffect_multiplySplit h ..
  | imul3 =>
    simp only [exec, execImul3, h.read, h.op1, h.op2, h.op3]
    exact sameEffect_perform_commit h ..
  | div _ w | idiv _ w =>
    cases w with
    | w8 =>
      simp only [exec, execDiv, execIdiv, divAx, idivAx, State.dividendAx, h.read, h.op1]
      refine sameEffect_perform h _ ?_
      split
      · exact sameEffect_fault ..
      · exact sameEffect_divideAx h ..
    | w16 | w32 | w64 =>
      simp only [exec, execDiv, execIdiv, divSplit, idivSplit, State.dividendSplit, h.read, h.op1]
      refine sameEffect_perform h _ ?_
      split
      · exact sameEffect_fault ..
      · exact sameEffect_divideSplit h ..
  | xadd =>
    simp only [exec, execXadd, h.read, h.op1, h.op2]
    exact sameEffect_perform h _ (sameEffect_afterEffect ..)

end

/-! ### Other flags -/

theorem sameInputs_withFlags (s : State) (f : Flags) : SameInputs s (s.withFlags f) := ⟨rfl, rfl, rfl, rfl, rfl⟩

theorem writeOp_withFlags (c : Context) (m : MachineState) (f : Flags) (p : Put) :
    writeOp c { m with flags := f } p = { writeOp c m p with flags := f } := by
  obtain ⟨h, n, v⟩ := p
  cases h <;> rfl

/-- Destination writes do the same to registers and memory whatever the flags are. -/
theorem writeOps_withFlags (c : Context) (m : MachineState) (f : Flags) (ps : List Put) :
    writeOps c { m with flags := f } ps = { writeOps c m ps with flags := f } := by
  induction ps generalizing m with
  | nil => rfl
  | cons p ps ih => rw [writeOps_cons, writeOp_withFlags, ih, writeOps_cons]

/-- A flag write gives the same value over two old ones, or keeps each. -/
theorem write_same_or_kept (x y : FlagVal) (o : Option FlagVal) : y.write o = x.write o ∨ (x.write o = x ∧ y.write o = y) := by
  cases o with
  | none => exact .inr ⟨rfl, rfl⟩
  | some v => exact .inl rfl

/-- Settles O47: the row has the same effect with other flags, and each flag write is the same value or none. -/
theorem flagsAreReadByAdcAndSbbOnly : Obligations.FlagsAreReadByAdcAndSbbOnly := by
  intro i s t f hi ht
  have hc : ¬ ∃ sh w, i = .adc sh w ∨ i = .sbb sh w := fun ⟨sh, w, h⟩ => h.elim (hi sh w).1 (hi sh w).2
  obtain ⟨ps, fw, evs, rfl, ht'⟩ := (sameEffect_exec (sameInputs_withFlags s f) fun h => absurd h hc).of_next ht
  have hw : writeOps (s.withFlags f).ctx (s.withFlags f).mach ps = { writeOps s.ctx s.mach ps with flags := f } :=
    writeOps_withFlags ..
  exact ⟨_, ht', by simp [afterEffect, hw], by simp [afterEffect, hw], by simp [afterEffect, hw], rfl,
    write_same_or_kept .., write_same_or_kept .., write_same_or_kept .., write_same_or_kept .., write_same_or_kept ..,
    write_same_or_kept ..⟩

/-! ### Another history -/

/-- The present call, which stays the first, holds the handles and the draw. -/
theorem handles_draw_withHistory {s : State} (hs : s.calls ≠ []) (tr : List Event) (later : List Call) :
    (s.withHistory tr later).handles = s.handles ∧ (s.withHistory tr later).draw = s.draw := by
  obtain ⟨c, cs, hc⟩ := List.exists_cons_of_ne_nil hs
  simp [State.handles, State.draw, State.withHistory, hc]

/-- Settles O48: the row has the same effect, the carry-in included, with another trace and other later calls. -/
theorem historyIsNotRead : Obligations.HistoryIsNotRead := by
  intro i s t tr later hs ht
  obtain ⟨hh, hd⟩ := handles_draw_withHistory hs tr later
  have hin : SameInputs s (s.withHistory tr later) := ⟨rfl, rfl, rfl, rfl, hh⟩
  have hcarry : (s.withHistory tr later).carryIn = s.carryIn := by rw [State.carryIn, hd]; rfl
  obtain ⟨ps, f, evs, rfl, ht'⟩ := (sameEffect_exec hin fun _ => hcarry).of_next ht
  exact ⟨_, evs, ht', rfl, rfl, rfl⟩

/-! ### Another draw -/

theorem sameInputs_withDraw (s : State) (d : Bool) : SameInputs s (s.withDraw d) := by
  cases hc : s.calls <;> constructor <;> simp [State.withDraw, State.handles, hc]

/-- Where CF is `U`, the carry-in is the draw. -/
theorem carryIn_withDraw {s : State} (hs : s.calls ≠ []) (hu : s.mach.flags.CF = .u) (d : Bool) : (s.withDraw d).carryIn = d := by
  obtain ⟨c, cs, hc⟩ := List.exists_cons_of_ne_nil hs
  simp [State.carryIn, State.draw, State.withDraw, hc, hu]

theorem carryBits_eq_ite (n : Nat) (d : Bool) : carryBits n d = if d then 1 else 0 := by cases d <;> rfl

/-- A ready two-operand row leaves its result in op1, whatever the draw. -/
theorem binaryOp_withDraw {i : Instr} {sh : BinaryShape} {w : Width} {s : State} (hw : i.width = some w) (hsh : i.shape = sh.shape)
    (hr : s.ready i = true) (d : Bool) (f : BitVec w.bits → BitVec w.bits → BitVec w.bits × FlagWrite) :
    ∃ t, binaryOp i w.bits f (s.withDraw d) = .next t ∧ t.read w.bits s.op1 = (f (s.read w.bits s.op1) (s.read w.bits s.op2)).1 := by
  have hin := sameInputs_withDraw s d
  have hr' : (s.withDraw d).ready i = true := (hin.ready i).trans hr
  have hsize := op1_sized hw (by rw [hsh]; cases sh <;> nofun) (by rw [hsh]; cases sh <;> nofun) hr'
  obtain ⟨t, ht, ⟨hread, -⟩, -⟩ := binaryOp_spec f hr' hsize
  rw [hin.op1, hin.op2, hin.read, hin.read] at hread
  exact ⟨t, ht, hread⟩

/-- Settles O45: the carry-in of the row is the draw, and op1 receives the result with it. -/
theorem unconstrainedCarryAdmitsBothDraws : Obligations.UnconstrainedCarryAdmitsBothDraws := by
  intro sh w s d hu a b
  refine ⟨fun hr => ?_, fun hr => ?_⟩
  · simp only [exec, execAdc, carryIn_withDraw (calls_ne_nil_of_ready hr) hu, ← carryBits_eq_ite]
    exact binaryOp_withDraw rfl rfl hr d _
  · simp only [exec, execSbb, carryIn_withDraw (calls_ne_nil_of_ready hr) hu, ← carryBits_eq_ite]
    exact binaryOp_withDraw rfl rfl hr d _

end Sys2Proof.Proofs
end

section
/-! PROOFS. Memory as bytes (20_memory.md R70 to R73): what a read and a write do, byte by byte, and which bytes have a value (R74). -/

namespace Sys2Proof.Proofs
open Sys2Proof.Machine

/-! ### The bytes of a read -/

/-- The low bytes of a read are the read of as many bytes. -/
theorem read_mod (xlen : Nat) (m : Memory) (addr : Nat) {j n : Nat} (h : j ≤ n) :
    m.read xlen addr n % 2 ^ (8 * j) = m.read xlen addr j := by
  induction n, h using Nat.le_induction with
  | base => exact Nat.mod_eq_of_lt (read_lt ..)
  | succ n hn ih =>
    have hd : 2 ^ (8 * j) ∣ ((m.byteAt (byteAddr xlen addr n)).getD 0).toNat * 2 ^ (8 * n) :=
      (pow_dvd_pow 2 (by omega)).mul_left _
    rw [Memory.read, Nat.add_mod, Nat.mod_eq_zero_of_dvd hd, Nat.add_zero, Nat.mod_mod, ih]

/-- Byte k of a read is the byte at `addr + k` (20_memory.md R71). -/
theorem byte_of_read (xlen : Nat) (m : Memory) (addr : Nat) {k n : Nat} (h : k < n) :
    m.read xlen addr n / 2 ^ (8 * k) % 2 ^ 8 = ((m.byteAt (byteAddr xlen addr k)).getD 0).toNat := by
  calc m.read xlen addr n / 2 ^ (8 * k) % 2 ^ 8
      = m.read xlen addr n % 2 ^ (8 * (k + 1)) / 2 ^ (8 * k) := by
        rw [Nat.mul_succ, Nat.pow_add, Nat.mod_mul_right_div_self]
    _ = m.read xlen addr (k + 1) / 2 ^ (8 * k) := by rw [read_mod xlen m addr h]
    _ = _ := by rw [Memory.read, Nat.add_mul_div_right _ _ (Nat.two_pow_pos _), Nat.div_eq_of_lt (read_lt ..), Nat.zero_add]

/-- A read whose bytes are those of a number gives the number modulo 2^(8n). -/
theorem read_eq_mod_of_bytes {xlen : Nat} {m : Memory} {addr n x : Nat}
    (h : ∀ k < n, ((m.byteAt (byteAddr xlen addr k)).getD 0).toNat = x / 2 ^ (8 * k) % 2 ^ 8) :
    m.read xlen addr n = x % 2 ^ (8 * n) := by
  induction n with
  | zero => simp [Memory.read, Nat.mod_one]
  | succ n ih =>
    rw [Memory.read, ih fun k hk => h k (by omega), h n (by omega), Nat.mul_succ, Nat.pow_add, Nat.mod_mul, Nat.mul_comm (2 ^ (8 * n))]

/-! ### Reads inside a write -/

/-- Byte k from offset j on is byte j + k. -/
theorem byteAddr_offset (xlen addr j k : Nat) : byteAddr xlen (byteAddr xlen addr j) k = byteAddr xlen addr (j + k) := by
  simp only [byteAddr, Nat.mod_add_mod, Nat.add_assoc]

/-- A read of l bytes at offset j of a write sees bytes j to j + l - 1 of the value, in order (20_memory.md R73). -/
theorem read_inside_write {w : Nat} (xlen : Nat) (m : Memory) (addr : Nat) (v : BitVec w) {j l n : Nat} (hjl : j + l ≤ n)
    (hn : n ≤ 2 ^ xlen) :
    (m.write xlen addr v n).read xlen (byteAddr xlen addr j) l = v.toNat / 2 ^ (8 * j) % 2 ^ (8 * l) := by
  refine read_eq_mod_of_bytes fun k hk => ?_
  rw [byteAddr_offset, byteAt_write_self xlen m addr v n (j + k) (by omega) hn, Option.getD_some, BitVec.extractLsb'_toNat,
    Nat.shiftRight_eq_div_pow, Nat.div_div_eq_div_mul, ← Nat.pow_add, Nat.mul_add]

/-- Settles O59: the bytes of a read, the bytes and the frame of a write, and the reads inside a write. -/
theorem memoryIsLittleEndian : Obligations.MemoryIsLittleEndian := by
  intro xlen m addr n v hn
  refine ⟨fun k hk => byte_of_read xlen m addr hk, read_lt xlen m addr n, ?_, fun k hk => byteAt_write_self xlen m addr v n k hk hn,
    fun a ha => byteAt_write_other xlen m addr v n a ha, fun j l h => read_inside_write xlen m addr v h hn⟩
  rw [read_write_self xlen m addr v n hn, Nat.mod_eq_of_lt v.isLt]

/-! ### The listed addresses -/

/-- The bytes that have a value are the listed ones. -/
theorem byteAt_isSome_iff (m : Memory) (a : Nat) : (m.byteAt a).isSome = true ↔ a ∈ m.map Prod.fst := by
  constructor
  · intro h
    obtain ⟨b, hb⟩ := Option.isSome_iff_exists.1 h
    exact List.mem_map.2 ⟨(a, b), mem_of_byteAt m a b hb, rfl⟩
  · intro h
    obtain ⟨cell, hc, ha⟩ := List.mem_map.1 h
    exact byteAt_isSome_of_mem m cell hc ha

/-- Whether the bytes of an access have values is a matter of the listed addresses only. -/
theorem valued_of_map_fst_eq {xlen : Nat} {m m' : Memory} {addr n : Nat} (h : m'.map Prod.fst = m.map Prod.fst)
    (hv : m.valued xlen addr n = true) : m'.valued xlen addr n = true := by
  simp only [valued_iff, byteAt_isSome_iff, h] at hv ⊢
  exact hv

theorem writeOp_wf (c : Context) {m : MachineState} (p : Put) (hm : m.mem.wf) : (writeOp c m p).mem.wf := by
  obtain ⟨h, n, v⟩ := p
  cases h with
  | mem a b => exact write_wf _ _ _ _ _ hm
  | reg _ _ | vec _ | imm _ _ => exact hm

/-- A write of a destination that exists in s keeps the listed addresses of any memory that lists those of s. -/
theorem map_fst_writeOp {s : State} {m : MachineState} {p : Put} (hp : Writable s p) (hm : m.mem.wf)
    (h : m.mem.map Prod.fst = s.mach.mem.map Prod.fst) :
    (writeOp s.ctx m p).mem.map Prod.fst = s.mach.mem.map Prod.fst := by
  obtain ⟨d, n, v⟩ := p
  obtain ⟨-, hvalued⟩ := hp
  cases d with
  | mem a b => exact (map_fst_write _ _ _ _ _ hm (valued_of_map_fst_eq h hvalued)).trans h
  | reg _ _ | vec _ | imm _ _ => exact h

theorem map_fst_writeOps {s : State} {ps : List Put} (hw : ∀ p ∈ ps, Writable s p) {m : MachineState} (hm : m.mem.wf)
    (h : m.mem.map Prod.fst = s.mach.mem.map Prod.fst) :
    (writeOps s.ctx m ps).mem.map Prod.fst = s.mach.mem.map Prod.fst := by
  induction ps generalizing m with
  | nil => exact h
  | cons p ps ih =>
    obtain ⟨hp, hps⟩ := List.forall_mem_cons.1 hw
    exact ih hps (writeOp_wf s.ctx p hm) (map_fst_writeOp hp hm h)

/-- Settles O57: a step writes destinations that exist, whose bytes are listed already. -/
theorem stepKeepsTheListedAddresses : Obligations.StepKeepsTheListedAddresses := by
  intro s t hs h
  obtain ⟨c, cs, i, u, -, -, hu, rfl⟩ := step_next h
  obtain ⟨-, ps, f, evs, rfl, hw⟩ := exec_next hu
  exact map_fst_writeOps hw hs rfl

end Sys2Proof.Proofs
end

section
/-! PROOFS. When a row is stuck (20_memory.md R74, R75): one of the accesses its operands ask for is not admitted. -/

namespace Sys2Proof.Proofs
open Sys2Proof.Machine


/-- An access is not admitted exactly when a byte of it has no value or a rule of the environment denies it. -/
theorem memAdmit_eq_false_iff {c : Context} {m : Memory} {addr n : Nat} {kind : AccessKind} :
    memAdmit c m addr n kind = false ↔
      (∃ b < n, m.byteAt (byteAddr c.xlen addr b) = none) ∨ ∃ d ∈ c.denials, deniesAccess c.xlen d kind addr n = true := by
  have hvalued : m.valued c.xlen addr n = false ↔ ∃ b < n, m.byteAt (byteAddr c.xlen addr b) = none := by
    rw [← Bool.not_eq_true, valued_iff]
    simp
  simp only [memAdmit, Bool.and_eq_false_iff, hvalued, List.all_eq_false, Bool.not_eq_true', Bool.not_eq_false]

/-- An operand is not admitted exactly when it is memory and an access of a kind its role asks for is not. -/
theorem admitsOperand_eq_false_iff {c : Context} {m : Memory} {h : Handle} {a : Access} :
    admitsOperand c m h a = false ↔ ∃ (addr : BitVec 64) (n : Nat) (kind : AccessKind), h = .mem addr n
      ∧ ((kind = .read ∧ a.reads = true) ∨ (kind = .write ∧ a.writes = true)) ∧ memAdmit c m addr.toNat n kind = false := by
  cases h with
  | mem addr n =>
    simp only [admitsOperand, Bool.and_eq_false_iff, Bool.or_eq_false_iff, Bool.not_eq_false', Handle.mem.injEq]
    constructor
    · rintro (⟨hr, hm⟩ | ⟨hw, hm⟩)
      · exact ⟨addr, n, .read, ⟨rfl, rfl⟩, .inl ⟨rfl, hr⟩, hm⟩
      · exact ⟨addr, n, .write, ⟨rfl, rfl⟩, .inr ⟨rfl, hw⟩, hm⟩
    · rintro ⟨_, _, _, ⟨rfl, rfl⟩, ⟨rfl, hr⟩ | ⟨rfl, hw⟩, hm⟩
      · exact .inl ⟨hr, hm⟩
      · exact .inr ⟨hw, hm⟩
  | reg _ _ | vec _ | imm _ _ => simp [admitsOperand]

/-- Operands are not admitted exactly when the one in some slot is not. -/
theorem admitsOperands_eq_false_iff {c : Context} {m : Memory} {hs : List Handle} {as : List Access} :
    admitsOperands c m hs as = false ↔
      ∃ (k : Nat) (h : Handle) (a : Access), hs[k]? = some h ∧ as[k]? = some a ∧ admitsOperand c m h a = false := by
  induction hs generalizing as with
  | nil => simp [admitsOperands]
  | cons h hs ih =>
    cases as with
    | nil => simp [admitsOperands]
    | cons a as =>
      rw [admitsOperands, Bool.and_eq_false_iff, ih]
      constructor
      · rintro (h0 | ⟨k, hk⟩)
        · exact ⟨0, h, a, rfl, rfl, h0⟩
        · exact ⟨k + 1, hk⟩
      · rintro ⟨_ | k, h', a', hh, ha, hf⟩
        · cases hh; cases ha; exact .inl hf
        · exact .inr ⟨k, h', a', hh, ha, hf⟩

/-- A row that is ready goes on or raises the block's fault. -/
theorem exec_next_or_divideError_of_ready {i : Instr} {s : State} (h : s.ready i = true) :
    (∃ t, exec i s = .next t) ∨ ∃ c, exec i s = .fault (.divideError c s.mach) := by
  by_cases hx : ∃ sh w, i = .xadd sh w
  · obtain ⟨sh, w, rfl⟩ := hx
    exact .inl ⟨_, execXadd_ready h⟩
  · push Not at hx
    rcases exec_ready h hx with ⟨rs, ps, f, e, -⟩ | ⟨-, c, e⟩
    · exact .inl ⟨_, e⟩
    · exact .inr ⟨c, e⟩

/-- With its mode and its handles right, a row is stuck exactly when step 4 of 30_encoding.md R120 fails. -/
theorem exec_memNotAdmitted_iff {i : Instr} {s : State} (ha : i.available s.ctx = true) (hf : i.operandsFit s.ctx s.handles = true) :
    exec i s = .fault .memNotAdmitted ↔ s.admits i = false := by
  rcases exec_checks i s with ⟨hna, -⟩ | ⟨-, hnf, -⟩ | ⟨-, -, hm, e⟩ | hr
  · simp [ha] at hna
  · simp [hf] at hnf
  · simp [e, hm]
  · have hm := ((ready_iff s i).1 hr).2.2
    rcases exec_next_or_divideError_of_ready hr with ⟨t, e⟩ | ⟨c, e⟩ <;> simp [e, hm]

/-- Settles O10: the row is stuck exactly when its operands are not admitted, which comes down to one access in one slot. -/
theorem unadmittedAccessIsStuck : Obligations.UnadmittedAccessIsStuck := by
  intro i s ha hf
  rw [exec_memNotAdmitted_iff ha hf, State.admits, admitsOperands_eq_false_iff]
  constructor
  · rintro ⟨k, h, a, hk, hak, hna⟩
    obtain ⟨addr, n, kind, rfl, hkind, hm⟩ := admitsOperand_eq_false_iff.1 hna
    exact ⟨k, addr, n, a, kind, hk, hak, hkind, memAdmit_eq_false_iff.1 hm⟩
  · rintro ⟨k, addr, n, a, kind, hk, hak, hkind, hm⟩
    exact ⟨k, .mem addr n, a, hk, hak, admitsOperand_eq_false_iff.2 ⟨addr, n, kind, rfl, hkind, memAdmit_eq_false_iff.2 hm⟩⟩

end Sys2Proof.Proofs
end

section
/-! PROOFS. The access trace (20_memory.md R80 to R83): the events a row records, their order, and what replaying them does. -/

namespace Sys2Proof.Proofs
open Sys2Proof.Machine

/-! ### What one operand or one flag write records -/

theorem isRead_of_mem_readEvent {h : Handle} {e : Event} (he : e ∈ readEvent h) : e.isRead = true := by
  cases h <;> simp [readEvent] at he <;> simp [he, Event.isRead]

theorem isWrite_of_mem_writeEvent {p : Put} {e : Event} (he : e ∈ writeEvent p) : e.isWrite = true := by
  obtain ⟨h, n, v⟩ := p
  cases h <;> simp [writeEvent] at he <;> simp [he, Event.isWrite]

/-- A write to a destination that exists makes an event: no immediate is such a destination. -/
theorem writeEvent_ne_nil {s : State} {p : Put} (hp : Writable s p) : writeEvent p ≠ [] := by
  obtain ⟨h, n, v⟩ := p
  obtain ⟨hsize, -⟩ := hp
  cases h with
  | imm b x => exact hsize.elim
  | reg _ _ | vec _ | mem _ _ => exact List.cons_ne_nil _ _

/-- Writes to destinations that exist record no event only where there are none. -/
theorem flatMap_writeEvent_eq_nil {s : State} {ps : List Put} (hw : ∀ p ∈ ps, Writable s p) :
    ps.flatMap writeEvent = [] ↔ ps = [] := by
  cases ps with
  | nil => simp
  | cons p ps => simp [writeEvent_ne_nil (hw p List.mem_cons_self)]

/-- No flag written leaves no event; otherwise the flag write, after the marker where there was a destination. -/
theorem flagEvents_cases (ps : List Put) (f : FlagWrite) :
    f = FlagWrite.nothing ∧ flagEvents ps f = []
    ∨ f ≠ FlagWrite.nothing ∧ ps = [] ∧ flagEvents ps f = [.wrFlags f]
    ∨ f ≠ FlagWrite.nothing ∧ ps ≠ [] ∧ flagEvents ps f = [.noReorder, .wrFlags f] := by
  by_cases hf : f = FlagWrite.nothing <;> by_cases hp : ps = [] <;> simp [flagEvents, FlagWrite.writesAny, hf, hp]

/-! ### Replaying the events of an operation -/

theorem replay_readEvent (c : Context) (m : MachineState) (h : Handle) : replay c m (readEvent h) = m := by
  cases h <;> rfl

theorem replay_reads (c : Context) (m : MachineState) (rs : List Handle) : replay c m (rs.flatMap readEvent) = m := by
  induction rs with
  | nil => rfl
  | cons h rs ih => rw [List.flatMap_cons, replay_append, replay_readEvent, ih]

/-- The number in a write event determines the value written, since the destination has its width. -/
theorem replay_writeEvent (c : Context) (m : MachineState) {p : Put} (hp : Sized c p.bits p.dst) :
    replay c m (writeEvent p) = writeOp c m p := by
  obtain ⟨h, n, v⟩ := p
  cases h with
  | reg i k => simp [writeEvent, replayEvent, writeOp_reg]
  | vec j => simp [writeEvent, replayEvent, writeOp_vec]
  | mem a b =>
    obtain ⟨rfl, -⟩ : 8 * b = n ∧ b ≤ 32 := hp
    simp [writeEvent, replayEvent, writeOp_mem]
  | imm b x => rfl

theorem replay_writes (c : Context) (m : MachineState) {ps : List Put} (hp : ∀ p ∈ ps, Sized c p.bits p.dst) :
    replay c m (ps.flatMap writeEvent) = writeOps c m ps := by
  induction ps generalizing m with
  | nil => rfl
  | cons p ps ih =>
    obtain ⟨h, hps⟩ := List.forall_mem_cons.1 hp
    rw [List.flatMap_cons, replay_append, replay_writeEvent c m h, ih _ hps, writeOps_cons]

theorem replay_flagEvents (c : Context) (m : MachineState) (ps : List Put) (f : FlagWrite) :
    replay c m (flagEvents ps f) = { m with flags := f.apply m.flags } := by
  rcases flagEvents_cases ps f with ⟨rfl, e⟩ | ⟨-, -, e⟩ | ⟨-, -, e⟩ <;> rw [e] <;> rfl

/-- The events of an operation other than XADD do to the `MachineState` what the operation does. -/
theorem replay_commit (c : Context) (m : MachineState) (rs : List Handle) {ps : List Put} (f : FlagWrite)
    (hp : ∀ p ∈ ps, Sized c p.bits p.dst) :
    replay c m (rs.flatMap readEvent ++ ps.flatMap writeEvent ++ flagEvents ps f) = settle c m ps f := by
  simp only [replay_append, replay_reads, replay_writes c m hp, replay_flagEvents, writeOps_flags, settle]

/-- XADD's barriers and its marker do nothing; its two writes and its flag write do what the operation does. -/
theorem replay_xaddEvents (c : Context) (m : MachineState) {op1 op2 : Handle} {n : Nat} (sum old : BitVec n) (f : FlagWrite)
    (h1 : Sized c n op1) (h2 : Sized c n op2) :
    replay c m (xaddEvents op1 op2 n sum old f) = settle c m [⟨op1, n, sum⟩, ⟨op2, n, old⟩] f := by
  simp only [xaddEvents, replay_append, replay_readEvent, replay_cons, replay_nil, replayEvent]
  rw [replay_writeEvent c m h1, replay_writeEvent c _ h2, writeOp_flags, writeOp_flags]
  rfl

/-! ### Every row -/

/-- A row other than XADD that goes on has committed writes to destinations that exist. -/
theorem exec_next_commit {i : Instr} {s t : State} (hx : ∀ sh w, i ≠ .xadd sh w) (h : exec i s = .next t) :
    ∃ rs ps f, t = s.commit rs ps f ∧ ∀ p ∈ ps, Writable s p := by
  rcases exec_ready (exec_next h).1 hx with ⟨rs, ps, f, e, hw⟩ | ⟨-, c, e⟩
  · exact ⟨rs, ps, f, Host.Outcome.next.inj (h.symm.trans e), hw⟩
  · rw [e] at h; cases h

/-- Settles O51: the events do to the `MachineState` what `settle` does, for XADD and for every other row. -/
theorem traceReplaysToTheNextState : Obligations.TraceReplaysToTheNextState := by
  intro i s t h
  by_cases hx : ∃ sh w, i = .xadd sh w
  · obtain ⟨sh, w, rfl⟩ := hx
    have hr := (exec_next h).1
    obtain rfl := Host.Outcome.next.inj ((execXadd_ready hr).symm.trans h)
    obtain ⟨h1, j, k, h2, hk, -⟩ := xadd_handles hr
    exact ⟨_, rfl, replay_xaddEvents _ _ _ _ _ h1 (h2 ▸ hk)⟩
  · push Not at hx
    obtain ⟨rs, ps, f, rfl, hw⟩ := exec_next_commit hx h
    exact ⟨_, commit_trace .., replay_commit _ _ _ _ fun p hp => (hw p hp).1⟩

/-- Settles O49: the events of a committed row are those of its reads, of its writes and of its flags; a destination that exists makes an
event, so there are write events exactly where the marker is due. -/
theorem traceIsReadsThenWritesThenFlags : Obligations.TraceIsReadsThenWritesThenFlags := by
  intro i s t hx h
  obtain ⟨rs, ps, f, rfl, hw⟩ := exec_next_commit hx h
  have hnil := flatMap_writeEvent_eq_nil hw
  refine ⟨_, _, _, commit_trace .., fun e he => ?_, fun e he => ?_, ?_⟩
  · obtain ⟨h, -, he⟩ := List.mem_flatMap.1 he
    exact isRead_of_mem_readEvent he
  · obtain ⟨p, -, he⟩ := List.mem_flatMap.1 he
    exact isWrite_of_mem_writeEvent he
  · rcases flagEvents_cases ps f with ⟨-, e⟩ | ⟨hf, hp, e⟩ | ⟨hf, hp, e⟩
    · exact .inl e
    · exact .inr ⟨f, hf, .inl ⟨hnil.2 hp, e⟩⟩
    · exact .inr ⟨f, hf, .inr ⟨hnil.not.2 hp, e⟩⟩

/-! ### XADD -/

/-- ADD's recipe writes all six flags, so what it leaves does not depend on the flags before. -/
theorem addRecipe_apply_eq {n : Nat} (a b r : BitVec n) (o o' : Flags) : (addRecipe a b r).apply o = (addRecipe a b r).apply o' := by
  simp only [addRecipe, arithRecipe_some_apply]

/-- Settles O44: the events are those of `xaddEvents` with the handles put in, and the flag write is ADD's. -/
theorem xaddTraceHasItsBarriers : Obligations.XaddTraceHasItsBarriers := by
  intro sh w s hr a sum j k' h2
  have hsum : (a + s.read w.bits s.op2).toNat = sum := BitVec.toNat_add ..
  refine ⟨_, _, execXadd_ready hr, rfl, fun old => addRecipe_apply_eq .., fun i k h1 => ?_, fun addr m h1 => ?_⟩
  · rw [← hsum]; simp [xaddEvents, readEvent, writeEvent, h1, h2, a]
  · rw [← hsum]; simp [xaddEvents, readEvent, writeEvent, h1, h2, a]

end Sys2Proof.Proofs
end

section
/-! PROOFS. The selection table (30_encoding.md R100 to R105) read in both directions: each field decoder inverts its code, so a word decodes to a row
exactly when it is the row's word; and the listed words are the words of the rows. -/

namespace Sys2Proof.Proofs
open Sys2Proof.Machine

/-! ### The fields of a word -/

theorem wcField_encode (i : Instr) : wcField (encode i) = (widthCode i.width).toNat :=
  congrArg BitVec.toNat BitVec.extractLsb'_append_eq_right

/-- A control word is its three fields (R100). -/
theorem toNat_eq_fields (c : ControlWord) : c.toNat = opField c * 2 ^ 8 + shField c * 2 ^ 4 + wcField c := by
  have hc := c.isLt
  simp only [opField, shField, wcField, BitVec.extractLsb'_toNat, Nat.shiftRight_eq_div_pow]
  omega

theorem eq_encode_iff {c : ControlWord} {i : Instr} :
    c = encode i ↔
      opField c = (opCode i).toNat ∧ shField c = (shapeCode i.shape).toNat ∧ wcField c = (widthCode i.width).toNat := by
  constructor
  · rintro rfl
    exact ⟨opField_encode i, shField_encode i, wcField_encode i⟩
  · rintro ⟨hop, hsh, hwc⟩
    apply BitVec.eq_of_toNat_eq
    rw [toNat_eq_fields c, toNat_eq_fields (encode i), opField_encode, shField_encode, wcField_encode, hop, hsh, hwc]

/-! ### Each field decoder inverts its code -/

theorem decodeWidth_eq_some_iff {n : Nat} {w : Width} : decodeWidth n = some w ↔ n = (widthCode (some w)).toNat := by
  constructor
  · intro h; unfold decodeWidth at h; split at h <;> cases h <;> rfl
  · rintro rfl; cases w <;> rfl

theorem decodeWideWidth_eq_some_iff {n : Nat} {w : WideWidth} :
    decodeWideWidth n = some w ↔ n = (widthCode (some w.width)).toNat := by
  constructor
  · intro h; unfold decodeWideWidth at h; split at h <;> cases h <;> rfl
  · rintro rfl; cases w <;> rfl

theorem decodeUnary_eq_some_iff {n : Nat} {sh : UnaryShape} : decodeUnary n = some sh ↔ n = (shapeCode sh.shape).toNat := by
  constructor
  · intro h; unfold decodeUnary at h; split at h <;> cases h <;> rfl
  · rintro rfl; cases sh <;> rfl

theorem decodeBinary_eq_some_iff {n : Nat} {sh : BinaryShape} : decodeBinary n = some sh ↔ n = (shapeCode sh.shape).toNat := by
  constructor
  · intro h; unfold decodeBinary at h; split at h <;> cases h <;> rfl
  · rintro rfl; cases sh <;> rfl

theorem decodeNoRm_eq_some_iff {n : Nat} {sh : NoRmShape} : decodeNoRm n = some sh ↔ n = (shapeCode sh.shape).toNat := by
  constructor
  · intro h; unfold decodeNoRm at h; split at h <;> cases h <;> rfl
  · rintro rfl; cases sh <;> rfl

theorem decodePacked_eq_some_iff {n : Nat} {sh : PackedShape} : decodePacked n = some sh ↔ n = (shapeCode sh.shape).toNat := by
  constructor
  · intro h; unfold decodePacked at h; split at h <;> cases h <;> rfl
  · rintro rfl; cases sh <;> rfl

theorem decodeRegSrc_eq_some_iff {n : Nat} {sh : RegSrcShape} : decodeRegSrc n = some sh ↔ n = (shapeCode sh.shape).toNat := by
  constructor
  · intro h; unfold decodeRegSrc at h; split at h <;> cases h <;> rfl
  · rintro rfl; cases sh <;> rfl

theorem decodeImmSrc_eq_some_iff {n : Nat} {sh : ImmSrcShape} : decodeImmSrc n = some sh ↔ n = (shapeCode sh.shape).toNat := by
  constructor
  · intro h; unfold decodeImmSrc at h; split at h <;> cases h <;> rfl
  · rintro rfl; cases sh <;> rfl

theorem decodeExchange_eq_some_iff {n : Nat} {sh : ExchangeShape} :
    decodeExchange n = some sh ↔ n = (shapeCode sh.shape).toNat := by
  constructor
  · intro h; unfold decodeExchange at h; split at h <;> cases h <;> rfl
  · rintro rfl; cases sh <;> rfl

/-! ### One row of the table -/

theorem selectRow_eq_some_iff {α β : Type} {sh : Option α} {w : Option β} {f : α → β → Instr} {i : Instr} :
    selectRow sh w f = some i ↔ ∃ a b, sh = some a ∧ w = some b ∧ f a b = i := by
  cases sh <;> cases w <;> simp [selectRow]

/-- A packed row has WC 4, the code of W = `VLEN`. -/
theorem selectPacked_eq_some_iff {sh wc : Nat} {f : PackedShape → Instr} {i : Instr} :
    selectPacked sh wc f = some i ↔ ∃ a, sh = (shapeCode a.shape).toNat ∧ wc = (widthCode none).toNat ∧ f a = i := by
  by_cases hwc : wc = 4 <;> simp [selectPacked, widthCode, hwc, decodePacked_eq_some_iff]

/-- What the table selects has the three fields it was selected by: arm by arm. -/
theorem fields_of_selectInstr {op sh wc : Nat} {i : Instr} (h : selectInstr op sh wc = some i) :
    op = (opCode i).toNat ∧ sh = (shapeCode i.shape).toNat ∧ wc = (widthCode i.width).toNat := by
  unfold selectInstr at h
  split at h
  case h_14 | h_15 | h_16 | h_17 | h_18 =>
    obtain ⟨a, rfl, rfl, rfl⟩ := selectPacked_eq_some_iff.1 h
    exact ⟨rfl, rfl, rfl⟩
  case h_29 => cases h
  all_goals
    simp only [selectRow_eq_some_iff, decodeWidth_eq_some_iff, decodeWideWidth_eq_some_iff, decodeUnary_eq_some_iff,
      decodeBinary_eq_some_iff, decodeNoRm_eq_some_iff, decodeRegSrc_eq_some_iff, decodeImmSrc_eq_some_iff,
      decodeExchange_eq_some_iff] at h
    obtain ⟨a, b, rfl, rfl, rfl⟩ := h
    exact ⟨rfl, rfl, rfl⟩

/-- The table selects every row by the row's own fields: operation by operation. -/
theorem selectInstr_codes (i : Instr) :
    selectInstr (opCode i).toNat (shapeCode i.shape).toNat (widthCode i.width).toNat = some i := by
  cases i with
  | add sh w | adc sh w | sub sh w | sbb sh w | cmp sh w | and sh w | or sh w | xor sh w =>
    exact selectRow_eq_some_iff.2 ⟨sh, w, decodeBinary_eq_some_iff.2 rfl, decodeWidth_eq_some_iff.2 rfl, rfl⟩
  | inc sh w | dec sh w | neg sh w | not sh w | mul sh w | imul1 sh w | div sh w | idiv sh w =>
    exact selectRow_eq_some_iff.2 ⟨sh, w, decodeUnary_eq_some_iff.2 rfl, decodeWidth_eq_some_iff.2 rfl, rfl⟩
  | test sh w | shl sh w | shr sh w | sar sh w =>
    exact selectRow_eq_some_iff.2 ⟨sh, w, decodeNoRm_eq_some_iff.2 rfl, decodeWidth_eq_some_iff.2 rfl, rfl⟩
  | pand sh | por sh | pxor sh | pandn sh | ptest sh => exact selectPacked_eq_some_iff.2 ⟨sh, rfl, rfl, rfl⟩
  | imul2 sh w =>
    exact selectRow_eq_some_iff.2 ⟨sh, w, decodeRegSrc_eq_some_iff.2 rfl, decodeWideWidth_eq_some_iff.2 rfl, rfl⟩
  | imul3 sh w =>
    exact selectRow_eq_some_iff.2 ⟨sh, w, decodeImmSrc_eq_some_iff.2 rfl, decodeWideWidth_eq_some_iff.2 rfl, rfl⟩
  | xadd sh w =>
    exact selectRow_eq_some_iff.2 ⟨sh, w, decodeExchange_eq_some_iff.2 rfl, decodeWidth_eq_some_iff.2 rfl, rfl⟩

/-! ### The decoder -/

theorem decode_eq_ok_iff_selectInstr {c : ControlWord} {i : Instr} :
    decode c = .ok i ↔ selectInstr (opField c) (shField c) (wcField c) = some i := by
  unfold decode
  split <;> rename_i h <;> simp [h]

/-- A word decodes to a row exactly when it is the row's word. -/
theorem decode_eq_ok_iff {c : ControlWord} {i : Instr} : decode c = .ok i ↔ c = encode i := by
  rw [decode_eq_ok_iff_selectInstr, eq_encode_iff]
  constructor
  · exact fields_of_selectInstr
  · rintro ⟨hop, hsh, hwc⟩
    rw [hop, hsh, hwc, selectInstr_codes]

/-- Settles O1: the word of a row decodes to it, since each field decoder inverts its code. -/
theorem decodeOfEncodeIsTheRow : Obligations.DecodeOfEncodeIsTheRow := fun _ => decode_eq_ok_iff.2 rfl

/-- Settles O3: only the word of a row decodes to it. -/
theorem decodedRowEncodesBack : Obligations.DecodedRowEncodesBack := fun _ _ h => (decode_eq_ok_iff.1 h).symm

/-- Settles O4: each word is the encoder's word of its row. -/
theorem sampleControlWordsDecode : Obligations.SampleControlWordsDecode := by
  unfold Obligations.SampleControlWordsDecode
  simp only [decode_eq_ok_iff]
  decide

end Sys2Proof.Proofs
end

section
/-! PROOFS. The listed control words (30_encoding.md R105) are the words of the rows: block by block, one block of the list for each OP. -/

namespace Sys2Proof.Proofs
open Sys2Proof.Machine

/-! ### The list, cut by OP -/

/-- The rows of one operation, and the words that spec/opcode_table.json lists for it. -/
structure OpBlock where
  op    : Nat
  rows  : List Instr
  words : List Nat

/-- The scalar widths, in the order of their WC. -/
def widths : List Width := [.w8, .w16, .w32, .w64]

/-- The widths of IMUL's 2- and 3-operand rows. -/
def wideWidths : List WideWidth := [.w16, .w32, .w64]

def unaryShapes : List UnaryShape := [.r, .m]

def binaryShapes : List BinaryShape := [.rr, .rm, .mr, .ri, .mi]

/-- The shapes of the shifts, which the table lists with the immediate counts first. -/
def shiftShapes : List NoRmShape := [.ri, .mi, .rr, .mr]

/-- Each shape at each width. -/
def scalarRows {α β : Type} (f : α → β → Instr) (shs : List α) (ws : List β) : List Instr := shs.flatMap fun sh => ws.map (f sh)

def opBlocks : List OpBlock :=
  [⟨0x01, scalarRows .add binaryShapes widths, rowsAdd⟩,
   ⟨0x02, scalarRows .adc binaryShapes widths, rowsAdc⟩,
   ⟨0x03, scalarRows .sub binaryShapes widths, rowsSub⟩,
   ⟨0x04, scalarRows .sbb binaryShapes widths, rowsSbb⟩,
   ⟨0x05, scalarRows .cmp binaryShapes widths, rowsCmp⟩,
   ⟨0x06, scalarRows .inc unaryShapes widths, rowsInc⟩,
   ⟨0x07, scalarRows .dec unaryShapes widths, rowsDec⟩,
   ⟨0x08, scalarRows .neg unaryShapes widths, rowsNeg⟩,
   ⟨0x10, scalarRows .and binaryShapes widths, rowsAnd⟩,
   ⟨0x11, scalarRows .or binaryShapes widths, rowsOr⟩,
   ⟨0x12, scalarRows .xor binaryShapes widths, rowsXor⟩,
   ⟨0x13, scalarRows .test [.rr, .mr, .ri, .mi] widths, rowsTest⟩,
   ⟨0x14, scalarRows .not unaryShapes widths, rowsNot⟩,
   ⟨0x18, [.pand .vv, .pand .vm], rowsPand⟩,
   ⟨0x19, [.por .vv, .por .vm], rowsPor⟩,
   ⟨0x1A, [.pxor .vv, .pxor .vm], rowsPxor⟩,
   ⟨0x1B, [.pandn .vv, .pandn .vm], rowsPandn⟩,
   ⟨0x1C, [.ptest .vv, .ptest .vm], rowsPtest⟩,
   ⟨0x20, scalarRows .mul unaryShapes widths, rowsMul⟩,
   ⟨0x21, scalarRows .imul1 unaryShapes widths, rowsImul21⟩,
   ⟨0x22, scalarRows .imul2 [.rr, .rm] wideWidths, rowsImul22⟩,
   ⟨0x23, scalarRows .imul3 [.rri, .rmi] wideWidths, rowsImul23⟩,
   ⟨0x24, scalarRows .div unaryShapes widths, rowsDiv⟩,
   ⟨0x25, scalarRows .idiv unaryShapes widths, rowsIdiv⟩,
   ⟨0x30, scalarRows .shl shiftShapes widths, rowsShl⟩,
   ⟨0x31, scalarRows .shr shiftShapes widths, rowsShr⟩,
   ⟨0x32, scalarRows .sar shiftShapes widths, rowsSar⟩,
   ⟨0x40, scalarRows .xadd [.rr, .mr] widths, rowsXadd⟩]

theorem tableWords_eq_flatMap : tableWords = opBlocks.flatMap OpBlock.words := by
  unfold tableWords
  simp only [opBlocks, List.flatMap_cons, List.flatMap_nil, List.append_nil, List.append_assoc]

/-- The words of a block are the encoder's words of its rows. -/
theorem words_eq_map_encode : ∀ b ∈ opBlocks, b.words = b.rows.map fun i => (encode i).toNat := by decide

theorem mem_scalarRows {α β : Type} {f : α → β → Instr} {shs : List α} {ws : List β} {sh : α} {w : β} (hsh : sh ∈ shs) (hw : w ∈ ws) :
    f sh w ∈ scalarRows f shs ws := List.mem_flatMap.2 ⟨sh, hsh, List.mem_map_of_mem hw⟩

theorem exists_mem_block_of_find {i : Instr} {b : OpBlock} (hb : opBlocks.find? (fun b => b.op == (opCode i).toNat) = some b)
    (hi : i ∈ b.rows) : ∃ b ∈ opBlocks, i ∈ b.rows := ⟨b, List.mem_of_find?_eq_some hb, hi⟩

/-- Every row stands in the block of its OP: by the kind of its shapes and widths. -/
theorem exists_mem_block (i : Instr) : ∃ b ∈ opBlocks, i ∈ b.rows := by
  have hw : ∀ w, w ∈ widths := fun w => by cases w <;> decide
  have hww : ∀ w, w ∈ wideWidths := fun w => by cases w <;> decide
  have hu : ∀ sh, sh ∈ unaryShapes := fun sh => by cases sh <;> decide
  have hb : ∀ sh, sh ∈ binaryShapes := fun sh => by cases sh <;> decide
  have hs : ∀ sh, sh ∈ shiftShapes := fun sh => by cases sh <;> decide
  cases i with
  | add sh w | adc sh w | sub sh w | sbb sh w | cmp sh w | and sh w | or sh w | xor sh w =>
    exact exists_mem_block_of_find rfl (mem_scalarRows (hb sh) (hw w))
  | inc sh w | dec sh w | neg sh w | not sh w | mul sh w | imul1 sh w | div sh w | idiv sh w =>
    exact exists_mem_block_of_find rfl (mem_scalarRows (hu sh) (hw w))
  | shl sh w | shr sh w | sar sh w => exact exists_mem_block_of_find rfl (mem_scalarRows (hs sh) (hw w))
  | test sh w | xadd sh w => exact exists_mem_block_of_find rfl (mem_scalarRows (by cases sh <;> decide) (hw w))
  | imul2 sh w | imul3 sh w => exact exists_mem_block_of_find rfl (mem_scalarRows (by cases sh <;> decide) (hww w))
  | pand sh | por sh | pxor sh | pandn sh | ptest sh => exact exists_mem_block_of_find rfl (by cases sh <;> decide)

/-! ### No word twice -/

theorem ops_nodup : (opBlocks.map OpBlock.op).Nodup := by decide

/-- The upper byte of a word is the OP of its block. -/
theorem op_of_mem_words : ∀ b ∈ opBlocks, ∀ w ∈ b.words, w / 2 ^ 8 = b.op := by decide

theorem words_nodup : ∀ b ∈ opBlocks, b.words.Nodup := by decide

/-- Blocks of different OP share no word. -/
theorem tableWords_nodup : tableWords.Nodup := by
  rw [tableWords_eq_flatMap, List.nodup_flatMap]
  refine ⟨words_nodup, (List.pairwise_map.1 ops_nodup).imp_of_mem fun hb hd hne w hwb hwd => hne ?_⟩
  rw [← op_of_mem_words _ hb w hwb, op_of_mem_words _ hd w hwd]

theorem tableWords_length : tableWords.length = 318 := by
  rw [tableWords_eq_flatMap, List.length_flatMap]; decide

/-- A word is listed exactly when it is the word of a row. -/
theorem mem_tableWords_iff {n : Nat} : n ∈ tableWords ↔ ∃ i, (encode i).toNat = n := by
  rw [tableWords_eq_flatMap, List.mem_flatMap]
  constructor
  · rintro ⟨b, hb, hn⟩
    rw [words_eq_map_encode b hb] at hn
    obtain ⟨i, -, hi⟩ := List.mem_map.1 hn
    exact ⟨i, hi⟩
  · rintro ⟨i, rfl⟩
    obtain ⟨b, hb, hi⟩ := exists_mem_block i
    exact ⟨b, hb, words_eq_map_encode b hb ▸ List.mem_map_of_mem hi⟩

/-- Settles O2: a word decodes to a row exactly when it is the row's word, and the list is that of the rows' words. -/
theorem exactlyTheListedWordsSelectARow : Obligations.ExactlyTheListedWordsSelectARow := by
  refine ⟨tableWords_length, tableWords_nodup, fun c => ?_⟩
  simp only [decode_eq_ok_iff, mem_tableWords_iff, BitVec.toNat_inj, eq_comm (a := c)]

end Sys2Proof.Proofs
end

section
/-! PROOFS. The refusals of a control word: one that selects no row (30_encoding.md R113), and a 64-bit row without `MODE64` (R112). -/

namespace Sys2Proof.Proofs
open Sys2Proof.Machine

/-! ### Words that select no row -/

theorem step_of_decode_error {s : State} {c : Call} {cs : List Call} {r : Reject} (hc : s.calls = c :: cs)
    (hd : decode c.ctl = .error r) : step s = .refused .unlisted := by
  simp only [step, hc, hd]

/-- Settles O6: a word outside the list decodes to no row, and the step refuses whatever the decoder rejects. -/
theorem unlistedWordIsRefused : Obligations.UnlistedWordIsRefused := by
  intro s c cs hc hu
  cases hd : decode c.ctl with
  | error r => exact step_of_decode_error hc hd
  | ok i => exact absurd ((exactlyTheListedWordsSelectARow.2.2 c.ctl).1 ⟨i, hd⟩) hu

/-! ### Rows that need `MODE64` -/

theorem available_eq_false_iff {c : Context} {i : Instr} :
    i.available c = false ↔ i.width = some .w64 ∧ c.mode64 = false := by
  unfold Instr.available
  split <;> simp_all

theorem exec_modeInapplicable_iff {i : Instr} {s : State} :
    exec i s = .refused .modeInapplicable ↔ i.available s.ctx = false := by
  rcases exec_checks i s with ⟨hna, e⟩ | ⟨ha, -, e⟩ | ⟨ha, -, -, e⟩ | hr
  · simp [e, hna]
  · simp [e, ha]
  · simp [e, ha]
  · simp [exec_ne_refused_of_ready hr, ((ready_iff s i).1 hr).1]

/-- Settles O7: step 2 of R120 is the only one that refuses so, and it fails for the 64-bit rows without `MODE64`. -/
theorem sixtyFourBitRowsNeedMode64 : Obligations.SixtyFourBitRowsNeedMode64 := fun _ _ =>
  exec_modeInapplicable_iff.trans available_eq_false_iff

end Sys2Proof.Proofs
end

section
/-! PROOFS. The operands a row records as read (30_encoding.md R104, R120 step 5): the explicit ones that its accesses read, in slot order, then
the implicit ones. -/

namespace Sys2Proof.Proofs
open Sys2Proof.Machine

/-! ### The explicit operands -/

/-- The explicit operands that row i reads, slot by slot (R104). -/
def explicitReads (s : State) (i : Instr) : List Handle := (i.accesses.zipIdx.filter fun x => x.1.reads).map fun x => s.operand x.2

theorem handlesFit_length {c : Context} {ss : List Slot} {hs : List Handle} (h : handlesFit c ss hs = true) :
    hs.length = ss.length := by
  induction ss generalizing hs with
  | nil =>
    cases hs with
    | nil => rfl
    | cons => simp [handlesFit] at h
  | cons sl ss ih =>
    cases hs with
    | nil => simp [handlesFit] at h
    | cons e hs =>
      rw [handlesFit, Bool.and_eq_true] at h
      rw [List.length_cons, List.length_cons, ih h.2]

/-- A row has one access for each of its slots. -/
theorem slots_length (vlen : VLen) (i : Instr) : (i.slots vlen).length = i.accesses.length := by
  cases i with
  | add sh | adc sh | sub sh | sbb sh | cmp sh | and sh | or sh | xor sh => cases sh <;> rfl
  | inc sh | dec sh | neg sh | not sh | mul sh | imul1 sh | div sh | idiv sh => cases sh <;> rfl
  | test sh | shl sh | shr sh | sar sh => cases sh <;> rfl
  | pand sh | por sh | pxor sh | pandn sh | ptest sh => cases sh <;> rfl
  | imul2 sh | imul3 sh | xadd sh => cases sh <;> rfl

/-- The handles of a row that is ready stand beside its accesses, slot by slot. -/
theorem handles_zip_accesses {s : State} {i : Instr} (h : s.ready i = true) :
    s.handles.zip i.accesses = i.accesses.zipIdx.map fun x => (s.operand x.2, x.1) := by
  have hlen : s.handles.length = i.accesses.length := (handlesFit_length (operandsFit_of_ready h)).trans (slots_length _ i)
  refine List.ext_getElem (by simp [hlen]) fun k hk _ => ?_
  have hk : k < s.handles.length := by simpa [hlen] using hk
  simp [State.operand, hk]

theorem explicitReads_eq {s : State} {i : Instr} (h : s.ready i = true) :
    explicitReads s i = ((s.handles.zip i.accesses).filter fun x => x.2.reads).map Prod.fst := by
  rw [handles_zip_accesses h, List.filter_map, List.map_map]
  rfl

/-! ### Every row -/

/-- A row other than XADD that is ready commits with its explicit reads, then its implicit ones, or raises the block's fault:
operation by operation. -/
theorem exec_ready_reads {i : Instr} {s : State} (h : s.ready i = true) (hx : ∀ sh w, i ≠ .xadd sh w) :
    (∃ ps f, exec i s = .next (s.commit (explicitReads s i ++ implicitReads i) ps f))
    ∨ ∃ c, exec i s = .fault (.divideError c s.mach) := by
  cases i with
  | add | adc | sub | sbb | cmp | inc | dec | neg | and | or | xor | test | not | pand | por | pxor | pandn | ptest | imul2 | imul3
    | shl | shr | sar => exact .inl ⟨_, _, perform_ready _ h⟩
  | mul _ w | imul1 _ w => cases w <;> exact .inl ⟨_, _, perform_ready _ h⟩
  | div _ w =>
    cases w with
    | w8 => exact (divAx_ready h).imp_left fun ⟨_, _, e⟩ => ⟨_, _, e⟩
    | w16 => exact (divSplit_ready .w16 h).imp_left fun ⟨_, _, e⟩ => ⟨_, _, e⟩
    | w32 => exact (divSplit_ready .w32 h).imp_left fun ⟨_, _, e⟩ => ⟨_, _, e⟩
    | w64 => exact (divSplit_ready .w64 h).imp_left fun ⟨_, _, e⟩ => ⟨_, _, e⟩
  | idiv _ w =>
    cases w with
    | w8 => exact (idivAx_ready h).imp_left fun ⟨_, _, e⟩ => ⟨_, _, e⟩
    | w16 => exact (idivSplit_ready .w16 h).imp_left fun ⟨_, _, e⟩ => ⟨_, _, e⟩
    | w32 => exact (idivSplit_ready .w32 h).imp_left fun ⟨_, _, e⟩ => ⟨_, _, e⟩
    | w64 => exact (idivSplit_ready .w64 h).imp_left fun ⟨_, _, e⟩ => ⟨_, _, e⟩
  | xadd sh w => exact absurd rfl (hx sh w)

theorem exec_next_commit_reads {i : Instr} {s t : State} (hx : ∀ sh w, i ≠ .xadd sh w) (h : exec i s = .next t) :
    ∃ ps f, t = s.commit (explicitReads s i ++ implicitReads i) ps f := by
  rcases exec_ready_reads (exec_next h).1 hx with ⟨ps, f, e⟩ | ⟨c, e⟩
  · exact ⟨ps, f, Host.Outcome.next.inj (h.symm.trans e)⟩
  · rw [e] at h; cases h

/-! ### No read after them -/

theorem isRead_eq_false_of_isWrite {e : Event} (h : e.isWrite = true) : e.isRead = false := by
  cases e <;> simp [Event.isWrite] at h <;> rfl

theorem isRead_of_mem_flagEvents {ps : List Put} {f : FlagWrite} {e : Event} (he : e ∈ flagEvents ps f) : e.isRead = false := by
  rcases flagEvents_cases ps f with ⟨-, h⟩ | ⟨-, -, h⟩ | ⟨-, -, h⟩ <;> rw [h] at he <;> simp at he
  · rw [he]; rfl
  · rcases he with rfl | rfl <;> rfl

/-- The writes and flag events of an operation are no reads. -/
theorem isRead_of_mem_writes_flagEvents {ps : List Put} {f : FlagWrite} {e : Event} (he : e ∈ ps.flatMap writeEvent ++ flagEvents ps f) :
    e.isRead = false := by
  rcases List.mem_append.1 he with he | he
  · obtain ⟨p, -, he⟩ := List.mem_flatMap.1 he
    exact isRead_eq_false_of_isWrite (isWrite_of_mem_writeEvent he)
  · exact isRead_of_mem_flagEvents he

/-- Settles O50: the row commits with its explicit and then its implicit reads, and writes and flag events follow. -/
theorem traceRecordsTheOperandsRead : Obligations.TraceRecordsTheOperandsRead := by
  intro i s t hx h
  obtain ⟨ps, f, rfl⟩ := exec_next_commit_reads hx h
  refine ⟨ps.flatMap writeEvent ++ flagEvents ps f, fun e he => isRead_of_mem_writes_flagEvents he, ?_⟩
  rw [commit_trace, List.flatMap_append, explicitReads_eq (exec_next h).1, List.flatMap_map, List.append_assoc _ (ps.flatMap _)]

end Sys2Proof.Proofs
end

section
/-! PROOFS. The flag functions of 40_flag_algebra.md against the arithmetic they stand for. Each is proved at every width that is wide enough,
and a difference is reduced to the sum that undoes it. -/

namespace Sys2Proof.Proofs
open Sys2Proof.Machine

theorem four_lt_bits (w : Width) : 4 < w.bits := by cases w <;> decide

theorem bits_pos (w : Width) : 0 < w.bits := Nat.zero_lt_of_lt (four_lt_bits w)

/-- A carry-in is below 2^n at every width with a bit. -/
theorem toNat_carryBits {n : Nat} (hn : 0 < n) (c : Bool) : (carryBits n c).toNat = c.toNat := by
  rw [carryBits, BitVec.toNat_ofNat, Nat.mod_eq_of_lt ((Bool.toNat_lt c).trans_le (Nat.le_self_pow hn.ne' 2))]

/-! ### Parity -/

theorem lowOnes_eq_card {n : Nat} (r : BitVec n) : lowOnes r = ((Finset.range 8).filter fun k => r.toNat / 2 ^ k % 2 = 1).card := by
  rw [← Nat.count_eq_card_filter_range, Nat.count]
  simp only [lowOnes, BitVec.getLsbD, Nat.testBit_eq_decide_div_mod_eq]

/-- Settles O12: the flag tests the count of the low eight bits for evenness. -/
theorem parityCountsTheLowByte : Obligations.ParityCountsTheLowByte := by
  intro w r
  rw [parityFlag, decide_eq_true_iff, lowOnes_eq_card, Nat.even_iff]

/-! ### The auxiliary carry -/

/-- Bit 4 of a sum differs from the operands' bits 4 by the carry into it. -/
theorem auxFlag_add {n : Nat} (hn : 4 < n) (a b : BitVec n) (c : Bool) :
    auxFlag a b (a + b + carryBits n c) = decide (16 ≤ a.toNat % 16 + b.toNat % 16 + c.toNat) := by
  have hc : carryBits n c = (BitVec.ofBool c).setWidth n := BitVec.eq_of_toNat_eq (by simp [carryBits])
  rw [auxFlag, BitVec.getLsbD_xor, BitVec.getLsbD_xor, hc, BitVec.getLsbD_add_add_bool hn, ← Bool.xor_assoc (a.getLsbD 4),
    ← Bool.xor_assoc, Bool.xor_self, Bool.false_xor]
  rfl

/-- A difference as the sum it undoes. -/
theorem sub_carryBits_add {n : Nat} (a b : BitVec n) (c : Bool) : a - b - carryBits n c + b + carryBits n c = a := by ring

theorem auxFlag_swap {n : Nat} (a b r : BitVec n) : auxFlag a b r = auxFlag r b a := by
  rw [auxFlag, auxFlag, BitVec.xor_comm (a ^^^ b), BitVec.xor_comm a, BitVec.xor_assoc]

/-- The low nibble of a sum is the sum of the low nibbles, modulo 16. -/
theorem toNat_add_mod_sixteen {n : Nat} (hn : 4 ≤ n) (a b : BitVec n) (c : Bool) :
    (a + b + carryBits n c).toNat % 16 = (a.toNat % 16 + b.toNat % 16 + c.toNat) % 16 := by
  have h16 : 16 ∣ 2 ^ n := Nat.pow_dvd_pow 2 hn
  rw [BitVec.toNat_add, BitVec.toNat_add, toNat_carryBits (by omega), Nat.mod_mod_of_dvd _ h16, Nat.add_mod, Nat.mod_mod_of_dvd _ h16]
  omega

/-- A borrow of the difference is a carry of the sum that undoes it. -/
theorem auxFlag_sub {n : Nat} (hn : 4 < n) (a b : BitVec n) (c : Bool) :
    auxFlag a b (a - b - carryBits n c) = decide (a.toNat % 16 < b.toNat % 16 + c.toNat) := by
  have hcarry := auxFlag_add hn (a - b - carryBits n c) b c
  have hnibble := toNat_add_mod_sixteen hn.le (a - b - carryBits n c) b c
  have hc := c.toNat_lt
  rw [sub_carryBits_add] at hcarry hnibble
  rw [auxFlag_swap, hcarry, decide_eq_decide]
  omega

/-- Settles O13: the carry into bit 4, for the sum and for the sum that undoes the difference. -/
theorem auxiliaryCarryIsTheNibbleCarry : Obligations.AuxiliaryCarryIsTheNibbleCarry := fun w a b c =>
  ⟨auxFlag_add (four_lt_bits w) a b c, auxFlag_sub (four_lt_bits w) a b c⟩

/-! ### Signed overflow -/

/-- A value in the signed range that is congruent to x is the signed value of x in n bits. -/
theorem toInt_ofInt_of_dvd {n : Nat} (hn : 0 < n) {x y : Int} (hlo : -2 ^ (n - 1) ≤ y) (hhi : y < 2 ^ (n - 1)) (hdvd : 2 ^ n ∣ y - x) :
    (BitVec.ofInt n x).toInt = y := by
  have hhalf := mul_pow_sub_one hn.ne' (2 : Int)
  rw [BitVec.toInt_ofInt]
  refine (Int.bmod_eq_iff (by positivity)).2 ⟨?_, ?_, by exact_mod_cast hdvd⟩ <;> push_cast <;> omega

/-- The range of `sint_n` (00_scope.md R10), as `outsideSigned` writes it. -/
theorem toInt_inRange {n : Nat} (a : BitVec n) : -2 ^ (n - 1) ≤ a.toInt ∧ a.toInt < 2 ^ (n - 1) := ⟨a.le_toInt, a.toInt_lt⟩

/-- An integer that wraps at most once keeps its sign exactly when it is in the signed range. -/
theorem msb_ofInt_of_wraps_once {n : Nat} (hn : 0 < n) {x : Int} (hlo : -2 ^ n ≤ x) (hhi : x < 2 ^ n) :
    (BitVec.ofInt n x).msb = (decide (x < 0) != outsideSigned n x) := by
  have hhalf := mul_pow_sub_one hn.ne' (2 : Int)
  rw [BitVec.msb_eq_toInt, outsideSigned]
  by_cases hneg : x < -2 ^ (n - 1)
  · rw [toInt_ofInt_of_dvd hn (y := x + 2 ^ n) (by omega) (by omega) (by simp)]
    simp [hneg, show x < 0 by omega, show ¬x + 2 ^ n < 0 by omega]
  by_cases hbig : 2 ^ (n - 1) ≤ x
  · rw [toInt_ofInt_of_dvd hn (y := x - 2 ^ n) (by omega) (by omega) (by simp)]
    simp [hneg, hbig, show ¬x < 0 by omega, show x - 2 ^ n < 0 by omega]
  · rw [toInt_ofInt_of_dvd hn (y := x) (by omega) (by omega) (by simp)]
    simp [hneg, hbig]

theorem ofInt_sub (n : Nat) (x y : Int) : BitVec.ofInt n (x - y) = BitVec.ofInt n x - BitVec.ofInt n y := by
  rw [sub_eq_add_neg, BitVec.ofInt_add, BitVec.ofInt_neg, sub_eq_add_neg]

theorem ofInt_toInt_add {n : Nat} (a b : BitVec n) (c : Bool) : BitVec.ofInt n (a.toInt + b.toInt + c.toNat) = a + b + carryBits n c := by
  rw [BitVec.ofInt_add, BitVec.ofInt_add, BitVec.ofInt_toInt, BitVec.ofInt_toInt, BitVec.ofInt_natCast, carryBits]

theorem ofInt_toInt_sub {n : Nat} (a b : BitVec n) (c : Bool) : BitVec.ofInt n (a.toInt - b.toInt - c.toNat) = a - b - carryBits n c := by
  rw [ofInt_sub, ofInt_sub, BitVec.ofInt_toInt, BitVec.ofInt_toInt, BitVec.ofInt_natCast, carryBits]

/-- The closed form for an exact result x: where the operands' signs allow it (`may`), x has the sign of a; elsewhere it is in range. -/
theorem outsideSigned_eq_closedForm {n : Nat} (hn : 0 < n) {x : Int} {a : BitVec n} {may : Bool} (hlo : -2 ^ n ≤ x) (hhi : x < 2 ^ n)
    (hsign : may = true → decide (x < 0) = a.msb) (hfits : may = false → outsideSigned n x = false) :
    outsideSigned n x = (may && (BitVec.ofInt n x).msb != a.msb) := by
  rw [msb_ofInt_of_wraps_once hn hlo hhi]
  cases may with
  | true => rw [hsign rfl]; cases a.msb <;> simp
  | false => rw [hfits rfl, Bool.false_and]

theorem addOverflow_eq_closedForm {n : Nat} (hn : 0 < n) (a b : BitVec n) (c : Bool) :
    addOverflow a b c = ((a.msb == b.msb) && ((a + b + carryBits n c).msb != a.msb)) := by
  have hhalf := mul_pow_sub_one hn.ne' (2 : Int)
  have ha := toInt_inRange a
  have hb := toInt_inRange b
  have hc := c.toNat_lt
  rw [addOverflow, ← ofInt_toInt_add]
  apply outsideSigned_eq_closedForm hn (by omega) (by omega)
  · simp only [BitVec.msb_eq_toInt, beq_iff_eq, decide_eq_decide]; omega
  · simp only [BitVec.msb_eq_toInt, beq_eq_false_iff_ne, ne_eq, decide_eq_decide, outsideSigned, decide_eq_false_iff_not]; omega

theorem subOverflow_eq_closedForm {n : Nat} (hn : 0 < n) (a b : BitVec n) (c : Bool) :
    subOverflow a b c = ((a.msb != b.msb) && ((a - b - carryBits n c).msb != a.msb)) := by
  have hhalf := mul_pow_sub_one hn.ne' (2 : Int)
  have ha := toInt_inRange a
  have hb := toInt_inRange b
  have hc := c.toNat_lt
  rw [subOverflow, ← ofInt_toInt_sub]
  apply outsideSigned_eq_closedForm hn (by omega) (by omega)
  · simp only [BitVec.msb_eq_toInt, bne_iff_ne, ne_eq, decide_eq_decide]; omega
  · simp only [BitVec.msb_eq_toInt, bne_eq_false_iff_eq, decide_eq_decide, outsideSigned, decide_eq_false_iff_not]; omega

/-- Settles O14: the definitions are the range tests, and the closed forms follow from the sign of the wrapped result. -/
theorem overflowHasItsClosedForm : Obligations.OverflowHasItsClosedForm := fun w a b c =>
  ⟨rfl, addOverflow_eq_closedForm (bits_pos w) a b c, rfl, subOverflow_eq_closedForm (bits_pos w) a b c⟩

/-! ### The carry and the borrow in two stages -/

theorem adcCarry_eq {n : Nat} (hn : 0 < n) (a b : BitVec n) (c : Bool) : adcCarry a b c = decide (2 ^ n ≤ a.toNat + b.toNat + c.toNat) := by
  rw [adcCarry, addCarry, addCarry, toNat_carryBits hn, BitVec.toNat_add]
  by_cases h : 2 ^ n ≤ a.toNat + b.toNat
  · simp [h, h.trans (Nat.le_add_right ..)]
  · simp [h, Nat.mod_eq_of_lt (Nat.not_le.1 h)]

theorem sbbBorrow_eq {n : Nat} (hn : 0 < n) (a b : BitVec n) (c : Bool) : sbbBorrow a b c = decide (a.toNat < b.toNat + c.toNat) := by
  rw [sbbBorrow, subBorrow, subBorrow, toNat_carryBits hn]
  by_cases h : a.toNat < b.toNat
  · simp [h, h.trans_le (Nat.le_add_right ..)]
  · simp [h, BitVec.toNat_sub_of_le (Nat.not_lt.1 h), Nat.sub_lt_iff_lt_add' (Nat.not_lt.1 h)]

theorem ofInt_toNat_sub {n : Nat} (a b : BitVec n) : BitVec.ofInt n ((a.toNat : Int) - b.toNat) = a - b := by
  rw [ofInt_sub, BitVec.ofInt_natCast, BitVec.ofInt_natCast, BitVec.ofNat_toNat, BitVec.ofNat_toNat, BitVec.setWidth_eq,
    BitVec.setWidth_eq]

/-- Settles O15: the stages are the model's own, on the wrapped sum and the wrapped difference; where the first answers no, nothing has wrapped. -/
theorem twoStagesGiveTheWholeCarryAndBorrow : Obligations.TwoStagesGiveTheWholeCarryAndBorrow := by
  intro w a b c
  refine ⟨rfl, adcCarry_eq (bits_pos w) a b c, ?_, sbbBorrow_eq (bits_pos w) a b c⟩
  rw [ofInt_toNat_sub]
  rfl

/-! ### Lost products -/

/-- The high half of an unsigned product p is p / 2^n, which is 0 exactly when p is below 2^n. -/
theorem lostUnsigned_iff {n p : Nat} (hp : p < 2 ^ (n + n)) :
    lostUnsigned n p = true ↔ (BitVec.ofNat (n + n) p).extractLsb' n n ≠ 0 := by
  have hdiv : p / 2 ^ n < 2 ^ n := Nat.div_lt_of_lt_mul (by rwa [← pow_add])
  rw [lostUnsigned, decide_eq_true_iff, ne_eq, ← BitVec.toNat_inj, BitVec.extractLsb'_toNat, BitVec.toNat_ofNat, Nat.mod_eq_of_lt hp,
    Nat.shiftRight_eq_div_pow, Nat.mod_eq_of_lt hdiv]
  simp

/-- The signed value of -1 or 0, as the low half's sign says. -/
theorem toInt_signFill {n : Nat} (hn : 0 < n) (s : Bool) :
    (if s then BitVec.allOnes n else 0).toInt = -(s.toNat : Int) := by
  cases s <;> simp [hn]

/-- The unsigned low half of a split value is its signed low half and, where that is negative, 2^n more. -/
theorem toInt_eq_halves {n : Nat} (hn : 0 < n) (v : BitVec (n + n)) :
    v.toInt = 2 ^ n * ((v.extractLsb' n n).toInt + (v.extractLsb' 0 n).msb.toNat) + (v.extractLsb' 0 n).toInt := by
  conv_lhs => rw [← BitVec.extractLsb'_append_extractLsb' (x := v), BitVec.toInt_append, if_neg (by simpa using hn.ne')]
  rw [BitVec.toInt_eq_msb_cond (v.extractLsb' 0 n)]
  cases (v.extractLsb' 0 n).msb with
  | true => rw [if_pos rfl, Bool.toNat_true]; push_cast; ring
  | false => rw [if_neg Bool.false_ne_true, Bool.toNat_false]; push_cast; ring

/-- A double-width value is the signed value of its low half exactly when its high half is filled with the low half's sign. -/
theorem toInt_eq_low_iff {n : Nat} (hn : 0 < n) (v : BitVec (n + n)) :
    v.toInt = (v.extractLsb' 0 n).toInt ↔
      v.extractLsb' n n = if (v.extractLsb' 0 n).msb then BitVec.allOnes n else 0 := by
  have hpow : (2 : Int) ^ n ≠ 0 := by positivity
  rw [toInt_eq_halves hn, add_eq_right, mul_eq_zero_iff_left hpow, ← BitVec.toInt_inj, toInt_signFill hn, eq_neg_iff_add_eq_zero]

theorem low_ofInt (n : Nat) (p : Int) : (BitVec.ofInt (n + n) p).extractLsb' 0 n = BitVec.ofInt n p := by
  apply BitVec.eq_of_toNat_eq
  rw [BitVec.extractLsb'_toNat, BitVec.toNat_ofInt, BitVec.toNat_ofInt, Nat.shiftRight_zero]
  have hdvd : ((2 ^ n : Nat) : Int) ∣ (2 ^ (n + n) : Nat) := Int.natCast_dvd_natCast.2 (Nat.pow_dvd_pow 2 (by omega))
  rw [← Int.emod_emod_of_dvd p hdvd, Int.toNat_emod (Int.emod_nonneg _ (by positivity)) (by positivity), Int.toNat_natCast]

/-- A signed product that fits in 2n bits is lost when it is not the signed value of its low half. -/
theorem lostSigned_iff {n : Nat} (hn : 0 < n) {p : Int} (hlo : -2 ^ (n + n - 1) ≤ p) (hhi : p < 2 ^ (n + n - 1)) :
    lostSigned n p = true ↔
      (BitVec.ofInt (n + n) p).extractLsb' n n ≠ if (BitVec.ofInt n p).msb then BitVec.allOnes n else 0 := by
  have hhalf := toInt_eq_low_iff hn (BitVec.ofInt (n + n) p)
  rw [low_ofInt, BitVec.toInt_ofInt_eq_self (by omega) hlo hhi] at hhalf
  rw [lostSigned, decide_eq_true_iff, ne_comm, ne_eq, ne_eq, hhalf]

theorem toNat_mul_toNat_lt {n : Nat} (a b : BitVec n) : a.toNat * b.toNat < 2 ^ (n + n) := by
  rw [pow_add]
  exact Nat.mul_lt_mul'' a.isLt b.isLt

theorem toInt_mul_toInt_lt {n : Nat} (hn : 0 < n) (a b : BitVec n) : a.toInt * b.toInt < 2 ^ (n + n - 1) :=
  BitVec.toInt_mul_toInt_le.trans_lt (pow_lt_pow_right₀ (by decide) (by omega))

theorem le_toInt_mul_toInt {n : Nat} (hn : 0 < n) (a b : BitVec n) : -2 ^ (n + n - 1) ≤ a.toInt * b.toInt :=
  (neg_le_neg (pow_le_pow_right₀ (by decide) (by omega))).trans BitVec.le_toInt_mul_toInt

/-- Settles O16: a product of two n-bit values fits in 2n bits, so its halves are those of the double-width value. -/
theorem lostProductMeansTheHalvesDisagree : Obligations.LostProductMeansTheHalvesDisagree := fun w a b =>
  have hw := bits_pos w
  ⟨lostUnsigned_iff (toNat_mul_toNat_lt a b), lostSigned_iff hw (le_toInt_mul_toInt hw a b) (toInt_mul_toInt_lt hw a b)⟩

end Sys2Proof.Proofs
end

section
/-! PROOFS. ADD, ADC, SUB, SBB, CMP, INC, DEC and NEG (41_arithmetic.md R171 to R178). The result of each row is the wrapped value of an exact
sum or difference, and the flags its recipe leaves are tests on that exact value. -/

namespace Sys2Proof.Proofs
open Sys2Proof.Machine

/-! ### Results as wrapped numbers -/

theorem ofNat_toNat_add {n : Nat} (a b : BitVec n) : BitVec.ofNat n (a.toNat + b.toNat) = a + b := by
  rw [BitVec.ofNat_add, BitVec.ofNat_toNat, BitVec.ofNat_toNat, BitVec.setWidth_eq, BitVec.setWidth_eq]

theorem ofNat_toNat_add_carry {n : Nat} (a b : BitVec n) (c : Bool) :
    BitVec.ofNat n (a.toNat + b.toNat + c.toNat) = a + b + carryBits n c := by
  rw [BitVec.ofNat_add, ofNat_toNat_add, carryBits]

theorem ofInt_toNat_sub_carry {n : Nat} (a b : BitVec n) (c : Bool) :
    BitVec.ofInt n ((a.toNat : Int) - b.toNat - c.toNat) = a - b - carryBits n c := by
  rw [ofInt_sub, ofInt_toNat_sub, BitVec.ofInt_natCast, carryBits]

theorem ofNat_toNat_succ {n : Nat} (a : BitVec n) : BitVec.ofNat n (a.toNat + 1) = a + 1 := by
  rw [BitVec.ofNat_add, BitVec.ofNat_toNat, BitVec.setWidth_eq]; rfl

theorem ofInt_toNat_pred {n : Nat} (a : BitVec n) : BitVec.ofInt n ((a.toNat : Int) - 1) = a - 1 := by
  rw [ofInt_sub, BitVec.ofInt_natCast, BitVec.ofNat_toNat, BitVec.setWidth_eq]; rfl

theorem ofInt_zero_sub_toNat {n : Nat} (a : BitVec n) : BitVec.ofInt n (0 - (a.toNat : Int)) = 0 - a := by
  simpa using ofInt_toNat_sub 0 a

/-! ### Flags without a carry-in -/

theorem auxFlag_add_no_carry {n : Nat} (hn : 4 < n) (a b : BitVec n) :
    auxFlag a b (a + b) = decide (16 ≤ a.toNat % 16 + b.toNat % 16) := by
  simpa [carryBits] using auxFlag_add hn a b false

theorem auxFlag_sub_no_borrow {n : Nat} (hn : 4 < n) (a b : BitVec n) :
    auxFlag a b (a - b) = decide (a.toNat % 16 < b.toNat % 16) := by
  simpa [carryBits] using auxFlag_sub hn a b false

theorem addOverflow_no_carry {n : Nat} (a b : BitVec n) : addOverflow a b false = outsideSigned n (a.toInt + b.toInt) := by
  simp [addOverflow]

theorem subOverflow_no_borrow {n : Nat} (a b : BitVec n) : subOverflow a b false = outsideSigned n (a.toInt - b.toInt) := by
  simp [subOverflow]

/-! ### The two ends of the signed range -/

/-- Only the highest signed value has a successor outside the range. -/
theorem outsideSigned_succ {n : Nat} (a : BitVec n) : outsideSigned n (a.toInt + 1) = decide (a.toNat = 2 ^ (n - 1) - 1) := by
  have ha := toInt_inRange a
  rw [outsideSigned, decide_eq_decide, ← BitVec.toNat_intMax, BitVec.toNat_inj, ← BitVec.toInt_inj, BitVec.toInt_intMax]
  omega

theorem toInt_eq_lowest_iff {n : Nat} (hn : 0 < n) (a : BitVec n) : a.toInt = -2 ^ (n - 1) ↔ a.toNat = 2 ^ (n - 1) := by
  rw [← BitVec.toInt_intMin_of_pos hn, ← BitVec.toNat_intMin_of_pos hn, BitVec.toInt_inj, BitVec.toNat_inj]

/-- Only the lowest signed value has a predecessor outside the range. -/
theorem outsideSigned_pred {n : Nat} (hn : 0 < n) (a : BitVec n) : outsideSigned n (a.toInt - 1) = decide (a.toNat = 2 ^ (n - 1)) := by
  have ha := toInt_inRange a
  rw [outsideSigned, decide_eq_decide, ← toInt_eq_lowest_iff hn]
  omega

/-- Only the lowest signed value has a negation outside the range. -/
theorem outsideSigned_neg {n : Nat} (hn : 0 < n) (a : BitVec n) : outsideSigned n (0 - a.toInt) = decide (a.toNat = 2 ^ (n - 1)) := by
  have ha := toInt_inRange a
  rw [outsideSigned, decide_eq_decide, ← toInt_eq_lowest_iff hn]
  omega

/-! ### What each recipe leaves in the flags -/

section
variable {n : Nat} (hn : 4 < n) (a b : BitVec n) (o : Flags)
include hn

theorem addRecipe_apply {r : BitVec n} (hr : r = a + b) : (addRecipe a b (a + b)).apply o =
    ⟨.ofBool (decide (2 ^ n ≤ a.toNat + b.toNat)), .ofBool (parityFlag r), .ofBool (decide (16 ≤ a.toNat % 16 + b.toNat % 16)),
      .ofBool (decide (r = 0)), .ofBool r.msb, .ofBool (outsideSigned n (a.toInt + b.toInt))⟩ := by
  rw [addRecipe, arithRecipe_some_apply, addCarry, auxFlag_add_no_carry hn, addOverflow_no_carry, hr]

theorem adcRecipe_apply (c : Bool) {r : BitVec n} (hr : r = a + b + carryBits n c) :
    (adcRecipe a b c (a + b + carryBits n c)).apply o =
      ⟨.ofBool (decide (2 ^ n ≤ a.toNat + b.toNat + c.toNat)), .ofBool (parityFlag r),
        .ofBool (decide (16 ≤ a.toNat % 16 + b.toNat % 16 + c.toNat)), .ofBool (decide (r = 0)), .ofBool r.msb,
        .ofBool (outsideSigned n (a.toInt + b.toInt + c.toNat))⟩ := by
  rw [adcRecipe, arithRecipe_some_apply, adcCarry_eq (Nat.zero_lt_of_lt hn), auxFlag_add hn, addOverflow, hr]

theorem subRecipe_apply {r : BitVec n} (hr : r = a - b) : (subRecipe a b (a - b)).apply o =
    ⟨.ofBool (decide (a.toNat < b.toNat)), .ofBool (parityFlag r), .ofBool (decide (a.toNat % 16 < b.toNat % 16)),
      .ofBool (decide (r = 0)), .ofBool r.msb, .ofBool (outsideSigned n (a.toInt - b.toInt))⟩ := by
  rw [subRecipe, arithRecipe_some_apply, subBorrow, auxFlag_sub_no_borrow hn, subOverflow_no_borrow, hr]

theorem sbbRecipe_apply (c : Bool) {r : BitVec n} (hr : r = a - b - carryBits n c) :
    (sbbRecipe a b c (a - b - carryBits n c)).apply o =
      ⟨.ofBool (decide (a.toNat < b.toNat + c.toNat)), .ofBool (parityFlag r),
        .ofBool (decide (a.toNat % 16 < b.toNat % 16 + c.toNat)), .ofBool (decide (r = 0)), .ofBool r.msb,
        .ofBool (outsideSigned n (a.toInt - b.toInt - c.toNat))⟩ := by
  rw [sbbRecipe, arithRecipe_some_apply, sbbBorrow_eq (Nat.zero_lt_of_lt hn), auxFlag_sub hn, subOverflow, hr]

/-- INC's nibble carries exactly from 15. -/
theorem auxFlag_inc : auxFlag a 1 (a + 1) = decide (a.toNat % 16 = 15) := by
  rw [auxFlag_add_no_carry hn, BitVec.ofNat_eq_ofNat, BitVec.toNat_one (by omega), decide_eq_decide]
  omega

/-- DEC's nibble borrows exactly from 0. -/
theorem auxFlag_dec : auxFlag a 1 (a - 1) = decide (a.toNat % 16 = 0) := by
  rw [auxFlag_sub_no_borrow hn, BitVec.ofNat_eq_ofNat, BitVec.toNat_one (by omega), decide_eq_decide]
  omega

theorem addOverflow_inc : addOverflow a 1 false = decide (a.toNat = 2 ^ (n - 1) - 1) := by
  rw [addOverflow_no_carry, BitVec.ofNat_eq_ofNat, BitVec.toInt_one (by omega), outsideSigned_succ]

theorem subOverflow_dec : subOverflow a 1 false = decide (a.toNat = 2 ^ (n - 1)) := by
  rw [subOverflow_no_borrow, BitVec.ofNat_eq_ofNat, BitVec.toInt_one (by omega), outsideSigned_pred (by omega)]

theorem subOverflow_neg : subOverflow 0 a false = decide (a.toNat = 2 ^ (n - 1)) := by
  rw [subOverflow_no_borrow, BitVec.ofNat_eq_ofNat, BitVec.toInt_zero, outsideSigned_neg (by omega)]

theorem incRecipe_apply {r : BitVec n} (hr : r = a + 1) : (incRecipe a (a + 1)).apply o =
    ⟨o.CF, .ofBool (parityFlag r), .ofBool (decide (a.toNat % 16 = 15)), .ofBool (decide (r = 0)), .ofBool r.msb,
      .ofBool (decide (a.toNat = 2 ^ (n - 1) - 1))⟩ := by
  rw [incRecipe, arithRecipe_none_apply, auxFlag_inc hn, addOverflow_inc hn, hr]

theorem decRecipe_apply {r : BitVec n} (hr : r = a - 1) : (decRecipe a (a - 1)).apply o =
    ⟨o.CF, .ofBool (parityFlag r), .ofBool (decide (a.toNat % 16 = 0)), .ofBool (decide (r = 0)), .ofBool r.msb,
      .ofBool (decide (a.toNat = 2 ^ (n - 1)))⟩ := by
  rw [decRecipe, arithRecipe_none_apply, auxFlag_dec hn, subOverflow_dec hn, hr]

theorem negRecipe_apply {r : BitVec n} (hr : r = 0 - a) : (negRecipe a (0 - a)).apply o =
    ⟨.ofBool (decide (a.toNat ≠ 0)), .ofBool (parityFlag r), .ofBool (decide (0 < a.toNat % 16)), .ofBool (decide (r = 0)),
      .ofBool r.msb, .ofBool (decide (a.toNat = 2 ^ (n - 1)))⟩ := by
  have haux : auxFlag 0 a (0 - a) = decide (0 < a.toNat % 16) := auxFlag_sub_no_borrow hn 0 a
  rw [negRecipe, arithRecipe_some_apply, haux, subOverflow_neg hn, hr]

end

/-! ### A scalar row that is ready -/

/-- A two-operand row at width w leaves its result in op1 and its recipe's flags. -/
theorem exec_binaryOp {i : Instr} {sh : BinaryShape} {w : Width} {s : State} {f : BitVec w.bits → BitVec w.bits → BitVec w.bits × FlagWrite}
    (he : exec i s = binaryOp i w.bits f s) (hw : i.width = some w) (hsh : i.shape = sh.shape) (hr : s.ready i = true)
    {r : BitVec w.bits} {fl : Flags} (hres : r = (f (s.read w.bits s.op1) (s.read w.bits s.op2)).1)
    (hfl : (f (s.read w.bits s.op1) (s.read w.bits s.op2)).2.apply s.mach.flags = fl) :
    ∃ t, exec i s = .next t ∧ Holds t s.op1 r ∧ Frame s t [s.op1] ∧ t.mach.flags = fl := by
  have hsize := op1_sized hw (by rw [hsh]; cases sh <;> nofun) (by rw [hsh]; cases sh <;> nofun) hr
  rw [he, hres, ← hfl]
  exact binaryOp_spec f hr hsize

/-- A one-operand row at width w leaves its result in op1 and its recipe's flags. -/
theorem exec_unaryOp {i : Instr} {sh : UnaryShape} {w : Width} {s : State} {f : BitVec w.bits → BitVec w.bits × FlagWrite}
    (he : exec i s = unaryOp i w.bits f s) (hw : i.width = some w) (hsh : i.shape = sh.shape) (hr : s.ready i = true)
    {r : BitVec w.bits} {fl : Flags} (hres : r = (f (s.read w.bits s.op1)).1)
    (hfl : (f (s.read w.bits s.op1)).2.apply s.mach.flags = fl) :
    ∃ t, exec i s = .next t ∧ Holds t s.op1 r ∧ Frame s t [s.op1] ∧ t.mach.flags = fl := by
  have hsize := op1_sized hw (by rw [hsh]; cases sh <;> nofun) (by rw [hsh]; cases sh <;> nofun) hr
  obtain ⟨t, ht, hholds, hframe, hflags, -⟩ := unaryOp_spec f hr hsize
  exact ⟨t, he.trans ht, hres ▸ hholds, hframe, hflags.trans hfl⟩

/-- A read is no write and no marker. -/
theorem quiet_of_isRead {e : Event} (h : e.isRead = true) : e ≠ .noReorder ∧ e.isWrite = false := by
  cases e <;> simp [Event.isRead, Event.isWrite] at h ⊢

/-- Where nothing is written but flags, no marker is recorded. -/
theorem quiet_of_mem_flagEvents_nil {f : FlagWrite} {e : Event} (h : e ∈ flagEvents [] f) : e ≠ .noReorder ∧ e.isWrite = false := by
  rcases flagEvents_cases [] f with ⟨-, he⟩ | ⟨-, -, he⟩ | ⟨-, hp, -⟩
  · simp [he] at h
  · obtain rfl : e = .wrFlags f := by simpa [he] using h
    exact ⟨nofun, rfl⟩
  · exact absurd rfl hp

/-- A row that writes flags only changes nothing else, and records no write and no marker. -/
theorem exec_compareOp {i : Instr} {n : Nat} {s : State} {f : BitVec n → BitVec n → FlagWrite} (he : exec i s = compareOp i n f s)
    (hr : s.ready i = true) {fl : Flags} (hfl : (f (s.read n s.op1) (s.read n s.op2)).apply s.mach.flags = fl) :
    ∃ t, exec i s = .next t ∧ Frame s t [] ∧ (∀ e ∈ t.trace, e ∈ s.trace ∨ (e ≠ .noReorder ∧ e.isWrite = false))
      ∧ t.mach.flags = fl := by
  obtain ⟨t, ht, hframe, hflags, htrace⟩ := compareOp_spec f hr
  refine ⟨t, he.trans ht, hframe, fun e hmem => ?_, hflags.trans hfl⟩
  simp only [htrace, List.mem_append] at hmem
  rcases hmem with hold | (hread | hread) | hflag
  · exact .inl hold
  · exact .inr (quiet_of_isRead (isRead_of_mem_readEvent hread))
  · exact .inr (quiet_of_isRead (isRead_of_mem_readEvent hread))
  · exact .inr (quiet_of_mem_flagEvents_nil hflag)

/-- The carry-in is CF where it is given and the draw where it is `U` (10_state.md R40). -/
theorem carryIn_eq {s : State} {cin : Bool} (h : s.mach.flags.CF = .ofBool cin ∨ (s.mach.flags.CF = .u ∧ cin = s.draw)) :
    s.carryIn = cin := by
  rcases h with h | ⟨h, rfl⟩
  · rw [State.carryIn, h]; cases cin <;> rfl
  · rw [State.carryIn, h]

/-! ### The rows as the shared operations -/

section
variable (sh : BinaryShape) (w : Width) (s : State)

theorem exec_add : exec (.add sh w) s = binaryOp (.add sh w) w.bits (fun a b => (a + b, addRecipe a b (a + b))) s := rfl

theorem exec_adc : exec (.adc sh w) s = binaryOp (.adc sh w) w.bits
    (fun a b => (a + b + carryBits w.bits s.carryIn, adcRecipe a b s.carryIn (a + b + carryBits w.bits s.carryIn))) s := rfl

theorem exec_sub : exec (.sub sh w) s = binaryOp (.sub sh w) w.bits (fun a b => (a - b, subRecipe a b (a - b))) s := rfl

theorem exec_sbb : exec (.sbb sh w) s = binaryOp (.sbb sh w) w.bits
    (fun a b => (a - b - carryBits w.bits s.carryIn, sbbRecipe a b s.carryIn (a - b - carryBits w.bits s.carryIn))) s := rfl

theorem exec_cmp : exec (.cmp sh w) s = compareOp (.cmp sh w) w.bits (fun a b => subRecipe a b (a - b)) s := rfl

end

section
variable (sh : UnaryShape) (w : Width) (s : State)

theorem exec_inc : exec (.inc sh w) s = unaryOp (.inc sh w) w.bits (fun a => (a + 1, incRecipe a (a + 1))) s := rfl

theorem exec_dec : exec (.dec sh w) s = unaryOp (.dec sh w) w.bits (fun a => (a - 1, decRecipe a (a - 1))) s := rfl

theorem exec_neg : exec (.neg sh w) s = unaryOp (.neg sh w) w.bits (fun a => (0 - a, negRecipe a (0 - a))) s := rfl

end

/-! ### The results and the flags of the rows -/

/-- Settles O17: the sum wraps, and ADD's recipe is that of the exact sum. -/
theorem addWritesTheSumAndItsFlags : Obligations.AddWritesTheSumAndItsFlags := by
  intro sh w s
  refine ⟨opField_encode _, fun hr => ?_⟩
  have hsum := ofNat_toNat_add (s.read w.bits s.op1) (s.read w.bits s.op2)
  exact exec_binaryOp (exec_add sh w s) rfl rfl hr hsum (addRecipe_apply (four_lt_bits w) _ _ _ hsum)

/-- Settles O18: with the carry-in that CF or the draw gives, the two stages add up to the whole sum. -/
theorem adcAddsTheCarryIn : Obligations.AdcAddsTheCarryIn := by
  intro sh w s cin
  refine ⟨opField_encode _, fun hr hcf => ?_⟩
  obtain rfl := carryIn_eq hcf
  have hsum := ofNat_toNat_add_carry (s.read w.bits s.op1) (s.read w.bits s.op2) s.carryIn
  exact exec_binaryOp (exec_adc sh w s) rfl rfl hr hsum (adcRecipe_apply (four_lt_bits w) _ _ _ _ hsum)

/-- Settles O19: the difference wraps, and SUB's recipe is that of the exact difference. -/
theorem subWritesTheDifferenceAndItsFlags : Obligations.SubWritesTheDifferenceAndItsFlags := by
  intro sh w s
  refine ⟨opField_encode _, fun hr => ?_⟩
  have hdiff := ofInt_toNat_sub (s.read w.bits s.op1) (s.read w.bits s.op2)
  exact exec_binaryOp (exec_sub sh w s) rfl rfl hr hdiff (subRecipe_apply (four_lt_bits w) _ _ _ hdiff)

/-- Settles O20: with the borrow-in that CF or the draw gives, the two stages subtract the whole. -/
theorem sbbSubtractsTheBorrowIn : Obligations.SbbSubtractsTheBorrowIn := by
  intro sh w s cin
  refine ⟨opField_encode _, fun hr hcf => ?_⟩
  obtain rfl := carryIn_eq hcf
  have hdiff := ofInt_toNat_sub_carry (s.read w.bits s.op1) (s.read w.bits s.op2) s.carryIn
  exact exec_binaryOp (exec_sbb sh w s) rfl rfl hr hdiff (sbbRecipe_apply (four_lt_bits w) _ _ _ _ hdiff)

/-- Settles O21: CMP leaves SUB's flags, and its events are two reads and a flag write. -/
theorem cmpWritesFlagsOnly : Obligations.CmpWritesFlagsOnly := by
  intro sh w s
  refine ⟨opField_encode _, rfl, fun hr => ?_⟩
  exact exec_compareOp (exec_cmp sh w s) hr (subRecipe_apply (four_lt_bits w) _ _ _ (ofInt_toNat_sub _ _))

/-- Settles O22: INC's recipe has no write of CF. -/
theorem incKeepsTheCarry : Obligations.IncKeepsTheCarry := by
  intro sh w s
  refine ⟨opField_encode _, fun hr => ?_⟩
  have hsum := ofNat_toNat_succ (s.read w.bits s.op1)
  exact exec_unaryOp (exec_inc sh w s) rfl rfl hr hsum (incRecipe_apply (four_lt_bits w) _ _ hsum)

/-- Settles O23: DEC's recipe has no write of CF. -/
theorem decKeepsTheCarry : Obligations.DecKeepsTheCarry := by
  intro sh w s
  refine ⟨opField_encode _, fun hr => ?_⟩
  have hdiff := ofInt_toNat_pred (s.read w.bits s.op1)
  exact exec_unaryOp (exec_dec sh w s) rfl rfl hr hdiff (decRecipe_apply (four_lt_bits w) _ _ hdiff)

/-- Settles O24: the difference from 0 wraps, and NEG's recipe tests the operand for CF. -/
theorem negSubtractsFromZero : Obligations.NegSubtractsFromZero := by
  intro sh w s
  refine ⟨opField_encode _, fun hr => ?_⟩
  have hdiff := ofInt_zero_sub_toNat (s.read w.bits s.op1)
  exact exec_unaryOp (exec_neg sh w s) rfl rfl hr hdiff (negRecipe_apply (four_lt_bits w) _ _ hdiff)

end Sys2Proof.Proofs
end

section
/-! PROOFS. XADD (42_atomic_xadd.md R211, R214). The sum is written first and op1's old value second, to a register: op1 keeps the sum where it
is another operand, which may be the other byte view of the same register. -/

namespace Sys2Proof.Proofs
open Sys2Proof.Machine

/-! ### An operand after a write of another register view of its width -/

/-- The one width at which a register has two views is 8 bits, and its two byte views do not overlap (10_state.md R32). -/
theorem rdView_wrView_of_ne {k k' : View} (hbits : k.bits = k'.bits) (hne : k ≠ k') (x : GprCell) (v : BitVec k'.bits) :
    rdView (wrView x k' v) k = rdView x k := by
  have hbytes : (k = .l8 ∧ k' = .h8) ∨ (k = .h8 ∧ k' = .l8) := by revert hbits hne; cases k <;> cases k' <;> decide
  rcases hbytes with ⟨rfl, rfl⟩ | ⟨rfl, rfl⟩
  · exact rdView_l8_wrView_h8 x v
  · exact rdView_h8_wrView_l8 x v

theorem readOp_writeOp_reg_of_ne (c : Context) (m : MachineState) {h : Handle} {j : Fin 16} {k : View} {n : Nat} (v : BitVec n)
    (hs : Sized c n h) (hk : k.bits = n) (hne : h ≠ .reg j k) : readOp c (writeOp c m ⟨.reg j k, n, v⟩) n h = readOp c m n h := by
  cases h with
  | reg i k' =>
    by_cases hij : i = j
    · subst hij
      have hview : k' ≠ k := fun e => hne (by rw [e])
      simp [writeOp_reg, readOp, rdView_wrView_of_ne (hs.trans hk.symm) hview]
    · exact readOp_writeOp_reg_other c m j i k k' v n (Ne.symm hij)
  | vec | mem | imm => rfl

/-- Flag writes change no operand. -/
theorem readOp_settle (c : Context) (m : MachineState) (ps : List Put) (f : FlagWrite) (n : Nat) (h : Handle) :
    readOp c (settle c m ps f) n h = readOp c (writeOps c m ps) n h := by
  cases h <;> rfl

/-- A destination keeps its value where the write after it is of another operand, a register view of the same width. -/
theorem holds_before_write_reg {s t : State} {h h' : Handle} {j : Fin 16} {k : View} {n : Nat} (v v' : BitVec n) (f : FlagWrite)
    (hm : t.mach = settle s.ctx s.mach [⟨h, n, v⟩, ⟨h', n, v'⟩] f) (hc : t.ctx = s.ctx) (hs : Sized s.ctx n h) (hreg : h' = .reg j k)
    (hk : k.bits = n) (hne : h ≠ h') : Holds t h v := by
  subst hreg
  refine ⟨?_, fun i hi => ?_⟩
  · rw [State.read, hm, hc, readOp_settle, writeOps_cons, writeOps_cons, writeOps_nil, readOp_writeOp_reg_of_ne _ _ _ hs hk hne,
      readOp_writeOp_self _ _ _ _ hs]
  · subst hi
    obtain rfl : k = .x32 := by
      have hbits : k.bits = View.x32.bits := hk.trans hs.symm
      revert hbits; cases k <;> decide
    have hij : i ≠ j := fun e => hne (by rw [e])
    exact (holds_first_of_two v v' f hm hij hs).2 i rfl

/-! ### The row -/

/-- Settles O43: op2 is written last; op1 keeps the sum where it is another operand; the recipe is ADD's for the exact sum. -/
theorem xaddExchangesAndAdds : Obligations.XaddExchangesAndAdds := by
  intro sh w s
  refine ⟨opField_encode _, fun hr => ?_⟩
  obtain ⟨hs, j, k, h2, hk, -⟩ := xadd_handles hr
  have hsum := ofNat_toNat_add (s.read w.bits s.op1) (s.read w.bits s.op2)
  refine ⟨_, execXadd_ready hr, fun hne => ?_, ?_, ?_, addRecipe_apply (four_lt_bits w) _ _ _ hsum⟩
  · rw [hsum]
    exact holds_before_write_reg (s := s) _ _ _ rfl rfl hs h2 hk hne
  · exact holds_last (s := s) [_] _ _ _ rfl rfl (h2 ▸ hk)
  · exact settle_frame [⟨s.op1, w.bits, _⟩, ⟨s.op2, w.bits, _⟩] _ rfl rfl rfl

end Sys2Proof.Proofs
end

section
/-! PROOFS. MUL and IMUL (43_multiply_divide.md R231 to R236). A product of two W-bit values fits in 2W bits, so its two halves give it back;
it is lost where it does not fit in W bits. -/

namespace Sys2Proof.Proofs
open Sys2Proof.Machine

/-! ### Exact products -/

theorem lostUnsigned_eq_div_ne_zero (n p : Nat) : lostUnsigned n p = decide (p / 2 ^ n ≠ 0) := by
  rw [lostUnsigned, decide_eq_decide, Nat.div_ne_zero_iff, and_iff_right (by positivity)]

/-- Losing a signed product is leaving the signed range (40_flag_algebra.md R151). -/
theorem lostSigned_eq_outsideSigned {n : Nat} (hn : 0 < n) (p : Int) : lostSigned n p = outsideSigned n p := by
  rw [lostSigned, outsideSigned, decide_eq_decide]
  constructor
  · contrapose!
    rintro ⟨hlo, hhi⟩
    exact BitVec.toInt_ofInt_eq_self hn hlo hhi
  · intro hout heq
    have hrange := toInt_inRange (BitVec.ofInt n p)
    omega

/-- The unsigned high and low half of a double-width number give it back. -/
theorem toNat_halves {n p : Nat} (hp : p < 2 ^ (n + n)) :
    (BitVec.ofNat n (p / 2 ^ n)).toNat * 2 ^ n + (BitVec.ofNat n p).toNat = p := by
  have hdiv : p / 2 ^ n < 2 ^ n := Nat.div_lt_of_lt_mul (by rwa [← pow_add])
  rw [BitVec.toNat_ofNat, BitVec.toNat_ofNat, Nat.mod_eq_of_lt hdiv, Nat.div_add_mod']

/-- The signed high half and the unsigned low half of a double-width integer give it back. -/
theorem toInt_halves {n : Nat} (hn : 0 < n) {p : Int} (hlo : -2 ^ (n + n - 1) ≤ p) (hhi : p < 2 ^ (n + n - 1)) :
    (BitVec.ofInt n (p / 2 ^ n)).toInt * 2 ^ n + (BitVec.ofInt n p).toNat = p := by
  have hsplit : (2 : Int) ^ (n + n - 1) = 2 ^ (n - 1) * 2 ^ n := by rw [← pow_add]; congr 1; omega
  have hpow : (0 : Int) < 2 ^ n := by positivity
  have hhigh : (BitVec.ofInt n (p / 2 ^ n)).toInt = p / 2 ^ n :=
    BitVec.toInt_ofInt_eq_self hn ((Int.le_ediv_iff_mul_le hpow).2 (by rwa [neg_mul, ← hsplit]))
      ((Int.ediv_lt_iff_lt_mul hpow).2 (by rwa [← hsplit]))
  have hlow : ((BitVec.ofInt n p).toNat : Int) = p % 2 ^ n := by
    rw [BitVec.toNat_ofInt, Int.toNat_of_nonneg (Int.emod_nonneg _ (by positivity))]; push_cast; rfl
  rw [hhigh, hlow, Int.ediv_mul_add_emod]

/-! ### The product of a one-operand row -/

/-- MUL's exact product: `ACC_W` times op1. -/
def productU (s : State) (w : Width) : Nat := (s.read w.bits (accHandle w)).toNat * (s.read w.bits s.op1).toNat

/-- One-operand IMUL's exact product. -/
def productS (s : State) (w : Width) : Int := (s.read w.bits (accHandle w)).toInt * (s.read w.bits s.op1).toInt

theorem productU_lt (s : State) (w : Width) : productU s w < 2 ^ (w.bits + w.bits) := toNat_mul_toNat_lt _ _

theorem le_productS (s : State) (w : Width) : -2 ^ (w.bits + w.bits - 1) ≤ productS s w := le_toInt_mul_toInt (bits_pos w) _ _

theorem productS_lt (s : State) (w : Width) : productS s w < 2 ^ (w.bits + w.bits - 1) := toInt_mul_toInt_lt (bits_pos w) _ _

/-! ### The rows as the shared operations -/

section
variable (sh : UnaryShape) (w : WideWidth) (s : State)

theorem exec_mul_w8 : exec (.mul sh .w8) s =
    multiplyAx (.mul sh .w8) (BitVec.ofNat 16 (productU s .w8)) (mulRecipe 8 (productU s .w8)) s := rfl

theorem exec_mul_wide : exec (.mul sh w.width) s = multiplySplit (.mul sh w.width) w (BitVec.ofNat _ (productU s w.width))
    (BitVec.ofNat _ (productU s w.width / 2 ^ w.width.bits)) (mulRecipe w.width.bits (productU s w.width)) s := by
  cases w <;> rfl

theorem exec_imul1_w8 : exec (.imul1 sh .w8) s =
    multiplyAx (.imul1 sh .w8) (BitVec.ofInt 16 (productS s .w8)) (imulRecipe 8 (productS s .w8)) s := rfl

theorem exec_imul1_wide : exec (.imul1 sh w.width) s = multiplySplit (.imul1 sh w.width) w (BitVec.ofInt _ (productS s w.width))
    (BitVec.ofInt _ (productS s w.width / 2 ^ w.width.bits)) (imulRecipe w.width.bits (productS s w.width)) s := by
  rw [← Int.fdiv_eq_ediv_of_nonneg _ (by positivity)]
  cases w <;> rfl

end

theorem exec_imul2 (sh : RegSrcShape) (w : WideWidth) (s : State) : exec (.imul2 sh w) s = binaryOp (.imul2 sh w) w.width.bits
    (fun a b => (BitVec.ofInt w.width.bits (a.toInt * b.toInt), imulRecipe w.width.bits (a.toInt * b.toInt))) s := rfl

/-! ### The flags of the rows -/

theorem mulRecipe_apply_eq_div (n p : Nat) (o : Flags) :
    (mulRecipe n p).apply o = ⟨.ofBool (decide (p / 2 ^ n ≠ 0)), .u, .u, .u, .u, .ofBool (decide (p / 2 ^ n ≠ 0))⟩ := by
  rw [mulRecipe_apply, lostUnsigned_eq_div_ne_zero]

theorem imulRecipe_apply_eq_range (w : Width) (p : Int) (o : Flags) : (imulRecipe w.bits p).apply o =
    ⟨.ofBool (outsideSigned w.bits p), .u, .u, .u, .ofBool (BitVec.ofInt w.bits p).msb, .ofBool (outsideSigned w.bits p)⟩ := by
  rw [imulRecipe_apply, lostSigned_eq_outsideSigned (bits_pos w)]

/-! ### Multiply rows that are ready -/

/-- Settles O30: two bytes have a product below 2^16, and it is lost where its high byte is not 0. -/
theorem byteMulFillsAx : Obligations.ByteMulFillsAx := by
  intro sh s
  refine ⟨opField_encode _, fun hr => ?_⟩
  obtain ⟨t, ht, hax, hframe, hflags⟩ := multiplyAx_spec (BitVec.ofNat 16 (productU s .w8)) (mulRecipe 8 (productU s .w8)) hr
  refine ⟨t, (exec_mul_w8 sh s).trans ht, hax, ?_, hframe, hflags.trans (mulRecipe_apply_eq_div ..)⟩
  rw [hax.1, BitVec.toNat_ofNat]
  exact Nat.mod_eq_of_lt (productU_lt s .w8)

/-- Settles O31: the two halves give the product back, and it is lost where the high one is not 0. -/
theorem wideMulFillsBothHalves : Obligations.WideMulFillsBothHalves := by
  intro sh w s
  refine ⟨opField_encode _, fun hr => ?_⟩
  obtain ⟨t, ht, hacc, hhi, hframe, hflags⟩ := multiplySplit_spec (BitVec.ofNat _ (productU s w.width))
    (BitVec.ofNat _ (productU s w.width / 2 ^ w.width.bits)) (mulRecipe w.width.bits (productU s w.width)) hr
  refine ⟨t, (exec_mul_wide sh w s).trans ht, hacc, hhi, ?_, hframe, hflags.trans (mulRecipe_apply_eq_div ..)⟩
  rw [hacc.1, hhi.1]
  exact toNat_halves (productU_lt s w.width)

/-- Settles O32: two signed bytes have a product that fits in AX, and it is lost where it leaves the signed range of a byte. -/
theorem byteImulFillsAx : Obligations.ByteImulFillsAx := by
  intro sh s
  refine ⟨opField_encode _, fun hr => ?_⟩
  obtain ⟨t, ht, hax, hframe, hflags⟩ := multiplyAx_spec (BitVec.ofInt 16 (productS s .w8)) (imulRecipe 8 (productS s .w8)) hr
  refine ⟨t, (exec_imul1_w8 sh s).trans ht, hax, ?_, hframe, hflags.trans (imulRecipe_apply_eq_range .w8 _ _)⟩
  rw [hax.1]
  exact BitVec.toInt_ofInt_eq_self (by decide) (le_productS s .w8) (productS_lt s .w8)

/-- Settles O33: the floor of p / 2^W and p itself, both wrapped, are the halves of p. -/
theorem wideImulFillsBothHalves : Obligations.WideImulFillsBothHalves := by
  intro sh w s
  refine ⟨opField_encode _, fun hr => ?_⟩
  obtain ⟨t, ht, hacc, hhi, hframe, hflags⟩ := multiplySplit_spec (BitVec.ofInt _ (productS s w.width))
    (BitVec.ofInt _ (productS s w.width / 2 ^ w.width.bits)) (imulRecipe w.width.bits (productS s w.width)) hr
  refine ⟨t, (exec_imul1_wide sh w s).trans ht, hacc, hhi, ?_, hframe, hflags.trans (imulRecipe_apply_eq_range w.width _ _)⟩
  rw [hacc.1, hhi.1]
  exact toInt_halves (bits_pos w.width) (le_productS s w.width) (productS_lt s w.width)

/-- Settles O34: op1 receives the wrapped product, with IMUL's recipe. -/
theorem twoOperandImulTruncates : Obligations.TwoOperandImulTruncates := by
  intro sh w s
  refine ⟨opField_encode _, fun hr => ?_⟩
  have hsize := op1_sized (w := w.width) rfl (by cases sh <;> nofun) (by cases sh <;> nofun) hr
  obtain ⟨t, ht, hholds, hframe, hflags⟩ := binaryOp_spec _ hr hsize
  exact ⟨t, (exec_imul2 sh w s).trans ht, hholds, hframe, hflags.trans (imulRecipe_apply_eq_range w.width _ _)⟩

/-- Settles O35: the product is that of op2 and op3, and op1 is the one destination. -/
theorem threeOperandImulTruncates : Obligations.ThreeOperandImulTruncates := by
  intro sh w s
  refine ⟨opField_encode _, fun hr => ?_⟩
  have hsize := op1_sized (w := w.width) rfl (by cases sh <;> nofun) (by cases sh <;> nofun) hr
  exact ⟨_, perform_ready _ hr, holds_last [] _ _ _ rfl rfl hsize, commit_frame _ _ [_] _, imulRecipe_apply_eq_range w.width _ _⟩

end Sys2Proof.Proofs
end

section
/-! PROOFS. DIV and IDIV (43_multiply_divide.md R237 to R241; 60_exceptions.md R330 to R334). The 8-bit form and the split forms are brought to
one shape, by the width's own registers; what is left is the division of the dividend as a number. -/

namespace Sys2Proof.Proofs
open Sys2Proof.Machine

/-! ### The two forms -/

theorem width_cases (w : Width) : w = .w8 ∨ ∃ v : WideWidth, w = v.width := by
  cases w with
  | w8 => exact .inl rfl
  | w16 => exact .inr ⟨.w16, rfl⟩
  | w32 => exact .inr ⟨.w32, rfl⟩
  | w64 => exact .inr ⟨.w64, rfl⟩

theorem quotientReg_wide (v : WideWidth) : quotientReg v.width = .reg 0 v.width.view := by cases v <;> rfl

theorem remainderReg_wide (v : WideWidth) : remainderReg v.width = .reg 2 v.width.view := by cases v <;> rfl

/-- What a divide that completes has done: both results are in their registers, nothing else is changed, and every flag is `U`. -/
def Divided (s t : State) (w : Width) (q r : BitVec w.bits) : Prop :=
  Holds t (quotientReg w) q ∧ Holds t (remainderReg w) r ∧ Frame s t [quotientReg w, remainderReg w]
    ∧ t.mach.flags = ⟨.u, .u, .u, .u, .u, .u⟩

theorem divided_divideAx (q r : BitVec 8) (s : State) : Divided s (divideAx q r s) .w8 q r := divideAx_spec q r s

theorem divided_divideSplit {v : WideWidth} (q r : BitVec v.width.bits) (s : State) :
    Divided s (divideSplit v q r s) v.width q r := by
  rw [Divided, quotientReg_wide, remainderReg_wide]
  exact divideSplit_spec q r s

section
variable (sh : UnaryShape) (v : WideWidth) (s : State)

theorem exec_div_w8 : exec (.div sh .w8) s = divAx (.div sh .w8) s := rfl
theorem exec_idiv_w8 : exec (.idiv sh .w8) s = idivAx (.idiv sh .w8) s := rfl
theorem exec_div_wide : exec (.div sh v.width) s = divSplit (.div sh v.width) v s := by cases v <;> rfl
theorem exec_idiv_wide : exec (.idiv sh v.width) s = idivSplit (.idiv sh v.width) v s := by cases v <;> rfl

end

/-! ### The dividend as a number -/

theorem toNat_append_eq {m n : Nat} (x : BitVec m) (y : BitVec n) : (x ++ y).toNat = x.toNat * 2 ^ n + y.toNat := by
  rw [BitVec.toNat_append, ← Nat.shiftLeft_add_eq_or_of_lt y.isLt, Nat.shiftLeft_eq]

theorem toNat_dividendAx (s : State) : s.dividendAx.toNat = dividendU s .w8 := rfl

theorem toInt_dividendAx (s : State) : s.dividendAx.toInt = dividendS s .w8 := rfl

theorem toNat_dividendSplit (s : State) (v : WideWidth) : (s.dividendSplit v).toNat = dividendU s v.width := by
  rw [State.dividendSplit, toNat_append_eq]
  cases v <;> rfl

theorem toInt_dividendSplit (s : State) (v : WideWidth) : (s.dividendSplit v).toInt = dividendS s v.width := by
  rw [State.dividendSplit, BitVec.toInt_append, if_neg (by simpa using (bits_pos v.width).ne'), mul_comm]
  cases v <;> rfl

/-- AX is AH and AL (10_state.md R32). -/
theorem rdView_x16_eq_append (x : GprCell) : rdView x .x16 = rdView x .h8 ++ rdView x .l8 :=
  (BitVec.extractLsb'_append_extractLsb'_eq_extractLsb' (len₂ := 8) (len₁ := 8) rfl).symm

/-- The dividend's high half stands where the remainder goes, its low half where the quotient goes. -/
theorem dividendU_eq_halves (s : State) (w : Width) :
    dividendU s w = (s.read w.bits (remainderReg w)).toNat * 2 ^ w.bits + (s.read w.bits (quotientReg w)).toNat := by
  cases w with
  | w8 =>
    simp only [dividendU, remainderReg, quotientReg, read_reg, BitVec.setWidth_eq, rdView_x16_eq_append]
    exact toNat_append_eq _ _
  | w16 | w32 | w64 => rfl

/-! ### Quotient and remainder -/

section
variable {bits : Nat}

theorem divUnsigned_zero (n : Nat) : divUnsigned bits n 0 = .error .byZero := if_pos rfl

theorem divUnsigned_of_overflow {n d : Nat} (hd : d ≠ 0) (hq : 2 ^ bits ≤ n / d) : divUnsigned bits n d = .error .overflow := by
  rw [divUnsigned, if_neg hd, if_pos hq]

theorem divUnsigned_of_fits {n d : Nat} (hd : d ≠ 0) (hq : n / d < 2 ^ bits) : divUnsigned bits n d = .ok (n / d, n % d) := by
  rw [divUnsigned, if_neg hd, if_neg hq.not_ge, Nat.mod_eq_sub_div_mul]

theorem divSigned_zero (n : Int) : divSigned bits n 0 = .error .byZero := if_pos rfl

theorem divSigned_of_overflow {n d : Int} (hd : d ≠ 0) (hq : n.tdiv d < -2 ^ (bits - 1) ∨ 2 ^ (bits - 1) ≤ n.tdiv d) :
    divSigned bits n d = .error .overflow := by
  rw [divSigned, if_neg hd, outsideSigned, if_pos (decide_eq_true hq)]

theorem divSigned_of_fits {n d : Int} (hd : d ≠ 0) (hlo : -2 ^ (bits - 1) ≤ n.tdiv d) (hhi : n.tdiv d < 2 ^ (bits - 1)) :
    divSigned bits n d = .ok (n.tdiv d, n.tmod d) := by
  have hin : outsideSigned bits (n.tdiv d) = false := decide_eq_false (by omega)
  rw [divSigned, if_neg hd, hin, if_neg Bool.false_ne_true, Int.tmod_def, mul_comm]

theorem natAbs_tmod_lt (n : Int) {d : Int} (hd : d ≠ 0) : (n.tmod d).natAbs < d.natAbs := by
  rw [Int.natAbs_tmod]
  exact Nat.mod_lt _ (Int.natAbs_pos.2 hd)

theorem tmod_nonpos {n : Int} (d : Int) (hn : n ≤ 0) : n.tmod d ≤ 0 := by
  have hneg := Int.tmod_nonneg d (neg_nonneg.2 hn)
  rwa [Int.neg_tmod, neg_nonneg] at hneg

/-- A remainder is smaller than its divisor, so it fits where the divisor does. -/
theorem toInt_ofInt_tmod (hb : 0 < bits) (n : Int) {d : BitVec bits} (hd : d.toInt ≠ 0) :
    (BitVec.ofInt bits (n.tmod d.toInt)).toInt = n.tmod d.toInt := by
  have hsmall := natAbs_tmod_lt n hd
  have hrange := toInt_inRange d
  exact BitVec.toInt_ofInt_eq_self hb (by omega) (by omega)

theorem toNat_ofNat_mod (n : Nat) {d : BitVec bits} (hd : d.toNat ≠ 0) : (BitVec.ofNat bits (n % d.toNat)).toNat = n % d.toNat := by
  rw [BitVec.toNat_ofNat, Nat.mod_eq_of_lt ((Nat.mod_lt n (Nat.pos_of_ne_zero hd)).trans d.isLt)]

/-- A quotient overflows exactly when the dividend's high half reaches the divisor. -/
theorem two_pow_le_div_iff {hi lo d : Nat} (hlo : lo < 2 ^ bits) (hd : d ≠ 0) : 2 ^ bits ≤ (hi * 2 ^ bits + lo) / d ↔ d ≤ hi := by
  have hhigh : (hi * 2 ^ bits + lo) / 2 ^ bits = hi := by
    rw [mul_comm, Nat.mul_add_div (by positivity), Nat.div_eq_of_lt hlo, add_zero]
  rw [Nat.le_div_iff_mul_le (Nat.pos_of_ne_zero hd), mul_comm, ← Nat.le_div_iff_mul_le (by positivity), hhigh]

end

/-! ### How a divide that is ready ends -/

section
variable {sh : UnaryShape} {w : Width} {s : State}

/-- The hook receives the `MachineState` as it was (60_exceptions.md R334). -/
theorem exec_div_of_error {c : DivideCause} (hr : s.ready (.div sh w) = true)
    (h : divUnsigned w.bits (dividendU s w) (s.read w.bits s.op1).toNat = .error c) :
    exec (.div sh w) s = .fault (.divideError c s.mach) := by
  rcases width_cases w with rfl | ⟨v, rfl⟩
  · rw [exec_div_w8, divAx, perform_ready _ hr, toNat_dividendAx, h]; rfl
  · rw [exec_div_wide, divSplit, perform_ready _ hr, toNat_dividendSplit, h]; rfl

theorem exec_div_of_ok {q r : Nat} (hr : s.ready (.div sh w) = true)
    (h : divUnsigned w.bits (dividendU s w) (s.read w.bits s.op1).toNat = .ok (q, r)) :
    ∃ t, exec (.div sh w) s = .next t ∧ Divided s t w (BitVec.ofNat _ q) (BitVec.ofNat _ r) := by
  rcases width_cases w with rfl | ⟨v, rfl⟩
  · rw [exec_div_w8, divAx, perform_ready _ hr, toNat_dividendAx, h]
    exact ⟨_, rfl, divided_divideAx ..⟩
  · rw [exec_div_wide, divSplit, perform_ready _ hr, toNat_dividendSplit, h]
    exact ⟨_, rfl, divided_divideSplit ..⟩

theorem exec_idiv_of_error {c : DivideCause} (hr : s.ready (.idiv sh w) = true)
    (h : divSigned w.bits (dividendS s w) (s.read w.bits s.op1).toInt = .error c) :
    exec (.idiv sh w) s = .fault (.divideError c s.mach) := by
  rcases width_cases w with rfl | ⟨v, rfl⟩
  · rw [exec_idiv_w8, idivAx, perform_ready _ hr, toInt_dividendAx, h]; rfl
  · rw [exec_idiv_wide, idivSplit, perform_ready _ hr, toInt_dividendSplit, h]; rfl

theorem exec_idiv_of_ok {q r : Int} (hr : s.ready (.idiv sh w) = true)
    (h : divSigned w.bits (dividendS s w) (s.read w.bits s.op1).toInt = .ok (q, r)) :
    ∃ t, exec (.idiv sh w) s = .next t ∧ Divided s t w (BitVec.ofInt _ q) (BitVec.ofInt _ r) := by
  rcases width_cases w with rfl | ⟨v, rfl⟩
  · rw [exec_idiv_w8, idivAx, perform_ready _ hr, toInt_dividendAx, h]
    exact ⟨_, rfl, divided_divideAx ..⟩
  · rw [exec_idiv_wide, idivSplit, perform_ready _ hr, toInt_dividendSplit, h]
    exact ⟨_, rfl, divided_divideSplit ..⟩

end

/-- Settles O36: the quotient fits by hypothesis, the remainder because the divisor does. -/
theorem divWritesQuotientAndRemainder : Obligations.DivWritesQuotientAndRemainder := by
  intro sh w s
  refine ⟨opField_encode _, fun hr hd hq => ?_⟩
  obtain ⟨t, ht, hquo, hrem, hframe, hflags⟩ := exec_div_of_ok hr (divUnsigned_of_fits hd hq)
  have hremVal := (congrArg BitVec.toNat hrem.1).trans (toNat_ofNat_mod _ hd)
  refine ⟨t, ht, hquo, hrem, ?_, ?_, hframe, hflags⟩
  · rw [hremVal, hquo.1, BitVec.toNat_ofNat, Nat.mod_eq_of_lt hq, Nat.div_add_mod']
  · rw [hremVal]
    exact Nat.mod_lt _ (Nat.pos_of_ne_zero hd)

/-- Settles O37: the quotient is in the signed range by hypothesis, the remainder because it is smaller than the divisor. -/
theorem idivWritesQuotientAndRemainder : Obligations.IdivWritesQuotientAndRemainder := by
  intro sh w s
  refine ⟨opField_encode _, fun hr hd hlo hhi => ?_⟩
  obtain ⟨t, ht, hquo, hrem, hframe, hflags⟩ := exec_idiv_of_ok hr (divSigned_of_fits hd hlo hhi)
  have hquoVal := (congrArg BitVec.toInt hquo.1).trans (BitVec.toInt_ofInt_eq_self (bits_pos w) hlo hhi)
  have hremVal := (congrArg BitVec.toInt hrem.1).trans (toInt_ofInt_tmod (bits_pos w) _ hd)
  refine ⟨t, ht, hquo, hrem, hquoVal, ?_, ?_, ?_, ?_, hframe, hflags⟩ <;> rw [hremVal]
  · exact (Int.tdiv_mul_add_tmod _ _).symm
  · exact natAbs_tmod_lt _ hd
  · exact Int.tmod_nonneg _
  · exact tmod_nonpos _

/-- Settles O38: zero is tested before the quotient, and both faults before any write. -/
theorem divideFaultsReachTheHook : Obligations.DivideFaultsReachTheHook := by
  refine ⟨rfl, rfl, fun sh w s => ⟨fun hr => ⟨fun hd => ?_, fun hd hq => ?_⟩, fun hr => ⟨fun hd => ?_, fun hd hq => ?_⟩⟩⟩
  · exact exec_div_of_error hr (hd ▸ divUnsigned_zero _)
  · exact exec_div_of_error hr (divUnsigned_of_overflow hd hq)
  · exact exec_idiv_of_error hr (hd ▸ divSigned_zero _)
  · exact exec_idiv_of_error hr (divSigned_of_overflow hd hq)

/-- Settles O39: DIV goes on where the quotient fits, and the quotient overflows where the high half reaches the divisor. -/
theorem divOverflowsWhenTheHighHalfReachesTheDivisor : Obligations.DivOverflowsWhenTheHighHalfReachesTheDivisor := by
  intro sh w s hr hd
  rw [← two_pow_le_div_iff (s.read w.bits (quotientReg w)).isLt hd, ← dividendU_eq_halves]
  constructor
  · intro hfault
    by_contra hq
    obtain ⟨t, ht, -⟩ := exec_div_of_ok hr (divUnsigned_of_fits hd (Nat.not_le.1 hq))
    cases hfault.symm.trans ht
  · exact fun hq => exec_div_of_error hr (divUnsigned_of_overflow hd hq)

end Sys2Proof.Proofs
end

section
/-! PROOFS. AND, OR, XOR, TEST, NOT and the packed PAND, POR, PXOR, PANDN, PTEST (44_logical.md R270 to R281). The result of a two-operand row
is a Boolean function of its operands' bits, bit by bit; each row is then the shared operation it is written with. -/

namespace Sys2Proof.Proofs
open Sys2Proof.Machine

/-! ### Operations that act bit by bit -/

/-- Each bit of g's result is f of the operands' bits in its place. -/
def ActsBitwise (f : Bool → Bool → Bool) {n : Nat} (g : BitVec n → BitVec n → BitVec n) : Prop :=
  ∀ (a b : BitVec n) (k : Nat), k < n → (g a b).getLsbD k = f (a.getLsbD k) (b.getLsbD k)

section
variable {n : Nat}

theorem actsBitwise_and : ActsBitwise Bool.and (fun a b : BitVec n => a &&& b) := fun _ _ _ _ => BitVec.getLsbD_and

theorem actsBitwise_or : ActsBitwise Bool.or (fun a b : BitVec n => a ||| b) := fun _ _ _ _ => BitVec.getLsbD_or

theorem actsBitwise_xor : ActsBitwise Bool.xor (fun a b : BitVec n => a ^^^ b) := fun _ _ _ _ => BitVec.getLsbD_xor

/-- The first operand is the complemented one (44_logical.md R280, R281). -/
theorem actsBitwise_andNot : ActsBitwise (fun x y => !x && y) (fun a b : BitVec n => ~~~a &&& b) := fun a b k hk => by
  rw [BitVec.getLsbD_and, BitVec.getLsbD_not, decide_eq_true hk, Bool.true_and]

/-- The result is 0 exactly when each of its bits is. -/
theorem ActsBitwise.eq_zero_iff {f : Bool → Bool → Bool} {g : BitVec n → BitVec n → BitVec n} (hg : ActsBitwise f g) (a b : BitVec n) :
    g a b = 0 ↔ ∀ k < n, f (a.getLsbD k) (b.getLsbD k) = false := by
  constructor
  · intro h k hk
    rw [← hg a b k hk, h]
    exact BitVec.getLsbD_zero
  · intro h
    refine BitVec.eq_of_getLsbD_eq fun k hk => ?_
    rw [hg a b k hk, h k hk]
    exact BitVec.getLsbD_zero.symm

end

/-! ### The rows as the shared operations -/

section
variable (sh : BinaryShape) (w : Width) (s : State)

theorem exec_and : exec (.and sh w) s = binaryOp (.and sh w) w.bits (fun a b => (a &&& b, logicRecipe (a &&& b))) s := rfl

theorem exec_or : exec (.or sh w) s = binaryOp (.or sh w) w.bits (fun a b => (a ||| b, logicRecipe (a ||| b))) s := rfl

theorem exec_xor : exec (.xor sh w) s = binaryOp (.xor sh w) w.bits (fun a b => (a ^^^ b, logicRecipe (a ^^^ b))) s := rfl

end

theorem exec_test (sh : NoRmShape) (w : Width) (s : State) :
    exec (.test sh w) s = compareOp (.test sh w) w.bits (fun a b => logicRecipe (a &&& b)) s := rfl

theorem exec_not (sh : UnaryShape) (w : Width) (s : State) :
    exec (.not sh w) s = unaryOp (.not sh w) w.bits (fun a => (~~~a, FlagWrite.nothing)) s := rfl

section
variable (sh : PackedShape) (s : State)

theorem exec_pand : exec (.pand sh) s = binaryOp (.pand sh) s.ctx.vlen.bits (fun a b => (a &&& b, packedRecipe)) s := rfl

theorem exec_por : exec (.por sh) s = binaryOp (.por sh) s.ctx.vlen.bits (fun a b => (a ||| b, packedRecipe)) s := rfl

theorem exec_pxor : exec (.pxor sh) s = binaryOp (.pxor sh) s.ctx.vlen.bits (fun a b => (a ^^^ b, packedRecipe)) s := rfl

theorem exec_pandn : exec (.pandn sh) s = binaryOp (.pandn sh) s.ctx.vlen.bits (fun a b => (~~~a &&& b, packedRecipe)) s := rfl

theorem exec_ptest : exec (.ptest sh) s = compareOp (.ptest sh) s.ctx.vlen.bits (fun a b => ptestRecipe a b) s := rfl

end

/-! ### AND, OR, XOR and TEST -/

/-- A scalar row that acts bit by bit, with the recipe that AND, OR and XOR share (44_logical.md R270). -/
theorem exec_logical {i : Instr} {sh : BinaryShape} {w : Width} {s : State} {f : Bool → Bool → Bool}
    {g : BitVec w.bits → BitVec w.bits → BitVec w.bits} (hg : ActsBitwise f g)
    (he : exec i s = binaryOp i w.bits (fun a b => (g a b, logicRecipe (g a b))) s) (hw : i.width = some w) (hsh : i.shape = sh.shape)
    (hr : s.ready i = true) :
    ∃ (t : State) (r : BitVec w.bits), exec i s = .next t
      ∧ (∀ k < w.bits, r.getLsbD k = f ((s.read w.bits s.op1).getLsbD k) ((s.read w.bits s.op2).getLsbD k))
      ∧ Holds t s.op1 r ∧ Frame s t [s.op1]
      ∧ t.mach.flags = ⟨.zero, .ofBool (parityFlag r), .u, .ofBool (decide (r = 0)), .ofBool r.msb, .zero⟩ := by
  obtain ⟨t, ht, hholds, hframe, hflags⟩ := exec_binaryOp he hw hsh hr rfl (logicRecipe_apply _ _)
  exact ⟨t, _, ht, hg _ _, hholds, hframe, hflags⟩

/-- Settles O25: the three rows share one recipe, and differ in the Boolean function of each bit. -/
theorem logicalRowsWriteAndFlag : Obligations.LogicalRowsWriteAndFlag := by
  rintro sh w s _ _ _ (⟨rfl, rfl, rfl⟩ | ⟨rfl, rfl, rfl⟩ | ⟨rfl, rfl, rfl⟩)
  · exact ⟨opField_encode _, exec_logical actsBitwise_and (exec_and sh w s) rfl rfl⟩
  · exact ⟨opField_encode _, exec_logical actsBitwise_or (exec_or sh w s) rfl rfl⟩
  · exact ⟨opField_encode _, exec_logical actsBitwise_xor (exec_xor sh w s) rfl rfl⟩

/-- Settles O26: TEST leaves AND's flags, and its events are two reads and a flag write. -/
theorem testWritesFlagsOnly : Obligations.TestWritesFlagsOnly := by
  intro sh w s
  exact ⟨opField_encode _, rfl, fun hr => exec_compareOp (exec_test sh w s) hr (logicRecipe_apply _ _)⟩

/-! ### NOT -/

/-- Where no flag is written, no marker is recorded either (20_memory.md R83). -/
theorem flagEvents_nothing (ps : List Put) : flagEvents ps FlagWrite.nothing = [] := by
  simp [flagEvents, FlagWrite.writesAny]

theorem ne_noReorder_of_isWrite {e : Event} (h : e.isWrite = true) : e ≠ .noReorder := by
  rintro rfl
  cases h

/-- Settles O27: the complement is the distance from the highest value; NOT's events are a read and a write. -/
theorem notComplementsAndKeepsFlags : Obligations.NotComplementsAndKeepsFlags := by
  intro sh w s
  refine ⟨opField_encode _, fun hr => ?_⟩
  have hsize := op1_sized (w := w) rfl (by cases sh <;> nofun) (by cases sh <;> nofun) hr
  obtain ⟨t, ht, hholds, hframe, hflags, htrace⟩ := unaryOp_spec (fun a => (~~~a, FlagWrite.nothing)) hr hsize
  refine ⟨t, _, (exec_not sh w s).trans ht, BitVec.toNat_not, hholds, hframe, fun e he => ?_, hflags⟩
  simp only [htrace, flagEvents_nothing, List.append_nil, List.mem_append] at he
  rcases he with hold | hread | hwrite
  · exact .inl hold
  · exact .inr (quiet_of_isRead (isRead_of_mem_readEvent hread)).1
  · exact .inr (ne_noReorder_of_isWrite (isWrite_of_mem_writeEvent hwrite))

/-! ### The packed rows -/

/-- A packed row that acts bit by bit on the whole `VLEN`-bit word (44_logical.md R276), with the recipe that clears every flag (R277 to R280). -/
theorem exec_packed {i : Instr} {sh : PackedShape} {s : State} {f : Bool → Bool → Bool}
    {g : BitVec s.ctx.vlen.bits → BitVec s.ctx.vlen.bits → BitVec s.ctx.vlen.bits} (hg : ActsBitwise f g)
    (he : exec i s = binaryOp i s.ctx.vlen.bits (fun a b => (g a b, packedRecipe)) s) (hw : i.width = none) (hsh : i.shape = sh.shape)
    (hr : s.ready i = true) :
    ∃ (t : State) (r : BitVec s.ctx.vlen.bits), exec i s = .next t
      ∧ (∀ k < s.ctx.vlen.bits,
          r.getLsbD k = f ((s.read s.ctx.vlen.bits s.op1).getLsbD k) ((s.read s.ctx.vlen.bits s.op2).getLsbD k))
      ∧ Holds t s.op1 r ∧ Frame s t [s.op1]
      ∧ t.mach.flags = ⟨.zero, .zero, .zero, .zero, .zero, .zero⟩ := by
  obtain ⟨t, ht, hholds, hframe, hflags⟩ := binaryOp_spec (fun a b => (g a b, packedRecipe)) hr (op1_sized_packed hw hsh hr)
  exact ⟨t, _, he.trans ht, hg _ _, hholds, hframe, hflags⟩

/-- Settles O28: the four rows share one recipe, and differ in the Boolean function of each bit. -/
theorem packedRowsWriteAndClearFlags : Obligations.PackedRowsWriteAndClearFlags := by
  rintro sh s _ _ _ (⟨rfl, rfl, rfl⟩ | ⟨rfl, rfl, rfl⟩ | ⟨rfl, rfl, rfl⟩ | ⟨rfl, rfl, rfl⟩)
  · exact ⟨opField_encode _, exec_packed actsBitwise_and (exec_pand sh s) rfl rfl⟩
  · exact ⟨opField_encode _, exec_packed actsBitwise_or (exec_por sh s) rfl rfl⟩
  · exact ⟨opField_encode _, exec_packed actsBitwise_xor (exec_pxor sh s) rfl rfl⟩
  · exact ⟨opField_encode _, exec_packed actsBitwise_andNot (exec_pandn sh s) rfl rfl⟩

/-! ### PTEST -/

theorem ptestRecipe_apply {n : Nat} (a b : BitVec n) (o : Flags) : (ptestRecipe a b).apply o =
    ⟨.ofBool (decide (~~~a &&& b = 0)), .zero, .zero, .ofBool (decide (a &&& b = 0)), .zero, .zero⟩ := rfl

theorem ofBool_decide_eq_one_iff (p : Prop) [Decidable p] : FlagVal.ofBool (decide p) = .one ↔ p := by
  by_cases h : p <;> simp [h]

theorem ofBool_ne_u (b : Bool) : FlagVal.ofBool b ≠ .u := by cases b <;> nofun

/-- Settles O29: a word is 0 exactly when each of its bits is, for the AND and for the AND-NOT. -/
theorem ptestSetsZeroAndCarryOnly : Obligations.PtestSetsZeroAndCarryOnly := by
  intro sh s
  refine ⟨opField_encode _, rfl, fun hr => ?_⟩
  obtain ⟨t, ht, hframe, hquiet, hflags⟩ := exec_compareOp (exec_ptest sh s) hr (ptestRecipe_apply _ _ _)
  refine ⟨t, ht, hframe, hquiet, ?_⟩
  rw [hflags]
  exact ⟨(ofBool_decide_eq_one_iff _).trans (actsBitwise_and.eq_zero_iff _ _),
    (ofBool_decide_eq_one_iff _).trans (actsBitwise_andNot.eq_zero_iff _ _), ofBool_ne_u _, ofBool_ne_u _, rfl, rfl, rfl, rfl⟩

end Sys2Proof.Proofs
end

section
/-! PROOFS. SHL, SHR and SAR by count class (45_shift.md R300 to R304). The model gives each class its own result; the formula of classes B
and C is a shift of the library, which takes any count and agrees with classes A and D too. -/

namespace Sys2Proof.Proofs
open Sys2Proof.Machine

/-! ### Results in every count class -/

section
variable {n : Nat} (v : BitVec n) (c : Nat)

theorem ofNat_toNat_mul_two_pow : BitVec.ofNat n (v.toNat * 2 ^ c) = v <<< c := by
  rw [← Nat.shiftLeft_eq]
  rfl

theorem ofNat_toNat_div_two_pow : BitVec.ofNat n (v.toNat / 2 ^ c) = v >>> c := by
  rw [← Nat.shiftRight_eq_div_pow, ← BitVec.toNat_ushiftRight, BitVec.ofNat_toNat, BitVec.setWidth_eq]

theorem ofInt_toInt_div_two_pow : BitVec.ofInt n (v.toInt / 2 ^ c) = v.sshiftRight c := by
  rw [BitVec.sshiftRight_eq, Int.shiftRight_eq_div_pow, Nat.cast_pow, Nat.cast_ofNat]

/-- A count of at least the width leaves the sign bit in every place (R304, class D). -/
theorem sshiftRight_of_le (h : n ≤ c) : v.sshiftRight c = if v.msb then BitVec.allOnes n else 0 := by
  refine BitVec.eq_of_getLsbD_eq fun k hk => ?_
  rw [BitVec.getLsbD_sshiftRight, if_neg (by omega : ¬c + k < n)]
  cases v.msb <;> simp [hk]

variable {v c} {x r d : BitVec n}

/-- The model's case split by count class (45_shift.md R301) gives r, where classes A and D agree with it. -/
theorem ite_countClass_eq (hA : c = 0 → r = x) (hD : n ≤ c → r = d) : (if c = 0 then x else if c < n then r else d) = r := by
  split
  · next h0 => exact (hA h0).symm
  · split
    · rfl
    · next hn => exact (hD (Nat.le_of_not_lt hn)).symm

theorem shiftLeft_eq (hr : r = BitVec.ofNat n (v.toNat * 2 ^ c)) (hA : c = 0 → r = v) (hD : n ≤ c → r = 0) :
    shiftLeft v c = (r, shiftRecipe c (v.getLsbD (n - c)) (v.msb ^^ r.msb) r) := by
  simp only [shiftLeft, ← hr, ite_countClass_eq hA hD]

theorem shiftRight_eq (hr : r = BitVec.ofNat n (v.toNat / 2 ^ c)) (hA : c = 0 → r = v) (hD : n ≤ c → r = 0) :
    shiftRight v c = (r, shiftRecipe c (v.getLsbD (c - 1)) v.msb r) := by
  simp only [shiftRight, ← hr, ite_countClass_eq hA hD]

/-- The quotient is rounded down, as `Int`'s division by a positive number is. -/
theorem shiftArith_eq (hr : r = BitVec.ofInt n (v.toInt / 2 ^ c)) (hA : c = 0 → r = v)
    (hD : n ≤ c → r = if v.msb then BitVec.allOnes n else 0) :
    shiftArith v c = (r, shiftRecipe c (v.getLsbD (c - 1)) false r) := by
  have hfloor : v.toInt.fdiv (2 ^ c) = v.toInt / 2 ^ c := Int.fdiv_eq_ediv_of_nonneg _ (by positivity)
  simp only [shiftArith, hfloor, ← hr, ite_countClass_eq hA hD]

end

/-! ### The rows as the shared operation -/

section
variable (sh : NoRmShape) (w : Width) (s : State)

theorem exec_shl : exec (.shl sh w) s = shiftOp (.shl sh w) w shiftLeft s := rfl

theorem exec_shr : exec (.shr sh w) s = shiftOp (.shr sh w) w shiftRight s := rfl

theorem exec_sar : exec (.sar sh w) s = shiftOp (.sar sh w) w shiftArith s := rfl

end

/-- Everything a ready shift row does, class by class (45_shift.md R300, R301): r is its result and d that of class D; `out` is the last bit
shifted out, `ovf` the overflow of count 1 and `sign` the value of SF. -/
theorem exec_shiftOp {i : Instr} {sh : NoRmShape} {w : Width} {s : State} {f : BitVec w.bits → Nat → BitVec w.bits × FlagWrite}
    (he : exec i s = shiftOp i w f s) (hw : i.width = some w) (hsh : i.shape = sh.shape) (hr : s.ready i = true)
    {c : Nat} (hc : maskedCount w (s.read 8 s.op2) = c) {r d : BitVec w.bits} {out ovf : Bool} {sign : FlagVal}
    (hf : f (s.read w.bits s.op1) c = (r, shiftRecipe c out ovf r)) (hA : c = 0 → r = s.read w.bits s.op1)
    (hD : w.bits ≤ c → r = d) (hsign : 0 < c → .ofBool r.msb = sign) :
    ∃ t, exec i s = .next t ∧ Holds t s.op1 r ∧ Frame s t [s.op1]
      ∧ (c = 0 → r = s.read w.bits s.op1 ∧ t.mach.flags = s.mach.flags ∧ ∀ e ∈ t.trace, e ∈ s.trace ∨ e ≠ .noReorder)
      ∧ (w.bits ≤ c → r = d)
      ∧ (0 < c → t.mach.flags.ZF = .ofBool (decide (r = 0)) ∧ t.mach.flags.SF = sign
          ∧ t.mach.flags.PF = .ofBool (parityFlag r) ∧ t.mach.flags.AF = .u)
      ∧ (c = 1 → t.mach.flags.OF = .ofBool ovf)
      ∧ (1 < c → t.mach.flags.OF = .u)
      ∧ (0 < c → c < w.bits → t.mach.flags.CF = .ofBool out)
      ∧ (w.bits ≤ c → t.mach.flags.CF = .u) := by
  have hsize := op1_sized hw (by rw [hsh]; cases sh <;> nofun) (by rw [hsh]; cases sh <;> nofun) hr
  obtain ⟨t, ht, hholds, hframe, hflags, htrace⟩ := shiftOp_spec f hr hsize
  rw [hc, hf] at hholds hflags htrace
  have hwrites (h : 0 < c) := hflags.trans (shiftRecipe_pos_apply out ovf r s.mach.flags h)
  refine ⟨t, he.trans ht, hholds, hframe, fun h0 => ⟨hA h0, ?_, fun e hmem => ?_⟩, hD, fun h => ?_, fun h => ?_, fun h => ?_,
    fun h hn => ?_, fun hn => ?_⟩
  · rw [hflags, h0]
    rfl
  · subst h0
    simp only [htrace, shiftRecipe_zero, flagEvents_nothing, List.append_nil, List.mem_append] at hmem
    rcases hmem with hold | (hread | hread) | hwrite
    · exact .inl hold
    · exact .inr (quiet_of_isRead (isRead_of_mem_readEvent hread)).1
    · exact .inr (quiet_of_isRead (isRead_of_mem_readEvent hread)).1
    · exact .inr (ne_noReorder_of_isWrite (isWrite_of_mem_writeEvent hwrite))
  · rw [hwrites h]
    exact ⟨rfl, hsign h, rfl, rfl⟩
  · rw [hwrites (by omega)]
    exact if_pos h
  · rw [hwrites (by omega)]
    exact if_neg (by omega)
  · rw [hwrites h]
    exact if_pos hn
  · rw [hwrites ((bits_pos w).trans_le hn)]
    exact if_neg (by omega)

/-- Settles O40: every count is one shift to the left, which is the value itself at 0 and 0 from the width on. -/
theorem shlByCountClass : Obligations.ShlByCountClass := by
  intro sh w s
  refine ⟨opField_encode _, fun hr => ?_⟩
  intro n v c r
  have hres : r = v <<< c := ofNat_toNat_mul_two_pow v c
  have hA (h0 : c = 0) : r = v := by rw [hres, h0, BitVec.shiftLeft_zero]
  have hD (hn : n ≤ c) : r = 0 := hres.trans (BitVec.shiftLeft_eq_zero hn)
  exact exec_shiftOp (exec_shl sh w s) rfl rfl hr (maskedCount_eq w _) (shiftLeft_eq rfl hA hD) hA hD fun _ => rfl

/-- Settles O41: every count is one logical shift to the right, which leaves no sign bit unless the count is 0. -/
theorem shrByCountClass : Obligations.ShrByCountClass := by
  intro sh w s
  refine ⟨opField_encode _, fun hr => ?_⟩
  intro n v c r
  have hres : r = v >>> c := ofNat_toNat_div_two_pow v c
  have hA (h0 : c = 0) : r = v := by rw [hres, h0, BitVec.ushiftRight_zero]
  have hD (hn : n ≤ c) : r = 0 := hres.trans (BitVec.ushiftRight_eq_zero hn)
  have hsign (h : 0 < c) : FlagVal.ofBool r.msb = .zero := by rw [hres, BitVec.msb_ushiftRight, decide_eq_true h]; rfl
  exact exec_shiftOp (exec_shr sh w s) rfl rfl hr (maskedCount_eq w _) (shiftRight_eq rfl hA hD) hA hD hsign

/-- Settles O42: every count is one arithmetic shift to the right, which keeps the sign bit. -/
theorem sarByCountClass : Obligations.SarByCountClass := by
  intro sh w s
  refine ⟨opField_encode _, fun hr => ?_⟩
  intro n v c r
  have hres : r = v.sshiftRight c := ofInt_toInt_div_two_pow v c
  have hA (h0 : c = 0) : r = v := by rw [hres, h0, BitVec.sshiftRight_zero]
  have hD (hn : n ≤ c) : r = if v.msb then BitVec.allOnes n else 0 := hres.trans (sshiftRight_of_le v c hn)
  have hsign (_ : 0 < c) : FlagVal.ofBool r.msb = .ofBool v.msb := by rw [hres, BitVec.msb_sshiftRight]
  exact exec_shiftOp (exec_sar sh w s) rfl rfl hr (maskedCount_eq w _) (shiftArith_eq rfl hA hD) hA hD hsign

end Sys2Proof.Proofs
end

section
/-! PROOFS. How a call ends (60_exceptions.md): only DIV and IDIV raise the block's fault (R331, R333), and of several outcomes of one call the
first in the order of priority is reported (R332). -/

namespace Sys2Proof.Proofs
open Sys2Proof.Machine

/-! ### Which rows fault -/

/-- Everything a row does when it faults: it is stuck at an access that is not admitted, or it is a divide that is ready, and the hook receives the
`MachineState` as it was. -/
theorem exec_fault {i : Instr} {s : State} {f : Fault} (h : exec i s = .fault f) :
    (s.admits i = false ∧ f = .memNotAdmitted)
    ∨ (s.ready i = true ∧ (∃ sh w, i = .div sh w ∨ i = .idiv sh w) ∧ ∃ c, f = .divideError c s.mach) := by
  rcases exec_checks i s with ⟨-, e⟩ | ⟨-, -, e⟩ | ⟨-, -, hm, e⟩ | hr
  · cases e.symm.trans h
  · cases e.symm.trans h
  · exact .inl ⟨hm, Host.Outcome.fault.inj (h.symm.trans e)⟩
  · by_cases hx : ∃ sh w, i = .xadd sh w
    · obtain ⟨sh, w, rfl⟩ := hx
      cases (execXadd_ready hr).symm.trans h
    · push Not at hx
      rcases exec_ready hr hx with ⟨rs, ps, g, e, -⟩ | ⟨hdiv, c, e⟩
      · cases e.symm.trans h
      · exact .inr ⟨hr, hdiv, c, Host.Outcome.fault.inj (h.symm.trans e)⟩

/-- Settles O46: a row that faults and is not stuck is a divide. -/
theorem onlyDividesFault : Obligations.OnlyDividesFault := by
  intro i s f h hne
  rcases exec_fault h with ⟨-, rfl⟩ | ⟨-, hdiv, hhook⟩
  · exact absurd rfl hne
  · exact ⟨hdiv, hhook⟩

/-! ### The cause of a divide fault -/

theorem divUnsigned_eq_byZero_iff {bits n d : Nat} : divUnsigned bits n d = .error .byZero ↔ d = 0 := by
  refine ⟨fun h => ?_, fun hd => hd ▸ divUnsigned_zero n⟩
  by_contra hd
  rcases le_or_gt (2 ^ bits) (n / d) with hq | hq
  · cases (divUnsigned_of_overflow hd hq).symm.trans h
  · cases (divUnsigned_of_fits hd hq).symm.trans h

theorem divSigned_eq_byZero_iff {bits : Nat} {n d : Int} : divSigned bits n d = .error .byZero ↔ d = 0 := by
  refine ⟨fun h => ?_, fun hd => hd ▸ divSigned_zero n⟩
  by_contra hd
  by_cases hq : n.tdiv d < -2 ^ (bits - 1) ∨ 2 ^ (bits - 1) ≤ n.tdiv d
  · cases (divSigned_of_overflow hd hq).symm.trans h
  · push Not at hq
    obtain ⟨hlo, hhi⟩ := hq
    cases (divSigned_of_fits hd hlo hhi).symm.trans h

section
variable {sh : UnaryShape} {w : Width} {s : State}

/-- A DIV that is ready raises the cause that its quotient decides, and no other. -/
theorem exec_div_divideError_iff (hr : s.ready (.div sh w) = true) (c : DivideCause) :
    exec (.div sh w) s = .fault (.divideError c s.mach)
      ↔ divUnsigned w.bits (dividendU s w) (s.read w.bits s.op1).toNat = .error c := by
  refine ⟨fun h => ?_, exec_div_of_error hr⟩
  cases hq : divUnsigned w.bits (dividendU s w) (s.read w.bits s.op1).toNat with
  | error c' =>
    cases (exec_div_of_error hr hq).symm.trans h
    rfl
  | ok p =>
    obtain ⟨t, ht, -⟩ := exec_div_of_ok hr hq
    cases ht.symm.trans h

/-- An IDIV that is ready raises the cause that its quotient decides, and no other. -/
theorem exec_idiv_divideError_iff (hr : s.ready (.idiv sh w) = true) (c : DivideCause) :
    exec (.idiv sh w) s = .fault (.divideError c s.mach)
      ↔ divSigned w.bits (dividendS s w) (s.read w.bits s.op1).toInt = .error c := by
  refine ⟨fun h => ?_, exec_idiv_of_error hr⟩
  cases hq : divSigned w.bits (dividendS s w) (s.read w.bits s.op1).toInt with
  | error c' =>
    cases (exec_idiv_of_error hr hq).symm.trans h
    rfl
  | ok p =>
    obtain ⟨t, ht, -⟩ := exec_idiv_of_ok hr hq
    cases ht.symm.trans h

/-- A divide that is ready reports a zero divisor exactly when its divisor is zero, whatever the quotient would be. -/
theorem exec_byZero_iff {i : Instr} (hr : s.ready i = true) (hi : i = .div sh w ∨ i = .idiv sh w) :
    exec i s = .fault (.divideError .byZero s.mach) ↔ s.read w.bits s.op1 = 0 := by
  rcases hi with rfl | rfl
  · rw [exec_div_divideError_iff hr, divUnsigned_eq_byZero_iff, ← BitVec.toNat_inj, BitVec.ofNat_eq_ofNat, BitVec.toNat_zero]
  · rw [exec_idiv_divideError_iff hr, divSigned_eq_byZero_iff, ← BitVec.toInt_inj, BitVec.ofNat_eq_ofNat, BitVec.toInt_zero]

end

/-! ### The outcomes of one step -/

/-- Going on to the next call makes no fault and hides none. -/
theorem advance_eq_fault_iff {r : Result} {f : Fault} : advance r = .fault f ↔ r = .fault f := by
  cases r <;> simp

theorem handles_of_calls {s : State} {c : Call} {cs : List Call} (hc : s.calls = c :: cs) : s.handles = c.ops := by
  rw [State.handles, hc]

/-- Settles O9: the decoder's rejection, then the checks of R120 in their order, then how a row that is ready ends. -/
theorem outcomesComeInPriorityOrder : Obligations.OutcomesComeInPriorityOrder := by
  intro s c cs hc
  refine ⟨fun hnone => ?_, fun i hd => ?_⟩
  · cases hd : decode c.ctl with
    | error r => exact step_of_decode_error hc hd
    | ok i => exact absurd hd (hnone i)
  have hfit : handlesFit s.ctx (i.slots s.ctx.vlen) c.ops = i.operandsFit s.ctx s.handles := by
    rw [handles_of_calls hc]; rfl
  rw [step_eq_advance_exec hc hd, hfit]
  refine ⟨fun hna => ?_, fun ha hf => ?_, fun ha hf hm => ?_, fun hr sh w hi => ?_, fun hr => ?_⟩
  · rw [exec_modeInapplicable_iff.2 hna, advance_refused]
  · rw [(exec_operandMismatch_iff ha).2 hf, advance_refused]
  · rw [(exec_memNotAdmitted_iff ha hf).2 hm, advance_fault]
  · rw [advance_eq_fault_iff, exec_byZero_iff hr hi]
  · rcases exec_next_or_divideError_of_ready hr with ⟨t, e⟩ | ⟨cause, e⟩
    · exact .inl ⟨_, by rw [e, advance_next]⟩
    · exact .inr ⟨cause, by rw [e, advance_fault]⟩

end Sys2Proof.Proofs
end

section
/-! PROOFS. The reset state and the ends of a run (70_reset_and_hazards.md R360, R363). Every step makes a call or ends the run, so a run is done
with its calls, or stopped before the last of them. -/

namespace Sys2Proof.Proofs
open Sys2Proof.Machine

/-! ### The end of a run -/

/-- The ends of a run other than its completion (R363): the block's fault with the state before the call, a refusal of the call, a stuck step. -/
def StopsAtCall (u : State) : Prop :=
  (∃ c, step u = .fault (.divideError c u.mach))
    ∨ (∃ r, step u = .refused r ∧ (r = .unlisted ∨ r = .modeInapplicable ∨ r = .operandMismatch))
    ∨ step u = .fault .memNotAdmitted

/-- With no call left the run has ended. -/
theorem step_of_no_calls {s : State} (hc : s.calls = []) : step s = .refused .runEnded := by
  simp only [step, hc]

/-- A step with a call left goes on, or is the end of the run: what the decoder rejects and what a row checks are refused or stuck, and a row that
is ready goes on or faults. -/
theorem step_next_or_stopsAtCall {s : State} {c : Call} {cs : List Call} (hc : s.calls = c :: cs) :
    (∃ t, step s = .next t) ∨ StopsAtCall s := by
  cases hd : decode c.ctl with
  | error r => exact .inr (.inr (.inl ⟨_, step_of_decode_error hc hd, .inl rfl⟩))
  | ok i =>
    have hs : step s = advance (exec i s) := step_eq_advance_exec hc hd
    rcases exec_checks i s with ⟨-, e⟩ | ⟨-, -, e⟩ | ⟨-, -, -, e⟩ | hr
    · exact .inr (.inr (.inl ⟨_, by rw [hs, e, advance_refused], .inr (.inl rfl)⟩))
    · exact .inr (.inr (.inl ⟨_, by rw [hs, e, advance_refused], .inr (.inr rfl)⟩))
    · exact .inr (.inr (.inr (by rw [hs, e, advance_fault])))
    · rcases exec_next_or_divideError_of_ready hr with ⟨t, e⟩ | ⟨cause, e⟩
      · exact .inl ⟨_, by rw [hs, e, advance_next]⟩
      · exact .inr (.inl ⟨cause, by rw [hs, e, advance_fault]⟩)

/-- A run whose first step goes on is that step and then the rest of the run. -/
theorem run_succ_of_step_next {s t : State} (h : step s = .next t) (k : Nat) :
    Host.Core.run Sys2Proof.core (k + 1) s = Host.Core.run Sys2Proof.core k t := by
  simp only [Host.Core.run, show Sys2Proof.core.step s = .next t from h]

/-- Settles O60, by induction on the calls left: the first call ends the run, or is made and leaves the rest of them. -/
theorem runEndsInOneOfFourWays : Obligations.RunEndsInOneOfFourWays := by
  intro s
  induction hc : s.calls generalizing s with
  | nil => exact .inl ⟨s, by rw [Completes, hc]; rfl, hc, rfl, step_of_no_calls hc⟩
  | cons c cs ih =>
    rcases step_next_or_stopsAtCall hc with ⟨s', hs⟩ | hstop
    · obtain ⟨hctx, c', hc'⟩ := stepMakesOneCallInTheSameContext s s' hs
      obtain ⟨-, rfl⟩ := List.cons.inj (hc.symm.trans hc')
      rcases ih s' rfl with ⟨t, hrun, hnone, hctx', hend⟩ | ⟨k, u, hk, hrun, hstop⟩
      · refine .inl ⟨t, ?_, hnone, hctx'.trans hctx, hend⟩
        rw [Completes, hc, List.length_cons, run_succ_of_step_next hs]
        exact hrun
      · exact .inr ⟨k + 1, u, Nat.succ_lt_succ hk, (run_succ_of_step_next hs k).trans hrun, hstop⟩
    · exact .inr ⟨0, s, Nat.succ_pos _, rfl, hstop⟩

/-! ### Reset -/

/-- A register file that is given as 0 is 0, whichever registers the mode has and at whatever width they are cut. -/
theorem ofFn_cut_zero (w n cut : Nat) :
    (Vector.ofFn fun i : Fin 16 => if i.val < n then ((Vector.replicate 16 (0 : BitVec w))[i].setWidth cut).setWidth w else 0)
      = Vector.replicate 16 0 := by
  ext i hi : 1
  simp

/-- Settles O55: the registers are given as 0, and the flags and the memory are the same by definition. -/
theorem resetIsAnInstantiation : Obligations.ResetIsAnInstantiation := by
  simp only [Obligations.ResetIsAnInstantiation, State.reset, instantiate, ofFn_cut_zero]
  rfl

/-- Settles O53: the reset state is an instantiation, and every instantiation meets the invariant. -/
theorem resetMeetsTheInvariant : Obligations.ResetMeetsTheInvariant := by
  rw [Obligations.ResetMeetsTheInvariant, resetIsAnInstantiation]
  exact instantiate_inv _ _ _

end Sys2Proof.Proofs
end
